-- ==== Sys2Proof/Word.lean ====
section
/-! DEFINITION. The words of the block and the records of its snapshot interfaces: bytes, beats, the four credit kinds and
signals, and the fields of each interface with their widths (30_encoding.md R101 to R105). -/

namespace Sys2Proof

/-- One byte. -/
abbrev Byte := BitVec 8

/-- A 32-bit word: a REQ32 request word (R121) or a register-file word (R74). -/
abbrev Word := BitVec 32

/-- One beat, data packet or cacheline: exactly 64 bytes, byte 0 first (00_scope.md R7 `BEAT_BYTES`, R103). -/
abbrev Beat := Vector Byte 64

/-- The beat of 64 zero bytes. -/
def zeroBeat : Beat := Vector.replicate 64 0

/-- The four credit kinds, in the order of their codes (R104). -/
inductive CreditKind where
  | cmd | cmdData | resp | respData
deriving DecidableEq, Repr

/-- The four outbound signals, in the order of their codes (R105). -/
inductive Signal where
  | cmdV | cmdDataV | respV | respDataV
deriving DecidableEq, Repr

/-- The two kinds that carry data beats, the only ones `DF.STREAM` may name (R122, R205). -/
inductive DataKind where
  | cmdData | respData
deriving DecidableEq, Repr

/-- One value per credit kind, or per signal of the same number (R104, R105). -/
structure Four (α : Type) where
  cmd : α
  cmdData : α
  resp : α
  respData : α
deriving DecidableEq, Repr

/-- The value of one kind. -/
def Four.get {α : Type} (f : Four α) : CreditKind → α
  | .cmd => f.cmd
  | .cmdData => f.cmdData
  | .resp => f.resp
  | .respData => f.respData

/-- Replace the value of one kind, the other three kept. -/
def Four.set {α : Type} (f : Four α) (k : CreditKind) (v : α) : Four α :=
  match k with
  | .cmd => { f with cmd := v }
  | .cmdData => { f with cmdData := v }
  | .resp => { f with resp := v }
  | .respData => { f with respData := v }

/-- The command interface's fields without `valid` (R101). The three fields of OPEN width are naturals, masked to the
configuration's width before they are driven (20_memory.md R78; log 16). -/
structure CmdRec where
  opcode : BitVec 8
  atag : Nat
  streamId : Nat
  ea : BitVec 64
  tag : BitVec 16
  dl : BitVec 2
  pl : BitVec 3
  be : BitVec 64
  flags : Nat
  endian : BitVec 1
  bdf : BitVec 16
  pasid : BitVec 20
  pgSize : BitVec 6
deriving DecidableEq, Repr

/-- Every field zero. -/
def CmdRec.zero : CmdRec :=
  { opcode := 0, atag := 0, streamId := 0, ea := 0, tag := 0, dl := 0, pl := 0, be := 0, flags := 0, endian := 0,
    bdf := 0, pasid := 0, pgSize := 0 }

/-- The response interface's fields without `valid`: the response record of R102. -/
structure RespRec where
  opcode : BitVec 8
  tag : BitVec 16
  code : BitVec 4
  dl : BitVec 2
  dp : BitVec 2
deriving DecidableEq, Repr

/-- Every field zero. -/
def RespRec.zero : RespRec := { opcode := 0, tag := 0, code := 0, dl := 0, dp := 0 }

/-- A data interface's fields without `valid` (R103). -/
structure DataRec where
  bad : Bool
  data : Beat
deriving DecidableEq, Repr

/-- Every field zero. -/
def DataRec.zero : DataRec := { bad := false, data := zeroBeat }

/-- The configuration-command interface's fields without `valid` (R103). -/
structure CfgRec where
  opcode : BitVec 8
  pa : BitVec 64
  tag : BitVec 16
  pl : BitVec 3
deriving DecidableEq, Repr

/-- Every field zero. -/
def CfgRec.zero : CfgRec := { opcode := 0, pa := 0, tag := 0, pl := 0 }

/-- An interface of a snapshot: its valid flag and its fields, which mean something only when the flag is set (R100). -/
structure Iface (α : Type) where
  valid : Bool
  body : α
deriving DecidableEq, Repr

end Sys2Proof
end

