-- ==== Sys2Proof/Config.lean ====
section
/-! DEFINITION. The implementation parameters of 00_scope.md R7 as one record of plain data, with every alternative the spec
names, and the constants without a body: the OPEN parameters and the free values. -/

namespace Sys2Proof

/-- How `negotiate` combines its two arguments (R7, R140). -/
inductive NegotiateMode where
  | min | peer
deriving DecidableEq, Repr

/-- Which free tag `allocate` returns (R7, R170). -/
inductive AllocPolicy where
  | lowest | any
deriving DecidableEq, Repr

/-- Which machine emits first when both can (R7, R243). -/
inductive RespPriority where
  | partialFirst | configFirst
deriving DecidableEq, Repr

/-- What a drive on a signal whose pulse is still running does (R7, R341). -/
inductive PulseRedrive where
  | hold | reload
deriving DecidableEq, Repr

/-- The machine class an inbound command opcode belongs to (R110). -/
inductive CmdClass where
  | partialRead | partialWrite | cfgRead | cfgWrite | other
deriving DecidableEq, Repr

/-- A pattern over response records: a field given must agree, a field absent agrees with every value (log 17). -/
structure RespPattern where
  opcode : Option (BitVec 8)
  tag : Option (BitVec 16)
  code : Option (BitVec 4)
  dl : Option (BitVec 2)
  dp : Option (BitVec 2)
deriving DecidableEq, Repr

/-- The parameters of 00_scope.md R7 that have an alternative, a bound or no fixed value. Those with one value only
(`BEAT_BYTES`, `TAG_W`, `CREDIT_W`, `ADDR_W`, `CFG_OFF_W`, `CYCLE_W`) are the widths of the types instead. -/
structure Config where
  /-- `PULSE_W`. -/
  pulseW : Nat
  /-- `NEGOTIATE_MODE`. -/
  negotiateMode : NegotiateMode
  /-- `ALLOC_POLICY`. -/
  allocPolicy : AllocPolicy
  /-- `N_CTX`. -/
  nCtx : Nat
  /-- `N_XFER`. -/
  nXfer : Nat
  /-- `FIFO_DEPTH`. -/
  fifoDepth : Nat
  /-- `DATA_TIMEOUT`, OPEN. -/
  dataTimeout : Nat
  /-- `MAX_CREDIT_RETRY`, OPEN. -/
  maxCreditRetry : Nat
  /-- `RESP_PRIORITY`. -/
  respPriority : RespPriority
  /-- `PULSE_REDRIVE`. -/
  pulseRedrive : PulseRedrive
  /-- `IS_TERMINAL` by its complement: a response is terminal when it agrees with none of these patterns (log 17). -/
  nonTerminal : List RespPattern
  /-- `CLASSIFY`: an opcode not listed is of class `other` (R110). -/
  classify : List (BitVec 8 × CmdClass)
  /-- `PL_BYTES`: a code not listed is reserved (R111). -/
  plBytes : List (BitVec 3 × Nat)
  /-- `RESP_OPC_RD` (R112). -/
  respOpcRd : BitVec 8
  /-- `RESP_OPC_WR` (R112). -/
  respOpcWr : BitVec 8
  /-- `ATAG_W`, OPEN. -/
  atagW : Nat
  /-- `STREAM_W`, OPEN. -/
  streamW : Nat
  /-- `FLAGS_W`, OPEN. -/
  flagsW : Nat
deriving DecidableEq, Repr

/-- `DATA_TIMEOUT` less one: OPEN, at least 1 (R7, 93_implementation_defined.md U3; log 3). -/
opaque Config.openDataTimeoutPred : Nat

/-- `MAX_CREDIT_RETRY`: OPEN, at least 0 (R7, U4; log 3). -/
opaque Config.openMaxCreditRetry : Nat

/-- `ATAG_W`: OPEN (R7, U11; log 3). -/
opaque Config.openAtagW : Nat

/-- `STREAM_W`: OPEN (R7, U11; log 3). -/
opaque Config.openStreamW : Nat

/-- `FLAGS_W`: OPEN (R7, U11; log 3). -/
opaque Config.openFlagsW : Nat

/-- Free value: the byte an address of the external memory holds before anything is known to have written it (U20; log 7). -/
opaque Config.envByte : Nat → Byte

/-- Free value: the word a register-file offset holds before anything is known to have written it (U20; log 7). -/
opaque Config.envReg : Nat → Word

/-- Free value: the filler `I.pad` of a tick whose inputs the model itself makes (U1; log 9). -/
opaque Config.freePad : Beat

/-- Free value: the draws of `I.draw` beyond those an input lists, by the count of draws made so far (U8; log 9). -/
opaque Config.freeDraw : Nat → Nat

/-- Free value: beat `i` of a data operand that the request presents with fewer beats than its word fixes (log 10). -/
opaque Config.freeBeat : Nat → Beat

end Sys2Proof
end

