-- ==== Sys2Proof/Syntax.lean ====
section
/-! DEFINITION. The instructions: one constructor per row of spec/opcode_table.json, 14 request-port operations and 4 inbound
TLX commands (30_encoding.md R110, R122). -/

namespace Sys2Proof

/-- The data operand of `BT.DRIVE`: a record of the signal's interface, so that the record fixes the signal (R345). -/
inductive DrivePayload where
  | cmd (p : CmdRec)
  | cmdData (p : DataRec)
  | resp (p : RespRec)
  | respData (p : DataRec)
deriving DecidableEq, Repr

/-- The signal a drive payload is for. -/
def DrivePayload.signal : DrivePayload → Signal
  | .cmd _ => .cmdV
  | .cmdData _ => .cmdDataV
  | .resp _ => .respV
  | .respData _ => .respDataV

/-- The instructions of the block. Operands keep the widths of R121 (request words) and of R101 and R103 (inbound commands);
a data operand travels beside the word (R125). -/
inductive Instr where
  /-- `NOP` (R129). -/
  | nop
  /-- `CR.NEGOTIATE k, local, peer` (R140). -/
  | crNegotiate (k : CreditKind) (localInit peerInit : BitVec 8)
  /-- `CR.TRY_ISSUE k` (R142). -/
  | crTryIssue (k : CreditKind)
  /-- `CR.RETURN k` (R143). -/
  | crReturn (k : CreditKind)
  /-- `CR.READ k` (R145). -/
  | crRead (k : CreditKind)
  /-- `TG.ALLOCATE r` (R170). -/
  | tgAllocate (r : BitVec 8)
  /-- `TG.RESOLVE t` (R172). -/
  | tgResolve (t : BitVec 16)
  /-- `TG.RELEASE t` (R173). -/
  | tgRelease (t : BitVec 16)
  /-- `DF.ENQUEUE x, n, data` (R201): `data` is the operand cut into its `n` packets, lowest address first. -/
  | dfEnqueue (x : BitVec 8) (n : BitVec 16) (data : List Beat)
  /-- `DF.DRAIN x, n` (R202). -/
  | dfDrain (x : BitVec 8) (n : BitVec 16)
  /-- `DF.STREAM k, x` (R205). -/
  | dfStream (k : DataKind) (x : BitVec 8)
  /-- `DF.COUNT x` (R206). -/
  | dfCount (x : BitVec 8)
  /-- `BT.DRIVE s, payload` (R345). -/
  | btDrive (p : DrivePayload)
  /-- `BT.READ s` (R346). -/
  | btRead (sig : Signal)
  /-- `pr_rd_mem` (R233). -/
  | prRdMem (ea : BitVec 64) (tag : BitVec 16) (pl : BitVec 3)
  /-- `pr_wr_mem` (R234). -/
  | prWrMem (ea : BitVec 64) (tag : BitVec 16) (pl : BitVec 3)
  /-- `config_read` (R248). -/
  | configRead (pa : BitVec 64) (tag : BitVec 16) (pl : BitVec 3)
  /-- `config_write` (R249). -/
  | configWrite (pa : BitVec 64) (tag : BitVec 16) (pl : BitVec 3)
deriving DecidableEq, Repr

/-- The data operand lanes a request presents beside its word (R120): an operation reads the lane its word calls for and no
other. -/
structure Operand where
  beats : List Beat
  cmd : CmdRec
  data : DataRec
  resp : RespRec
deriving DecidableEq, Repr

/-- No beats, every record zero. -/
def Operand.zero : Operand := { beats := [], cmd := .zero, data := .zero, resp := .zero }

/-- One request of `I.req`: a REQ32 word with its data operand (R120). -/
structure Request where
  word : Word
  operand : Operand
deriving DecidableEq, Repr

/-- What the block decodes, by where it arrives: the request port, the command interface, the configuration-command interface. -/
inductive Presented where
  | request (q : Request)
  | command (u : CmdRec)
  | config (g : CfgRec)
deriving DecidableEq, Repr

end Sys2Proof
end

