-- ==== Sys2Proof/Machine/Operands.lean ====
section
/-! DEFINITION. Every operand form of the spec, free of the state: codes of kinds and signals, fields of a REQ32 word, range
checks, the parameter tables, the placement of bytes in a beat, little-endian values, register decode and masking. -/

namespace Sys2Proof.Machine

/-! ### Codes (30_encoding.md R104, R105) -/

/-- The credit kind of a 2-bit code (R104). -/
def kindOfCode (k : BitVec 2) : CreditKind :=
  if k = 0 then .cmd else if k = 1 then .cmdData else if k = 2 then .resp else .respData

/-- The 2-bit code of a credit kind (R104). -/
def codeOfKind : CreditKind → BitVec 2
  | .cmd => 0
  | .cmdData => 1
  | .resp => 2
  | .respData => 3

/-- The signal of a 2-bit code (R105). -/
def signalOfCode (k : BitVec 2) : Signal :=
  if k = 0 then .cmdV else if k = 1 then .cmdDataV else if k = 2 then .respV else .respDataV

/-- The 2-bit code of a signal (R105). -/
def codeOfSignal : Signal → BitVec 2
  | .cmdV => 0
  | .cmdDataV => 1
  | .respV => 2
  | .respDataV => 3

/-- The credit kind with the same number as a signal: the kind of the units it carries (R105). -/
def kindOfSignal : Signal → CreditKind
  | .cmdV => .cmd
  | .cmdDataV => .cmdData
  | .respV => .resp
  | .respDataV => .respData

/-- The credit kind a data kind is (R205). -/
def kindOfData : DataKind → CreditKind
  | .cmdData => .cmdData
  | .respData => .respData

/-- The data signal of a data kind (R205). -/
def signalOfData : DataKind → Signal
  | .cmdData => .cmdDataV
  | .respData => .respDataV

/-- A data record as the drive payload of a data kind's signal (R205). -/
def dataPayload (k : DataKind) (p : DataRec) : DrivePayload :=
  match k with
  | .cmdData => .cmdData p
  | .respData => .respData p

/-! ### Fields of a REQ32 word (R121) -/

/-- `OP`, bits 31:26. -/
def fieldOp (w : Word) : BitVec 6 := w.extractLsb' 26 6

/-- `K`, bits 25:24. -/
def fieldK (w : Word) : BitVec 2 := w.extractLsb' 24 2

/-- `A`, bits 23:16. -/
def fieldA (w : Word) : BitVec 8 := w.extractLsb' 16 8

/-- `B`, bits 15:0. -/
def fieldB (w : Word) : BitVec 16 := w.extractLsb' 0 16

/-- `local`, bits 15:8, of `CR.NEGOTIATE`. -/
def fieldLocal (w : Word) : BitVec 8 := w.extractLsb' 8 8

/-- `peer`, bits 7:0, of `CR.NEGOTIATE`. -/
def fieldPeer (w : Word) : BitVec 8 := w.extractLsb' 0 8

/-- The word with the four fields given (R121). -/
def wordOf (op : BitVec 6) (k : BitVec 2) (a : BitVec 8) (b : BitVec 16) : Word := op ++ k ++ a ++ b

/-! ### Ranges (R123) and parameter tables (00_scope.md R7) -/

/-- A requester id: a context `< N_CTX` or a control operation `0xF0 .. 0xFF` (10_state.md R36). -/
def legalRequester (c : Config) (r : BitVec 8) : Bool := decide (r.toNat < c.nCtx) || decide (0xF0 ≤ r.toNat)

/-- A transfer context `x < N_XFER` (10_state.md R39). -/
def legalXfer (c : Config) (x : BitVec 8) : Bool := decide (x.toNat < c.nXfer)

/-- `CLASSIFY` (R110): the class the table lists for an opcode, `other` where it lists none. -/
def classify (c : Config) (opcode : BitVec 8) : CmdClass :=
  match c.classify.find? (fun e => e.1 == opcode) with
  | some e => e.2
  | none => .other

/-- `PL_BYTES` (R111): bytes of a partial-length code, `none` for a reserved code. -/
def plBytes (c : Config) (pl : BitVec 3) : Option Nat :=
  match c.plBytes.find? (fun e => e.1 == pl) with
  | some e => some e.2
  | none => none

/-- The length of a partial access, where the code gives one the machine accepts: 1, 2, 4 or 8 bytes (R231). -/
def partialLen (c : Config) (pl : BitVec 3) : Option Nat :=
  match plBytes c pl with
  | some n => if n = 1 ∨ n = 2 ∨ n = 4 ∨ n = 8 then some n else none
  | none => none

/-- The length of a configuration access, where the code gives one the machine accepts: 1, 2 or 4 bytes (R245). -/
def configLen (c : Config) (pl : BitVec 3) : Option Nat :=
  match plBytes c pl with
  | some n => if n = 1 ∨ n = 2 ∨ n = 4 then some n else none
  | none => none

/-- Whether one field of a pattern agrees with a value (log 17). -/
def fieldAgrees {α : Type} [DecidableEq α] (p : Option α) (v : α) : Bool :=
  match p with
  | some u => decide (u = v)
  | none => true

/-- Whether a response agrees with a pattern (log 17). -/
def patternAgrees (p : RespPattern) (r : RespRec) : Bool :=
  fieldAgrees p.opcode r.opcode && fieldAgrees p.tag r.tag && fieldAgrees p.code r.code && fieldAgrees p.dl r.dl
    && fieldAgrees p.dp r.dp

/-- `IS_TERMINAL` (41_tag_registry.md R176): every response but those the configuration lists as not terminal. -/
def isTerminal (c : Config) (r : RespRec) : Bool := !(c.nonTerminal.any fun p => patternAgrees p r)

/-- Beats of a data-length code (R107), `none` for the reserved code. The block refuses nothing by it. -/
def dlBeats (dl : BitVec 2) : Option Nat :=
  if dl = 1 then some 1 else if dl = 2 then some 2 else if dl = 3 then some 4 else none

/-! ### Byte order (20_memory.md R72, R75) and placement in a beat (R79) -/

/-- `le_bytes_n(v)`: the `n` bytes of `v`, least significant first (R75). -/
def leBytes : Nat → Nat → List Byte
  | 0, _ => []
  | n + 1, v => BitVec.ofNat 8 v :: leBytes n (v / 256)

/-- `le_value(b)`: the sum of `b[i] * 2^(8i)` (R75). -/
def leValue : List Byte → Nat
  | [] => 0
  | b :: bs => b.toNat + 256 * leValue bs

/-- `beat[i]` (00_scope.md R11). -/
def beatByte (b : Beat) (i : Nat) : Byte := if h : i < 64 then b[i] else 0

/-- `extract(beat, off, len)` (R79). -/
def extractBytes (b : Beat) (off len : Nat) : List Byte := (List.range len).map fun i => beatByte b (off + i)

/-- `insert(beat, off, bs)` (R79): bytes `off .. off+len-1` replaced, every other byte kept. -/
def insertBytes (b : Beat) (off : Nat) (bs : List Byte) : Beat :=
  Vector.ofFn fun i : Fin 64 => if off ≤ i.val ∧ i.val < off + bs.length then bs.getD (i.val - off) 0 else b[i]

/-- `w[lane+i] <- bs[i]` over a list of bytes: the modify step of a narrow register write (43_command_sequencer.md R251). -/
def overlayBytes (w : List Byte) (lane : Nat) (bs : List Byte) : List Byte :=
  (List.range w.length).map fun j => if lane ≤ j ∧ j < lane + bs.length then bs.getD (j - lane) 0 else w.getD j 0

/-- The beat offset of an address: its bits 5:0 (R232, R247). -/
def beatOffset (a : BitVec 64) : BitVec 6 := a.extractLsb' 0 6

/-- The register-file offset of a configuration access: `pa[31:0]` with bits 1:0 cleared (R247). -/
def regOffset (pa : BitVec 64) : Word := pa.extractLsb' 0 32 &&& 0xFFFFFFFC#32

/-- The register lane of a configuration access: `pa[1:0]` (R247). -/
def regLane (pa : BitVec 64) : Nat := (pa.extractLsb' 0 2).toNat

/-! ### Conversion points (R76 to R78) -/

/-- A cacheline as 16 words, word `i` carrying bytes `4i .. 4i+3` with byte `4i` in bits 7:0 (R76). -/
def beatToWords (b : Beat) : Vector Word 16 :=
  Vector.ofFn fun i : Fin 16 => BitVec.ofNat 32 (leValue (extractBytes b (4 * i.val) 4))

/-- The cacheline of 16 words (R76). -/
def wordsToBeat (ws : Vector Word 16) : Beat :=
  Vector.ofFn fun i : Fin 64 => (leBytes 4 (ws[i.val / 4]'(by omega)).toNat).getD (i.val % 4) 0

/-- A 64-bit field as two words, low word first (R77). -/
def splitWords (v : BitVec 64) : Word × Word := (v.extractLsb' 0 32, v.extractLsb' 32 32)

/-- The 64-bit field of two words, low word first (R77). -/
def joinWords (w : Word × Word) : BitVec 64 := w.2 ++ w.1

/-- A field masked to `n` bits: `v mod 2^n` (R78). -/
def maskBits (n v : Nat) : Nat := v % 2 ^ n

/-- A command record with its fields of OPEN width masked; every other field has its width by its type (R78, R101). -/
def maskCmd (c : Config) (p : CmdRec) : CmdRec :=
  { p with
    atag := maskBits c.atagW p.atag
    streamId := maskBits c.streamW p.streamId
    flags := maskBits c.flagsW p.flags }

/-- Beats `0 .. n-1` of a data operand: exactly the number the word fixes (R125). A beat the request presents no bytes for is a
free value (log 10). -/
def takeBeats : Nat → List Beat → List Beat
  | 0, _ => []
  | n + 1, b :: bs => b :: takeBeats n bs
  | n + 1, [] => Config.freeBeat n :: takeBeats n []

end Sys2Proof.Machine
end

