-- ==== Sys2Proof/WellFormed.lean ====
section
/-! DEFINITION. Well-formed instructions: operands in the ranges of 30_encoding.md R123, a data operand of the length its word
fixes (R125), and a driven command record whose fields fit their widths (R101). -/

namespace Sys2Proof

/-- Whether a command record's fields of OPEN width fit them. -/
def CmdRec.fits (c : Config) (p : CmdRec) : Bool := decide (Machine.maskCmd c p = p)

/-- Whether an instruction is one that a word with its operand spells under a configuration. -/
def WellFormed (c : Config) : Instr → Bool
  | .nop => true
  | .crNegotiate _ _ _ => true
  | .crTryIssue _ => true
  | .crReturn _ => true
  | .crRead _ => true
  | .tgAllocate r => Machine.legalRequester c r
  | .tgResolve _ => true
  | .tgRelease _ => true
  | .dfEnqueue x n data => Machine.legalXfer c x && decide (data.length = n.toNat)
  | .dfDrain x _ => Machine.legalXfer c x
  | .dfStream _ x => Machine.legalXfer c x
  | .dfCount x => Machine.legalXfer c x
  | .btDrive (.cmd p) => p.fits c
  | .btDrive _ => true
  | .btRead _ => true
  | .prRdMem _ _ _ => true
  | .prWrMem _ _ _ => true
  | .configRead _ _ _ => true
  | .configWrite _ _ _ => true

end Sys2Proof
end

