-- ==== Sys2Proof/Decode.lean ====
section
/-! DEFINITION. Decoding and encoding (30_encoding.md R110, R121 to R126): total on every REQ32 word and on every inbound unit,
refusing by name; the encoder beside it; the pseudo-instructions of R128; and the default tables and parameters. -/

namespace Sys2Proof

/-! ### Default tables (R110, R111, 00_scope.md R7) -/

/-- The default `CLASSIFY` table (R110) [PRESUMED: the spec marks the codes as general knowledge, G4; log 11]. -/
def defaultClassify : List (BitVec 8 × CmdClass) :=
  [(0x28, .partialRead), (0x86, .partialWrite), (0xE0, .cfgRead), (0xE1, .cfgWrite)]

/-- The default `PL_BYTES` table (R111) [PRESUMED: G5; log 11]. -/
def defaultPlBytes : List (BitVec 3 × Nat) :=
  [(0b000, 1), (0b001, 2), (0b010, 4), (0b011, 8), (0b100, 16), (0b101, 32)]

/-- The default configuration (00_scope.md R7). The OPEN parameters are the constants without a body of Config.lean (log 3). -/
def defaultConfig : Config :=
  { pulseW := 2
    negotiateMode := .min
    allocPolicy := .lowest
    nCtx := 16
    nXfer := 16
    fifoDepth := 64
    dataTimeout := Config.openDataTimeoutPred + 1
    maxCreditRetry := Config.openMaxCreditRetry
    respPriority := .partialFirst
    pulseRedrive := .hold
    nonTerminal := []
    classify := defaultClassify
    plBytes := defaultPlBytes
    respOpcRd := 0x01
    respOpcWr := 0x04
    atagW := Config.openAtagW
    streamW := Config.openStreamW
    flagsW := Config.openFlagsW }

/-! ### Decoding -/

/-- Why a word or a unit spells no instruction. -/
inductive Reject where
  /-- `OP` is not in the table of R122 (R123). -/
  | unassignedOp
  /-- A reserved field is nonzero (R123). -/
  | reservedField
  /-- `DF.STREAM` with `K` 0 or 2 (R123). -/
  | streamKind
  /-- `TG.ALLOCATE` with a requester id in neither range (R123). -/
  | requesterRange
  /-- A `DF.*` word with `x ≥ N_XFER` (R123). -/
  | xferRange
  /-- An inbound opcode of another class than its interface's two (R110, R230). -/
  | unsupportedClass
deriving DecidableEq, Repr

/-- `i` where the check holds, else the rejection. -/
def accept (ok : Bool) (why : Reject) (i : Except Reject Instr) : Except Reject Instr :=
  if ok then i else .error why

/-- Decode one request: `OP = w[31:26]`, then the reserved fields of its row, then the ranges (R122 to R126). -/
def decodeRequest (c : Config) (q : Request) : Except Reject Instr :=
  let w := q.word
  let k := Machine.fieldK w
  let a := Machine.fieldA w
  let b := Machine.fieldB w
  let k0 := decide (k = 0)
  let a0 := decide (a = 0)
  let b0 := decide (b = 0)
  match (Machine.fieldOp w).toNat with
  | 0x00 => accept (k0 && a0 && b0) .reservedField (.ok .nop)
  | 0x01 => accept a0 .reservedField
      (.ok (.crNegotiate (Machine.kindOfCode k) (Machine.fieldLocal w) (Machine.fieldPeer w)))
  | 0x02 => accept (a0 && b0) .reservedField (.ok (.crTryIssue (Machine.kindOfCode k)))
  | 0x03 => accept (a0 && b0) .reservedField (.ok (.crReturn (Machine.kindOfCode k)))
  | 0x04 => accept (a0 && b0) .reservedField (.ok (.crRead (Machine.kindOfCode k)))
  | 0x08 => accept (k0 && b0) .reservedField
      (accept (Machine.legalRequester c a) .requesterRange (.ok (.tgAllocate a)))
  | 0x09 => accept (k0 && a0) .reservedField (.ok (.tgResolve b))
  | 0x0A => accept (k0 && a0) .reservedField (.ok (.tgRelease b))
  | 0x10 => accept k0 .reservedField
      (accept (Machine.legalXfer c a) .xferRange (.ok (.dfEnqueue a b (Machine.takeBeats b.toNat q.operand.beats))))
  | 0x11 => accept k0 .reservedField (accept (Machine.legalXfer c a) .xferRange (.ok (.dfDrain a b)))
  | 0x12 => accept b0 .reservedField
      (accept (Machine.legalXfer c a) .xferRange
        (if k = 1 then .ok (.dfStream .cmdData a)
         else if k = 3 then .ok (.dfStream .respData a)
         else .error .streamKind))
  | 0x13 => accept (k0 && b0) .reservedField (accept (Machine.legalXfer c a) .xferRange (.ok (.dfCount a)))
  | 0x18 => accept (a0 && b0) .reservedField
      (.ok (.btDrive
        (match Machine.signalOfCode k with
         | .cmdV => .cmd (Machine.maskCmd c q.operand.cmd)
         | .cmdDataV => .cmdData q.operand.data
         | .respV => .resp q.operand.resp
         | .respDataV => .respData q.operand.data)))
  | 0x19 => accept (a0 && b0) .reservedField (.ok (.btRead (Machine.signalOfCode k)))
  | _ => .error .unassignedOp

/-- Decode a unit of the command interface: only the two partial classes are accepted there (R110, R230). -/
def decodeCommand (c : Config) (u : CmdRec) : Except Reject Instr :=
  match Machine.classify c u.opcode with
  | .partialRead => .ok (.prRdMem u.ea u.tag u.pl)
  | .partialWrite => .ok (.prWrMem u.ea u.tag u.pl)
  | .cfgRead => .error .unsupportedClass
  | .cfgWrite => .error .unsupportedClass
  | .other => .error .unsupportedClass

/-- Decode a unit of the configuration-command interface: only the two configuration classes are accepted there (R110, R230). -/
def decodeConfig (c : Config) (g : CfgRec) : Except Reject Instr :=
  match Machine.classify c g.opcode with
  | .cfgRead => .ok (.configRead g.pa g.tag g.pl)
  | .cfgWrite => .ok (.configWrite g.pa g.tag g.pl)
  | .partialRead => .error .unsupportedClass
  | .partialWrite => .error .unsupportedClass
  | .other => .error .unsupportedClass

/-- Decode what arrives, by where it arrives. -/
def decode (c : Config) : Presented → Except Reject Instr
  | .request q => decodeRequest c q
  | .command u => decodeCommand c u
  | .config g => decodeConfig c g

/-! ### Encoding -/

/-- The REQ32 word of a request-port operation (R122), or the opcode of an inbound command zero-extended (R110). -/
def encodeWord : Instr → Word
  | .nop => Machine.wordOf 0x00 0 0 0
  | .crNegotiate k l p => Machine.wordOf 0x01 (Machine.codeOfKind k) 0 (l ++ p)
  | .crTryIssue k => Machine.wordOf 0x02 (Machine.codeOfKind k) 0 0
  | .crReturn k => Machine.wordOf 0x03 (Machine.codeOfKind k) 0 0
  | .crRead k => Machine.wordOf 0x04 (Machine.codeOfKind k) 0 0
  | .tgAllocate r => Machine.wordOf 0x08 0 r 0
  | .tgResolve t => Machine.wordOf 0x09 0 0 t
  | .tgRelease t => Machine.wordOf 0x0A 0 0 t
  | .dfEnqueue x n _ => Machine.wordOf 0x10 0 x n
  | .dfDrain x n => Machine.wordOf 0x11 0 x n
  | .dfStream k x => Machine.wordOf 0x12 (Machine.codeOfKind (Machine.kindOfData k)) x 0
  | .dfCount x => Machine.wordOf 0x13 0 x 0
  | .btDrive p => Machine.wordOf 0x18 (Machine.codeOfSignal p.signal) 0 0
  | .btRead s => Machine.wordOf 0x19 (Machine.codeOfSignal s) 0 0
  | .prRdMem _ _ _ => 0x28
  | .prWrMem _ _ _ => 0x86
  | .configRead _ _ _ => 0xE0
  | .configWrite _ _ _ => 0xE1

/-- The data operand beside the word (R120): the lane the operation reads, every other lane zero. -/
def encodeOperand : Instr → Operand
  | .dfEnqueue _ _ data => { Operand.zero with beats := data }
  | .btDrive (.cmd p) => { Operand.zero with cmd := p }
  | .btDrive (.cmdData p) => { Operand.zero with data := p }
  | .btDrive (.resp p) => { Operand.zero with resp := p }
  | .btDrive (.respData p) => { Operand.zero with data := p }
  | _ => Operand.zero

/-- What spells an instruction: a request, a command unit or a configuration unit with the default opcodes of R110 and every
field the block does not read zero. -/
def encode (i : Instr) : Presented :=
  match i with
  | .prRdMem ea tag pl => .command { CmdRec.zero with opcode := 0x28, ea := ea, tag := tag, pl := pl }
  | .prWrMem ea tag pl => .command { CmdRec.zero with opcode := 0x86, ea := ea, tag := tag, pl := pl }
  | .configRead pa tag pl => .config { opcode := 0xE0, pa := pa, tag := tag, pl := pl }
  | .configWrite pa tag pl => .config { opcode := 0xE1, pa := pa, tag := tag, pl := pl }
  | _ => .request { word := encodeWord i, operand := encodeOperand i }

/-! ### Pseudo-instructions (R128) -/

/-- `cr.init KIND, n`. -/
def crInit (k : CreditKind) (n : BitVec 8) : List Instr := [.crNegotiate k n n]

/-- `cr.bringup n0, n1, n2, n3`. -/
def crBringup (n0 n1 n2 n3 : BitVec 8) : List Instr :=
  [.crNegotiate .cmd n0 n0, .crNegotiate .cmdData n1 n1, .crNegotiate .resp n2 n2, .crNegotiate .respData n3 n3]

/-! ### Assembler syntax (R127) -/

/-- The assembler name of a credit kind (R104). -/
def kindName : CreditKind → String
  | .cmd => "cmd"
  | .cmdData => "cmd_data"
  | .resp => "resp"
  | .respData => "resp_data"

/-- The assembler name of a signal (R105). -/
def signalName : Signal → String
  | .cmdV => "cmd_v"
  | .cmdDataV => "cmd_data_v"
  | .respV => "resp_v"
  | .respDataV => "resp_data_v"

/-- The assembler line of a request-port operation, without its data operand; inbound commands have none (R127). -/
def assemblerLine : Instr → Option String
  | .nop => some "nop"
  | .crNegotiate k l p =>
      some ("cr.negotiate " ++ kindName k ++ ", " ++ toString l.toNat ++ ", " ++ toString p.toNat)
  | .crTryIssue k => some ("cr.try " ++ kindName k)
  | .crReturn k => some ("cr.return " ++ kindName k)
  | .crRead k => some ("cr.read " ++ kindName k)
  | .tgAllocate r => some ("tg.alloc " ++ toString r.toNat)
  | .tgResolve t => some ("tg.resolve " ++ toString t.toNat)
  | .tgRelease t => some ("tg.release " ++ toString t.toNat)
  | .dfEnqueue x n _ => some ("df.enqueue " ++ toString x.toNat ++ ", " ++ toString n.toNat)
  | .dfDrain x n => some ("df.drain " ++ toString x.toNat ++ ", " ++ toString n.toNat)
  | .dfStream k x => some ("df.stream " ++ kindName (Machine.kindOfData k) ++ ", " ++ toString x.toNat)
  | .dfCount x => some ("df.count " ++ toString x.toNat)
  | .btDrive p => some ("bt.drive " ++ signalName p.signal)
  | .btRead s => some ("bt.read " ++ signalName s)
  | .prRdMem _ _ _ => none
  | .prWrMem _ _ _ => none
  | .configRead _ _ _ => none
  | .configWrite _ _ _ => none

/-! ### A word of the opcode table -/

/-- The request a 32-bit table word presents, its data operand all zero (log 12). -/
def tableRequest (w : Nat) : Request :=
  let word := BitVec.ofNat 32 w
  { word := word, operand := { Operand.zero with beats := List.replicate (Machine.fieldB word).toNat zeroBeat } }

/-- The command unit an 8-bit table word presents, every field but the opcode zero (log 12). -/
def tableCommand (w : Nat) : CmdRec := { CmdRec.zero with opcode := BitVec.ofNat 8 w }

/-- The configuration unit an 8-bit table word presents, every field but the opcode zero (log 12). -/
def tableConfig (w : Nat) : CfgRec := { CfgRec.zero with opcode := BitVec.ofNat 8 w }

/-- Whether a table word is an inbound opcode of the configuration interface rather than of the command interface. -/
def tableIsConfig (c : Config) (w : Nat) : Bool :=
  match Machine.classify c (BitVec.ofNat 8 w) with
  | .cfgRead => true
  | .cfgWrite => true
  | .partialRead => false
  | .partialWrite => false
  | .other => false

/-- What a table word presents: 8 bits are an inbound opcode, more are a REQ32 word (log 12). -/
def tablePresented (c : Config) (nbits w : Nat) : Presented :=
  if nbits ≤ 8 then (if tableIsConfig c w then .config (tableConfig w) else .command (tableCommand w))
  else .request (tableRequest w)

/-- The instruction the decoder reads from a word of the opcode table under the default configuration. -/
def decodeTableWord (nbits w : Nat) : Option Instr :=
  match decode defaultConfig (tablePresented defaultConfig nbits w) with
  | .ok i => some i
  | .error _ => none

end Sys2Proof
end

