-- ==== Sys2Proof/Machine/Store.lean ====
section
/-! DEFINITION. Sparse stores: lists of key and value pairs in one canonical form, keys strictly rising. The external memory,
the register file, the tag registry, the queues and the drained marks are stores. -/

namespace Sys2Proof.Machine

/-- A sparse store over natural keys. A memory is a `Store Byte`, which is a list of `Host.Cell`. -/
abbrev Store (β : Type) := List (Nat × β)

/-- The value listed at a key. -/
def lookup {β : Type} : Store β → Nat → Option β
  | [], _ => none
  | (k', v) :: m, k => if k = k' then some v else lookup m k

/-- List a value at a key, in key order, in the place of what was listed there. -/
def insertAt {β : Type} (k : Nat) (v : β) : Store β → Store β
  | [] => [(k, v)]
  | (k', v') :: m =>
    if k < k' then (k, v) :: (k', v') :: m
    else if k = k' then (k, v) :: m
    else (k', v') :: insertAt k v m

/-- Take a key off the list. -/
def removeAt {β : Type} (k : Nat) : Store β → Store β
  | [] => []
  | (k', v') :: m => if k = k' then m else (k', v') :: removeAt k m

/-- Whether every key is greater than `k` and they rise strictly. -/
def risesFrom {β : Type} : Option Nat → Store β → Bool
  | _, [] => true
  | none, (k, _) :: m => risesFrom (some k) m
  | some j, (k, _) :: m => decide (j < k) && risesFrom (some k) m

/-- The canonical form: keys strictly rising. -/
def Store.sorted {β : Type} (m : Store β) : Bool := risesFrom none m

/-- Every key below a bound. -/
def Store.below {β : Type} (n : Nat) (m : Store β) : Bool := m.all fun e => decide (e.1 < n)

end Sys2Proof.Machine
end

