-- ==== Sys2Proof/Machine/State.lean ====
section
/-! DEFINITION. The state of the block (10_state.md R30 to R60), with what a step also needs: the configuration, the
environment's memory and registers, the inputs and the outputs of a tick (47_tick.md R361, R376). All plain data. -/

namespace Sys2Proof.Machine

/-! ### Faults of the spec and their diagnostics (60_exceptions.md R401 to R403) -/

/-- The fault kinds of R401. In the block a fault is a diagnostic and a result, never the end of a run. -/
inductive FaultKind where
  | transportUnavailable | protocolVersionMismatch | transportError
  | tagPoolExhausted | unknownTag
  | underrunWarning | excessCreditReturn | xzViolation | renegotiateIgnored
  | dataPhaseTimeout | creditStarvation
  | concurrentFragmentConflict | fifoOverflow | badLength | beatBoundaryCross | sequencerOverrun | unsupportedCommand
  | unexpectedData | badDataIndicator | illegalRequest
deriving DecidableEq, Repr

/-- The operation names used in records (R403). -/
inductive OpName where
  | crNegotiate | crReturn | tgAllocate | tgResolve | tgRelease | dfEnqueue | dfDrain | dfStream
  | req | route | seq | prRdMem | prWrMem | configRead | configWrite | ret | xz | transport
deriving DecidableEq, Repr

/-- The diagnostic record of R402. -/
structure Diag where
  cycle : BitVec 64
  op : OpName
  kind : FaultKind
deriving DecidableEq, Repr

/-- The transport fault kinds the environment may report (R361). -/
inductive TransportFault where
  | unavailable | versionMismatch | error
deriving DecidableEq, Repr

/-! ### Credit pools, machines, lifecycle, signals (10_state.md R34, R42 to R49) -/

/-- One credit pool (R34). -/
structure Pool where
  initial : BitVec 8
  avail : BitVec 8
  negotiated : Bool
deriving DecidableEq, Repr

/-- The states of the partial-access machine (R42). -/
inductive PmState where
  | idle | awaitingData | responsePending
deriving DecidableEq, Repr

/-- Reading or writing, of a latched command or a held response (R43, R45). -/
inductive AccessDir where
  | read | write
deriving DecidableEq, Repr

/-- The latched command of the partial-access machine (R43). -/
structure PmCmd where
  dir : AccessDir
  addr : BitVec 64
  tag : BitVec 16
  pl : BitVec 3
  len : Nat
  off : BitVec 6
deriving DecidableEq, Repr

/-- The partial-access machine (R42, R43). -/
structure Pm where
  state : PmState
  cmd : PmCmd
  beat : Beat
  wait : Nat
  retry : Nat
deriving DecidableEq, Repr

/-- The states of the configuration-access machine (R44). -/
inductive CmState where
  | idle | awaitingConfigData
deriving DecidableEq, Repr

/-- The latched command of the configuration-access machine (R45). -/
structure CmCmd where
  dir : AccessDir
  pa : BitVec 64
  tag : BitVec 16
  pl : BitVec 3
  len : Nat
deriving DecidableEq, Repr

/-- A configuration response waiting for credits: a response record and, for a read, its beat (R45). -/
structure CmResp where
  record : RespRec
  beat : Option Beat
deriving DecidableEq, Repr

/-- The configuration-access machine (R44, R45). -/
structure Cm where
  state : CmState
  cmd : CmCmd
  resp : Option CmResp
  wait : Nat
  retry : Nat
deriving DecidableEq, Repr

/-- The two machines that may wait for a data beat (R46). -/
inductive MachineId where
  | pm | cm
deriving DecidableEq, Repr

/-- The lifecycle states (R47). -/
inductive Lifecycle where
  | idle | ready | running | resetting | drainingResponses | halted
deriving DecidableEq, Repr

/-- One outbound signal: remaining pulse cycles and the fields driven with it (R49). -/
structure Sig (α : Type) where
  count : Nat
  payload : Iface α
deriving DecidableEq, Repr

/-- The four outbound signals (R49), each with its interface's record. -/
structure Sigs where
  cmd : Sig CmdRec
  cmdData : Sig DataRec
  resp : Sig RespRec
  respData : Sig DataRec
deriving DecidableEq, Repr

/-! ### Inputs of a tick (47_tick.md R361) -/

/-- The command a context offers to the arbiter (R312). -/
structure CmdParams where
  opcode : BitVec 8
  ea : BitVec 64
  dl : BitVec 2
  pl : BitVec 3
deriving DecidableEq, Repr

/-- Every field zero. -/
def CmdParams.zero : CmdParams := { opcode := 0, ea := 0, dl := 0, pl := 0 }

/-- The X/Z flags, one per inbound interface (R361, R364). -/
structure XzFlags where
  cmd : Bool
  cmdData : Bool
  resp : Bool
  respData : Bool
  cfg : Bool
  ret : Bool
deriving DecidableEq, Repr

/-- The inputs `I.*` of one tick (R361). Per-context bits are bit `c` of a word of 240 bits, the most contexts there can be
(R7); `cmdp` lists the parameters a context offers, all zero where it lists none (log 24). `memPokes` and `regPokes` are the
environment's own changes of its storage since the last tick (R71; log 8). -/
structure TickInput where
  rst : Bool
  disconnect : Bool
  tfault : Option TransportFault
  cmd : Iface CmdRec
  cmdData : Iface DataRec
  resp : Iface RespRec
  respData : Iface DataRec
  cfg : Iface CfgRec
  ret : Four Bool
  xz : XzFlags
  req : List Request
  pad : Beat
  draw : List Nat
  enable : Bool
  resetCond : Bool
  ctrlResetDone : Bool
  drainReq : Bool
  ctxActive : BitVec 240
  ctxDone : BitVec 240
  ready : BitVec 240
  cmdp : List (Nat × CmdParams)
  memPokes : List (BitVec 64 × Byte)
  regPokes : List (Word × Word)
deriving DecidableEq, Repr

/-- The inputs of a tick in which the environment presents nothing: every input 0, none or empty, the filler free (log 1, log 9). -/
def TickInput.idle : TickInput :=
  { rst := false
    disconnect := false
    tfault := none
    cmd := ⟨false, .zero⟩
    cmdData := ⟨false, .zero⟩
    resp := ⟨false, .zero⟩
    respData := ⟨false, .zero⟩
    cfg := ⟨false, .zero⟩
    ret := ⟨false, false, false, false⟩
    xz := ⟨false, false, false, false, false, false⟩
    req := []
    pad := Config.freePad
    draw := []
    enable := false
    resetCond := false
    ctrlResetDone := false
    drainReq := false
    ctxActive := 0
    ctxDone := 0
    ready := 0
    cmdp := []
    memPokes := []
    regPokes := [] }

/-! ### Outputs of a tick (47_tick.md R372, R376) -/

/-- The result of one request (30_encoding.md R120). `value` is `VALUE` of a number, `packets` is `VALUE` of a list of packets. -/
inductive Result where
  | ok | granted | denied | busy | noCredit | empty
  | value (v : Nat)
  | packets (ps : List Beat)
  | fault (k : FaultKind)
deriving DecidableEq, Repr

/-- A routed response (41_tag_registry.md R175). -/
structure RoutedResp where
  requester : BitVec 8
  opcode : BitVec 8
  tag : BitVec 16
  code : BitVec 4
  dl : BitVec 2
  dp : BitVec 2
deriving DecidableEq, Repr

/-- The units driven in the tick, one at most per signal: `O.ev` (46_bus_timing.md R341, R342). -/
structure Events where
  cmd : Option CmdRec
  cmdData : Option DataRec
  resp : Option RespRec
  respData : Option DataRec
deriving DecidableEq, Repr

/-- The held payloads `O.hold` (46_bus_timing.md R344). -/
structure Holds where
  cmd : Iface CmdRec
  cmdData : Iface DataRec
  resp : Iface RespRec
  respData : Iface DataRec
deriving DecidableEq, Repr

/-- The configuration-response interface, which the block does not drive (R103, 43_command_sequencer.md R252; log 16). -/
structure CfgResp where
  valid : Bool
  payload : Nat
  ack : Nat
deriving DecidableEq, Repr

/-- The outbound snapshot (R372). -/
structure Snapshot where
  cmd : Iface CmdRec
  cmdData : Iface DataRec
  resp : Iface RespRec
  respData : Iface DataRec
  cfgResp : CfgResp
  ret : Four Bool
  rdReqCount : BitVec 2
  level : Four Bool
  hold : Holds
deriving DecidableEq, Repr

/-- One access the block made to the environment's storage (20_memory.md R73, R74). -/
inductive EnvAccess where
  | memRead (addr : BitVec 64) (n : Nat)
  | memWrite (addr : BitVec 64) (bytes : List Byte)
  | regRead (off : Word)
  | regWrite (off : Word) (v : Word)
deriving DecidableEq, Repr

/-- The outputs `O.*` of a tick (R376), with the per-tick values `O.ev` and `O.rd_req_count` (R362) and the accesses made to the
environment (R73, R74). -/
structure Outputs where
  snap : Option Snapshot
  res : List Result
  respOut : Option RoutedResp
  respDataOut : Option DataRec
  diag : List Diag
  ev : Events
  rdReqCount : Nat
  accesses : List EnvAccess
deriving DecidableEq, Repr

/-- No output. -/
def Outputs.none : Outputs :=
  { snap := .none
    res := []
    respOut := .none
    respDataOut := .none
    diag := []
    ev := ⟨.none, .none, .none, .none⟩
    rdReqCount := 0
    accesses := [] }

/-! ### The state -/

/-- Everything the spec gives the block (10_state.md), the parameters (00_scope.md R7), the environment's storage, and the
inputs and outputs of a tick. -/
structure State where
  cfg : Config
  pools : Four Pool
  tags : Store (BitVec 8)
  fifo : Store (List Beat)
  drained : Store Unit
  pm : Pm
  cm : Cm
  rdq : List MachineId
  lc : Lifecycle
  rot : List Nat
  sigs : Sigs
  cycle : BitVec 64
  diag : List Diag
  closed : Bool
  mem : List Host.Cell
  regs : Store Word
  inp : TickInput
  pending : List TickInput
  out : Outputs
  freeCtr : Nat
deriving DecidableEq, Repr

/-- Why a step stops with a fault: never. Every fault the spec describes is a diagnostic record after which the block goes on or
closes its session (60_exceptions.md R400, R405), so no constructor is needed and no step of this model faults (safe). -/
inductive Fault where
deriving DecidableEq, Repr

/-- Why a step is refused. -/
inductive Refusal where
  /-- Raised by exec's arm of an instruction that has no meaning yet (safe). No arm uses it. -/
  | notModelled (mnemonic : String)
  /-- Raised by step on a configuration that 00_scope.md R8 refuses: the spec has no model for it (safe). -/
  | invalidConfiguration
deriving DecidableEq, Repr

/-! ### Reset (10_state.md R60, 70_reset_and_hazards.md R440) -/

/-- A pool before negotiation (R34). -/
def Pool.reset : Pool := { initial := 0, avail := 0, negotiated := false }

/-- The partial-access machine after reset (R42, R43). `cmd` and `beat` are unspecified by the spec and zero here
[DESIGN CHOICE, log 6]. -/
def Pm.reset : Pm :=
  { state := .idle, cmd := { dir := .read, addr := 0, tag := 0, pl := 0, len := 0, off := 0 }, beat := zeroBeat, wait := 0,
    retry := 0 }

/-- The configuration-access machine after reset (R44, R45). `cmd` is unspecified by the spec and zero here
[DESIGN CHOICE, log 6]. -/
def Cm.reset : Cm :=
  { state := .idle, cmd := { dir := .read, pa := 0, tag := 0, pl := 0, len := 0 }, resp := none, wait := 0, retry := 0 }

/-- Every signal idle with a zero payload (R49). -/
def Sigs.reset : Sigs :=
  { cmd := ⟨0, ⟨false, .zero⟩⟩, cmdData := ⟨0, ⟨false, .zero⟩⟩, resp := ⟨0, ⟨false, .zero⟩⟩,
    respData := ⟨0, ⟨false, .zero⟩⟩ }

/-- The state before the first tick (R441): every element of R60 at its reset value, nothing known of the environment's storage
(log 7), no input presented and no output made. -/
def State.reset : State :=
  { cfg := defaultConfig
    pools := ⟨.reset, .reset, .reset, .reset⟩
    tags := []
    fifo := []
    drained := []
    pm := .reset
    cm := .reset
    rdq := []
    lc := .idle
    rot := []
    sigs := .reset
    cycle := 0
    diag := []
    closed := false
    mem := []
    regs := []
    inp := .idle
    pending := []
    out := .none
    freeCtr := 0 }

end Sys2Proof.Machine
end

