-- ==== Sys2Proof/Machine/Flags.lean ====
section
/-! DEFINITION. The block has no flags register (10_state.md R32). What stands in its place: the status words of the status reads,
the emulated levels, and the codes of states, fault kinds, fault classes and operation names. -/

namespace Sys2Proof.Machine

/-! ### Status words (40_credit_manager.md R145, 46_bus_timing.md R346) -/

/-- The status word of `CR.READ`: bit 16 `negotiated`, bits 15:8 `initial`, bits 7:0 `avail` (R145). -/
def creditStatus (p : Pool) : Word := (BitVec.ofBool p.negotiated ++ p.initial ++ p.avail).setWidth 32

/-- The status word of `BT.READ` for a remaining count: bit 8 the level, bits 7:0 the count (R346). -/
def signalStatus (count : Nat) : Word := (BitVec.ofBool (decide (0 < count)) ++ BitVec.ofNat 8 count).setWidth 32

/-- The remaining pulse cycles of a signal (10_state.md R49). -/
def sigCount (g : Sigs) : Signal → Nat
  | .cmdV => g.cmd.count
  | .cmdDataV => g.cmdData.count
  | .respV => g.resp.count
  | .respDataV => g.respData.count

/-- The emulated level of a signal (10_state.md R50). -/
def level (g : Sigs) (s : Signal) : Bool := decide (0 < sigCount g s)

/-! ### State codes (30_encoding.md R106) -/

/-- The code of a partial-access machine state (R106). -/
def pmStateCode : PmState → Nat
  | .idle => 0
  | .awaitingData => 1
  | .responsePending => 2

/-- The code of a configuration-access machine state (R106). -/
def cmStateCode : CmState → Nat
  | .idle => 0
  | .awaitingConfigData => 1

/-- The code of a lifecycle state (R106). -/
def lifecycleCode : Lifecycle → Nat
  | .idle => 0
  | .ready => 1
  | .running => 2
  | .resetting => 3
  | .drainingResponses => 4
  | .halted => 5

/-! ### Fault kinds (60_exceptions.md R400, R401, R403) -/

/-- The fault classes of R400. -/
inductive FaultClass where
  | session | irregularity | correlation | timeout
deriving DecidableEq, Repr

/-- The code of a fault kind (R401). No rule of the block reads it. -/
def faultCode : FaultKind → BitVec 8
  | .transportUnavailable => 0x01
  | .protocolVersionMismatch => 0x02
  | .transportError => 0x03
  | .tagPoolExhausted => 0x10
  | .unknownTag => 0x11
  | .underrunWarning => 0x20
  | .excessCreditReturn => 0x21
  | .xzViolation => 0x22
  | .renegotiateIgnored => 0x23
  | .dataPhaseTimeout => 0x30
  | .creditStarvation => 0x31
  | .concurrentFragmentConflict => 0x40
  | .fifoOverflow => 0x41
  | .badLength => 0x42
  | .beatBoundaryCross => 0x43
  | .sequencerOverrun => 0x44
  | .unsupportedCommand => 0x45
  | .unexpectedData => 0x46
  | .badDataIndicator => 0x47
  | .illegalRequest => 0x48

/-- The class of a fault kind (R401). -/
def faultClass : FaultKind → FaultClass
  | .transportUnavailable => .session
  | .protocolVersionMismatch => .session
  | .transportError => .session
  | .tagPoolExhausted => .correlation
  | .unknownTag => .correlation
  | .underrunWarning => .irregularity
  | .excessCreditReturn => .irregularity
  | .xzViolation => .irregularity
  | .renegotiateIgnored => .irregularity
  | .dataPhaseTimeout => .timeout
  | .creditStarvation => .timeout
  | .concurrentFragmentConflict => .correlation
  | .fifoOverflow => .correlation
  | .badLength => .correlation
  | .beatBoundaryCross => .correlation
  | .sequencerOverrun => .correlation
  | .unsupportedCommand => .correlation
  | .unexpectedData => .irregularity
  | .badDataIndicator => .correlation
  | .illegalRequest => .correlation

/-- The fault kind of a transport fault (R361, R401). -/
def transportKind : TransportFault → FaultKind
  | .unavailable => .transportUnavailable
  | .versionMismatch => .protocolVersionMismatch
  | .error => .transportError

/-- The name of an operation in a record (R403). -/
def opText : OpName → String
  | .crNegotiate => "CR.NEGOTIATE"
  | .crReturn => "CR.RETURN"
  | .tgAllocate => "TG.ALLOCATE"
  | .tgResolve => "TG.RESOLVE"
  | .tgRelease => "TG.RELEASE"
  | .dfEnqueue => "DF.ENQUEUE"
  | .dfDrain => "DF.DRAIN"
  | .dfStream => "DF.STREAM"
  | .req => "REQ"
  | .route => "ROUTE"
  | .seq => "SEQ"
  | .prRdMem => "PR_RD_MEM"
  | .prWrMem => "PR_WR_MEM"
  | .configRead => "CONFIG_READ"
  | .configWrite => "CONFIG_WRITE"
  | .ret => "RET"
  | .xz => "XZ"
  | .transport => "TRANSPORT"

/-- The operation name of a partial command (R403). -/
def pmOp : AccessDir → OpName
  | .read => .prRdMem
  | .write => .prWrMem

/-- The operation name of a configuration command (R403). -/
def cmOp : AccessDir → OpName
  | .read => .configRead
  | .write => .configWrite

end Sys2Proof.Machine
end

