-- ==== Sys2Proof/Machine/Ops.lean ====
section
/-! DEFINITION. The named operations the meanings share: raising and logging a fault, ending a session and starting one, credits,
tags, queues, drives, the environment's storage and data requests. -/

namespace Sys2Proof.Machine

/-- Run `f` on the state an outcome gives; a fault or a refusal ends there. -/
def andThen (o : Host.Outcome State Fault Refusal) (f : State → Host.Outcome State Fault Refusal) :
    Host.Outcome State Fault Refusal :=
  match o with
  | .next s => f s
  | .fault r => .fault r
  | .refused r => .refused r

/-- Whether a configuration has a model (00_scope.md R8). -/
def configOk (c : Config) : Bool :=
  decide (0 < c.pulseW) && decide (0 < c.fifoDepth) && decide (0 < c.dataTimeout) && decide (c.nCtx ≤ 240)
    && decide (c.nXfer ≤ 256)

/-! ### Faults: taking one, and the result of a request (00_scope.md R12, 60_exceptions.md R402, R404) -/

/-- `log F(op)`: append the record to `S.diag` and to the tick's `O.diag` (R402). -/
def logFault (k : FaultKind) (op : OpName) (s : State) : State :=
  let r : Diag := { cycle := s.cycle, op := op, kind := k }
  { s with diag := s.diag ++ [r], out := { s.out with diag := s.out.diag ++ [r] } }

/-- `return r`: the result of a request, appended to `O.res` (47_tick.md R366). -/
def giveResult (r : Result) (s : State) : State := { s with out := { s.out with res := s.out.res ++ [r] } }

/-- A request that ends with a result. -/
def finish (r : Result) (s : State) : Host.Outcome State Fault Refusal := .next (giveResult r s)

/-- `raise F(op)` on the request port: the record, the result `FAULT(F)` and no other change (R404). -/
def raiseFault (k : FaultKind) (op : OpName) (s : State) : Host.Outcome State Fault Refusal :=
  finish (.fault k) (logFault k op s)

/-- `raise IllegalRequest(REQ)` (30_encoding.md R123, 47_tick.md R366). -/
def raiseIllegal (s : State) : Host.Outcome State Fault Refusal := raiseFault .illegalRequest .req s

/-! ### Credits (40_credit_manager.md R140 to R143) -/

/-- Whether `try_issue(k)` would give `TRUE` (R142). -/
def hasCredit (k : CreditKind) (s : State) : Bool := decide (0 < (s.pools.get k).avail.toNat)

/-- The decrement of `try_issue(k)` (R142), done only where there is a credit. -/
def takeCredit (k : CreditKind) (s : State) : State :=
  let p := s.pools.get k
  { s with pools := s.pools.set k { p with avail := p.avail - 1 } }

/-- Whether a return to a pool is within its initial count (R143). -/
def canReturn (k : CreditKind) (s : State) : Bool :=
  decide ((s.pools.get k).avail.toNat < (s.pools.get k).initial.toNat)

/-- The increment of `return_credit(k)` (R143), done only where the pool is not full. -/
def addCredit (k : CreditKind) (s : State) : State :=
  let p := s.pools.get k
  { s with pools := s.pools.set k { p with avail := p.avail + 1 } }

/-- The initial count a negotiation gives (R140). -/
def negotiatedCount (c : Config) (localInit peerInit : BitVec 8) : BitVec 8 :=
  match c.negotiateMode with
  | .min => if localInit.toNat ≤ peerInit.toNat then localInit else peerInit
  | .peer => peerInit

/-- Set a pool as `negotiate` does (R140). -/
def setPool (k : CreditKind) (n : BitVec 8) (s : State) : State :=
  { s with pools := s.pools.set k { initial := n, avail := n, negotiated := true } }

/-! ### Tags (41_tag_registry.md R170 to R173) -/

/-- The tag pool size `P` (10_state.md R37). -/
def tagPool (s : State) : Nat := s.pools.cmd.initial.toNat

/-- The number of bound tags `S.live` (10_state.md R37). -/
def liveTags (s : State) : Nat := s.tags.length

/-- The free tags among `0 .. P-1`, ascending (R170). -/
def freeTags (s : State) : List Nat := (List.range (tagPool s)).filter fun t => (lookup s.tags t).isNone

/-- `S.tags[t] <- some r`. -/
def bindTag (t : Nat) (r : BitVec 8) (s : State) : State := { s with tags := insertAt t r s.tags }

/-- `S.tags[t] <- none`. -/
def unbindTag (t : Nat) (s : State) : State := { s with tags := removeAt t s.tags }

/-- The next draw of `I.draw`, a free value where the input lists no more (47_tick.md R361; log 9). -/
def nextDraw (s : State) : Nat × State :=
  match s.inp.draw with
  | d :: ds => (d, { s with inp := { s.inp with draw := ds } })
  | [] => (Config.freeDraw s.freeCtr, { s with freeCtr := s.freeCtr + 1 })

/-- `allocate(r)` (R170): the tag and the state with it bound, or none where no tag is free. -/
def allocate (r : BitVec 8) (s : State) : Option (Nat × State) :=
  match freeTags s with
  | [] => none
  | t :: ts =>
    match s.cfg.allocPolicy with
    | .lowest => some (t, bindTag t r s)
    | .any =>
      let d := nextDraw s
      let u := (t :: ts).getD (d.1 % (ts.length + 1)) t
      some (u, bindTag u r d.2)

/-! ### Queues (42_fragmentation_fifo.md R200 to R203) -/

/-- The queue `S.fifo[x]` (10_state.md R39). -/
def queueOf (s : State) (x : BitVec 8) : List Beat := (lookup s.fifo x.toNat).getD []

/-- `S.fifo[x] <- q`; an empty queue is not listed. -/
def setQueue (x : BitVec 8) (q : List Beat) (s : State) : State :=
  { s with fifo := if q.isEmpty then removeAt x.toNat s.fifo else insertAt x.toNat q s.fifo }

/-- Whether `S.drained[x]` is set (10_state.md R41). -/
def isDrained (s : State) (x : BitVec 8) : Bool := (lookup s.drained x.toNat).isSome

/-- `S.drained[x] <- 1`. -/
def markDrained (x : BitVec 8) (s : State) : State := { s with drained := insertAt x.toNat () s.drained }

/-! ### Signals (46_bus_timing.md R341, R342) -/

/-- Whether `O.ev[s] = none`: the signal is not yet driven in this tick (R341). -/
def notDriven (e : Events) : Signal → Bool
  | .cmdV => e.cmd.isNone
  | .cmdDataV => e.cmdData.isNone
  | .respV => e.resp.isNone
  | .respDataV => e.respData.isNone

/-- `can_drive(s)` (R341). -/
def canDrive (sig : Signal) (s : State) : Bool :=
  notDriven s.out.ev sig && (decide (sigCount s.sigs sig = 0) || decide (s.cfg.pulseRedrive = .reload))

/-- `drive(s, p)` (R342): start the pulse, hold the payload with `valid = 1`, and send the unit in this tick's snapshot. -/
def drive (p : DrivePayload) (s : State) : State :=
  match p with
  | .cmd r => { s with
      sigs := { s.sigs with cmd := { count := s.cfg.pulseW, payload := ⟨true, r⟩ } }
      out := { s.out with ev := { s.out.ev with cmd := some r } } }
  | .cmdData r => { s with
      sigs := { s.sigs with cmdData := { count := s.cfg.pulseW, payload := ⟨true, r⟩ } }
      out := { s.out with ev := { s.out.ev with cmdData := some r } } }
  | .resp r => { s with
      sigs := { s.sigs with resp := { count := s.cfg.pulseW, payload := ⟨true, r⟩ } }
      out := { s.out with ev := { s.out.ev with resp := some r } } }
  | .respData r => { s with
      sigs := { s.sigs with respData := { count := s.cfg.pulseW, payload := ⟨true, r⟩ } }
      out := { s.out with ev := { s.out.ev with respData := some r } } }

/-! ### The environment's storage (20_memory.md R71, R73, R74) -/

/-- What the external memory holds at an address: the byte listed, or the environment's own byte, a free value (log 7). -/
def byteAt (m : List Host.Cell) (a : BitVec 64) : Byte := (lookup m a.toNat).getD (Config.envByte a.toNat)

/-- What the register file holds at an offset: the word listed, or the environment's own word, a free value (log 7). -/
def wordAt (g : Store Word) (off : Word) : Word := (lookup g off.toNat).getD (Config.envReg off.toNat)

/-- The bytes at `addr .. addr+n-1`, lowest address first (R73). -/
def bytesAt (m : List Host.Cell) (addr : BitVec 64) (n : Nat) : List Byte :=
  (List.range n).map fun i => byteAt m (addr + BitVec.ofNat 64 i)

/-- The memory with bytes written from an address upward (R73). -/
def writeBytes (addr : BitVec 64) : List Byte → List Host.Cell → List Host.Cell
  | [], m => m
  | b :: bs, m => writeBytes (addr + 1) bs (insertAt addr.toNat b m)

/-- Record an access to the environment among the tick's outputs (R376). -/
def noteAccess (a : EnvAccess) (s : State) : State := { s with out := { s.out with accesses := s.out.accesses ++ [a] } }

/-- The access of `MemRead(addr, n)`; its bytes are `bytesAt` (R73). -/
def memRead (addr : BitVec 64) (n : Nat) (s : State) : State := noteAccess (.memRead addr n) s

/-- `MemWrite(addr, n, bytes)` (R73). -/
def memWrite (addr : BitVec 64) (bytes : List Byte) (s : State) : State :=
  noteAccess (.memWrite addr bytes) { s with mem := writeBytes addr bytes s.mem }

/-- The access of `RegRead(off)`; its value is `wordAt` (R74). -/
def regRead (off : Word) (s : State) : State := noteAccess (.regRead off) s

/-- `RegWrite(off, v)` (R74). -/
def regWrite (off : Word) (v : Word) (s : State) : State :=
  noteAccess (.regWrite off v) { s with regs := insertAt off.toNat v s.regs }

/-- The environment's own changes of its storage between two ticks (R71; log 8). -/
def applyPokes (s : State) : State :=
  { s with
    mem := s.inp.memPokes.foldl (fun m e => insertAt e.1.toNat e.2 m) s.mem
    regs := s.inp.regPokes.foldl (fun g e => insertAt e.1.toNat e.2 g) s.regs }

/-- A memory in canonical form inside the 64-bit address space (20_memory.md R70; log 7). -/
def Memory.wf (m : List Host.Cell) : Bool := Store.sorted m && Store.below (2 ^ 64) m

/-- A register file in canonical form inside the 32-bit offset space (R70; log 7). -/
def registersWf (g : Store Word) : Bool := Store.sorted g && Store.below (2 ^ 32) g

/-! ### Data requests (43_command_sequencer.md R237) -/

/-- `request_data(m)` (R237). -/
def requestData (m : MachineId) (s : State) : State :=
  { s with rdq := s.rdq ++ [m], out := { s.out with rdReqCount := s.out.rdReqCount + 1 } }

/-- `S.rdq <- remove(S.rdq, m)` (00_scope.md R13). -/
def cancelRequest (m : MachineId) (s : State) : State := { s with rdq := s.rdq.filter fun e => decide (e ≠ m) }

/-! ### Sessions (47_tick.md R363, 70_reset_and_hazards.md R440) -/

/-- The end of a session by a disconnect or a transport fault (R363): the fault, if it is one, is logged; tags, queues and data
requests are released; the session is closed. -/
def closeSession (s : State) : State :=
  let s := match s.inp.tfault with
    | some f => logFault (transportKind f) .transport s
    | none => s
  { s with tags := [], fifo := [], rdq := [], closed := true }

/-- A new session (R440): every element of the block's state at its reset value, the configuration, the environment's storage and
the model's own input queue and counter kept. -/
def newSession (s : State) : State :=
  { State.reset with
    cfg := s.cfg, mem := s.mem, regs := s.regs, inp := s.inp, pending := s.pending, freeCtr := s.freeCtr }

end Sys2Proof.Machine
end

