-- ==== Sys2Proof/Machine/Lifecycle.lean ====
section
/-! DEFINITION. The TLX lifecycle state machine (44_lifecycle_fsm.md R280 to R289). -/

namespace Sys2Proof.Machine

/-- The active set `A`, ascending: the contexts `< N_CTX` whose active bit is 1 (R280, 45_command_arbiter.md R310). -/
def activeSet (c : Config) (i : TickInput) : List Nat := (List.range c.nCtx).filter fun n => i.ctxActive.getLsbD n

/-- Whether every active context reports completion (R287). -/
def allDone (c : Config) (i : TickInput) : Bool := (activeSet c i).all fun n => i.ctxDone.getLsbD n

/-- The next lifecycle state (R281 to R289). -/
def nextLifecycle (c : Config) (i : TickInput) : Lifecycle → Lifecycle
  | .idle => if i.enable then .ready else .idle
  | .ready => if (activeSet c i).isEmpty then .ready else .running
  | .running => if i.resetCond then .resetting else if i.drainReq then .drainingResponses else .running
  | .resetting => if i.ctrlResetDone then .ready else .resetting
  | .drainingResponses => if allDone c i then .halted else .drainingResponses
  | .halted => .halted

/-- Phase 7 (R281). -/
def lifecycleStep (s : State) : State := { s with lc := nextLifecycle s.cfg s.inp s.lc }

end Sys2Proof.Machine
end

