-- ==== Sys2Proof/Machine/Arbiter.lean ====
section
/-! DEFINITION. The round-robin command arbiter (45_command_arbiter.md R310 to R319). -/

namespace Sys2Proof.Machine

/-- The rotation after the membership update (R310): inactive contexts leave, newcomers join at the back in ascending order. -/
def updatedRotation (active rot : List Nat) : List Nat :=
  rot.filter (fun c => decide (c ∈ active)) ++ active.filter (fun c => decide (c ∉ rot))

/-- The membership update (R310). -/
def updateMembership (s : State) : State := { s with rot := updatedRotation (activeSet s.cfg s.inp) s.rot }

/-- The candidate: the first context of the rotation that is ready (R314). -/
def candidate (s : State) : Option Nat := s.rot.find? fun c => s.inp.ready.getLsbD c

/-- The parameters context `c` offers, all zero where the inputs list none (R312; log 24). -/
def offeredParams (i : TickInput) (c : Nat) : CmdParams :=
  match i.cmdp.find? (fun e => e.1 == c) with
  | some e => e.2
  | none => .zero

/-- The outbound command of a grant (R316): every field but these five zero. -/
def outboundCmd (p : CmdParams) (t : Nat) : CmdRec :=
  { CmdRec.zero with opcode := p.opcode, ea := p.ea, dl := p.dl, pl := p.pl, tag := BitVec.ofNat 16 t }

/-- Whether every resource of a grant is there: a command credit, the signal, a free tag (R315). -/
def canGrant (s : State) : Bool := hasCredit .cmd s && canDrive .cmdV s && decide (liveTags s < tagPool s)

/-- Move a context to the back of the rotation (R315). -/
def moveToBack (c : Nat) (rot : List Nat) : List Nat := rot.filter (fun e => decide (e ≠ c)) ++ [c]

/-- The grant to a candidate, all of it or none (R315). -/
def grant (c : Nat) (s : State) : State :=
  if canGrant s then
    match allocate (BitVec.ofNat 8 c) (takeCredit .cmd s) with
    | some (t, s') =>
      let s' := drive (.cmd (outboundCmd (offeredParams s.inp c) t)) s'
      { s' with rot := moveToBack c s'.rot }
    | none => s
  else s

/-- The grant of phase 6, in `Running` only (R313, R314, R315). -/
def grantStep (s : State) : State :=
  match s.lc with
  | .running =>
    match candidate s with
    | some c => grant c s
    | none => s
  | .idle => s
  | .ready => s
  | .resetting => s
  | .drainingResponses => s
  | .halted => s

/-- Phase 6 (47_tick.md R369). -/
def arbiter (s : State) : State := grantStep (updateMembership s)

end Sys2Proof.Machine
end

