-- ==== Sys2Proof/Machine/BusTiming.lean ====
section
/-! DEFINITION. The meanings of `BT.DRIVE` and `BT.READ` (46_bus_timing.md R345, R346), the outbound snapshot (47_tick.md R372) and
the countdown (R374). -/

namespace Sys2Proof.Machine

/-- `BT.DRIVE s, payload` (R345). -/
def execBtDrive (p : DrivePayload) (s : State) : Host.Outcome State Fault Refusal :=
  if canDrive p.signal s then finish .ok (drive p s) else finish .busy s

/-- `BT.READ s` (R346). -/
def execBtRead (sig : Signal) (s : State) : Host.Outcome State Fault Refusal :=
  finish (.value (signalStatus (sigCount s.sigs sig)).toNat) s

/-- An interface of the snapshot: the unit driven this tick, or all fields 0 (R372). -/
def unitOf {α : Type} (zero : α) (e : Option α) : Iface α :=
  match e with
  | some p => ⟨true, p⟩
  | none => ⟨false, zero⟩

/-- The held payload while the level is 1, all fields 0 otherwise (R344, R372). -/
def heldOf {α : Type} (zero : α) (g : Sig α) : Iface α := if 0 < g.count then g.payload else ⟨false, zero⟩

/-- A command interface with its fields masked to their widths (20_memory.md R78). -/
def maskIface (c : Config) (p : Iface CmdRec) : Iface CmdRec := { p with body := maskCmd c p.body }

/-- The outbound snapshot of the tick (R372): units, levels, held payloads, the credits returned to the peer (40_credit_manager.md
R150), the data read-count requests, and the configuration response not driven (43_command_sequencer.md R252). -/
def snapshot (s : State) : Snapshot :=
  { cmd := maskIface s.cfg (unitOf .zero s.out.ev.cmd)
    cmdData := unitOf .zero s.out.ev.cmdData
    resp := unitOf .zero s.out.ev.resp
    respData := unitOf .zero s.out.ev.respData
    cfgResp := { valid := false, payload := 0, ack := 0 }
    ret := ⟨s.inp.cmd.valid, s.inp.cmdData.valid, s.inp.resp.valid, s.inp.respData.valid⟩
    rdReqCount := BitVec.ofNat 2 s.out.rdReqCount
    level := ⟨level s.sigs .cmdV, level s.sigs .cmdDataV, level s.sigs .respV, level s.sigs .respDataV⟩
    hold := ⟨maskIface s.cfg (heldOf .zero s.sigs.cmd), heldOf .zero s.sigs.cmdData, heldOf .zero s.sigs.resp,
      heldOf .zero s.sigs.respData⟩ }

/-- One count down, not below 0 (R374). -/
def countDown {α : Type} (g : Sig α) : Sig α := { g with count := g.count - 1 }

/-- The countdown of every signal (R374). -/
def countDownAll (g : Sigs) : Sigs :=
  { cmd := countDown g.cmd, cmdData := countDown g.cmdData, resp := countDown g.resp, respData := countDown g.respData }

/-- Phase 9: the snapshot, then the countdown, then the cycle increment (R372, R374, R375). -/
def closeTick (s : State) : State :=
  { s with
    out := { s.out with snap := some (snapshot s) }
    sigs := countDownAll s.sigs
    cycle := s.cycle + 1 }

end Sys2Proof.Machine
end

