-- ==== Sys2Proof/Machine/CreditManager.lean ====
section
/-! DEFINITION. The meanings of `NOP` (30_encoding.md R129) and of the credit manager's operations (40_credit_manager.md R140 to
R145), and the inbound credit returns of phase 8 (47_tick.md R371). -/

namespace Sys2Proof.Machine

/-- `NOP` (R129). -/
def execNop (s : State) : Host.Outcome State Fault Refusal := finish .ok s

/-- `CR.NEGOTIATE k, local, peer` (R140). -/
def execCrNegotiate (k : CreditKind) (localInit peerInit : BitVec 8) (s : State) : Host.Outcome State Fault Refusal :=
  if (s.pools.get k).negotiated then raiseFault .renegotiateIgnored .crNegotiate s
  else finish .ok (setPool k (negotiatedCount s.cfg localInit peerInit) s)

/-- `CR.TRY_ISSUE k` (R142): `granted` is `TRUE`, `denied` is `FALSE`. -/
def execCrTryIssue (k : CreditKind) (s : State) : Host.Outcome State Fault Refusal :=
  if hasCredit k s then finish .granted (takeCredit k s) else finish .denied s

/-- `CR.RETURN k` (R143). -/
def execCrReturn (k : CreditKind) (s : State) : Host.Outcome State Fault Refusal :=
  if canReturn k s then finish .ok (addCredit k s) else raiseFault .excessCreditReturn .crReturn s

/-- `CR.READ k` (R145). -/
def execCrRead (k : CreditKind) (s : State) : Host.Outcome State Fault Refusal :=
  finish (.value (creditStatus (s.pools.get k)).toNat) s

/-- One inbound credit-return flag (R371): the body of `return_credit` with a logged fault. -/
def inboundReturn (k : CreditKind) (s : State) : State :=
  if s.inp.ret.get k then
    if canReturn k s then addCredit k s else logFault .excessCreditReturn .ret s
  else s

/-- Phase 8: the four flags in the order of their codes (R371). -/
def creditReturns (s : State) : State :=
  inboundReturn .respData (inboundReturn .resp (inboundReturn .cmdData (inboundReturn .cmd s)))

end Sys2Proof.Machine
end

