-- ==== Sys2Proof/Machine/FragmentFifo.lean ====
section
/-! DEFINITION. The meanings of the data fragmentation FIFO's operations (42_fragmentation_fifo.md R200 to R206). -/

namespace Sys2Proof.Machine

/-- `DF.ENQUEUE x, n, data` (R201): the conflict check first, then the zero count, then the capacity, all or nothing. -/
def execDfEnqueue (x : BitVec 8) (n : BitVec 16) (data : List Beat) (s : State) : Host.Outcome State Fault Refusal :=
  if legalXfer s.cfg x then
    if isDrained s x then raiseFault .concurrentFragmentConflict .dfEnqueue s
    else if n = 0 then finish .ok s
    else if s.cfg.fifoDepth < (queueOf s x).length + n.toNat then raiseFault .fifoOverflow .dfEnqueue s
    else finish .ok (setQueue x (queueOf s x ++ takeBeats n.toNat data) s)
  else raiseIllegal s

/-- Remove the first `m` packets of a queue and mark it drained, where there is one to remove (R202, R203). -/
def dequeue (x : BitVec 8) (m : Nat) (s : State) : State :=
  if 0 < m then markDrained x (setQueue x ((queueOf s x).drop m) s) else s

/-- `DF.DRAIN x, n` (R202): up to `n` packets, and the warning where the queue holds fewer. -/
def execDfDrain (x : BitVec 8) (n : BitVec 16) (s : State) : Host.Outcome State Fault Refusal :=
  if legalXfer s.cfg x then
    let q := queueOf s x
    let m := min n.toNat q.length
    let s' := dequeue x m s
    finish (.packets (q.take m)) (if m < n.toNat then logFault .underrunWarning .dfDrain s' else s')
  else raiseIllegal s

/-- `DF.STREAM k, x` (R205): the head packet as one data beat on the data signal of kind `k`, all or nothing. -/
def execDfStream (k : DataKind) (x : BitVec 8) (s : State) : Host.Outcome State Fault Refusal :=
  if legalXfer s.cfg x then
    match queueOf s x with
    | [] => finish .empty (logFault .underrunWarning .dfStream s)
    | p :: _ =>
      if canDrive (signalOfData k) s then
        if hasCredit (kindOfData k) s then
          finish .ok (drive (dataPayload k { bad := false, data := p }) (dequeue x 1 (takeCredit (kindOfData k) s)))
        else finish .noCredit s
      else finish .busy s
  else raiseIllegal s

/-- `DF.COUNT x` (R206). -/
def execDfCount (x : BitVec 8) (s : State) : Host.Outcome State Fault Refusal :=
  if legalXfer s.cfg x then finish (.value (queueOf s x).length) s else raiseIllegal s

end Sys2Proof.Machine
end

