-- ==== Sys2Proof/Machine/Sequencer.lean ====
section
/-! DEFINITION. The TLX command sequencer (43_command_sequencer.md R230 to R256): the meanings of the four inbound commands, and the
steps of the partial-access and configuration-access machines: emission, data dispatch, data phase and timeout. -/

namespace Sys2Proof.Machine

/-! ### Inbound commands -/

/-- The checks of a partial command in the order busy, length, boundary (R231, R232, R235, 60_exceptions.md R406): its length, or
the fault that refuses it. -/
def partialCheck (ea : BitVec 64) (pl : BitVec 3) (s : State) : Except FaultKind Nat :=
  match s.pm.state with
  | .idle =>
    match partialLen s.cfg pl with
    | some len => if (beatOffset ea).toNat + len ≤ 64 then .ok len else .error .beatBoundaryCross
    | none => .error .badLength
  | .awaitingData => .error .sequencerOverrun
  | .responsePending => .error .sequencerOverrun

/-- The command a partial command latches (10_state.md R43). -/
def partialCmd (dir : AccessDir) (ea : BitVec 64) (tag : BitVec 16) (pl : BitVec 3) (len : Nat) : PmCmd :=
  { dir := dir, addr := ea, tag := tag, pl := pl, len := len, off := beatOffset ea }

/-- `pr_rd_mem` (R233): the memory is read in the tick the command arrives, the bytes outside the window are the filler. -/
def execPrRdMem (ea : BitVec 64) (tag : BitVec 16) (pl : BitVec 3) (s : State) : Host.Outcome State Fault Refusal :=
  match partialCheck ea pl s with
  | .error f => .next (logFault f .prRdMem s)
  | .ok len =>
    let s' := memRead ea len s
    .next { s' with pm := { s'.pm with
      state := .responsePending
      cmd := partialCmd .read ea tag pl len
      beat := insertBytes s.inp.pad (beatOffset ea).toNat (bytesAt s.mem ea len)
      retry := 0 } }

/-- `pr_wr_mem` (R234): a data request is issued and the machine waits for the beat. -/
def execPrWrMem (ea : BitVec 64) (tag : BitVec 16) (pl : BitVec 3) (s : State) : Host.Outcome State Fault Refusal :=
  match partialCheck ea pl s with
  | .error f => .next (logFault f .prWrMem s)
  | .ok len =>
    let s' := requestData .pm s
    .next { s' with pm := { s'.pm with
      state := .awaitingData, cmd := partialCmd .write ea tag pl len, wait := 0, retry := 0 } }

/-- The checks of a configuration command in the order busy, length, lane (R245, R246, R253, 60_exceptions.md R406): its length, or
the fault that refuses it. -/
def configCheck (pa : BitVec 64) (pl : BitVec 3) (s : State) : Except FaultKind Nat :=
  match s.cm.state, s.cm.resp with
  | .idle, none =>
    match configLen s.cfg pl with
    | some len => if regLane pa + len ≤ 4 then .ok len else .error .beatBoundaryCross
    | none => .error .badLength
  | .idle, some _ => .error .sequencerOverrun
  | .awaitingConfigData, _ => .error .sequencerOverrun

/-- The record of a read response (30_encoding.md R112). -/
def readRecord (c : Config) (tag : BitVec 16) : RespRec := { opcode := c.respOpcRd, tag := tag, code := 0, dl := 1, dp := 0 }

/-- The record of a write response (30_encoding.md R112). -/
def writeRecord (c : Config) (tag : BitVec 16) : RespRec := { opcode := c.respOpcWr, tag := tag, code := 0, dl := 0, dp := 0 }

/-- The bytes of a register in its lane window (R248). -/
def laneBytes (v : Word) (lane len : Nat) : List Byte := ((leBytes 4 v.toNat).drop lane).take len

/-- `config_read` (R248): one register read; the response waits in the latch while the state stays `Idle` (R250). -/
def execConfigRead (pa : BitVec 64) (tag : BitVec 16) (pl : BitVec 3) (s : State) : Host.Outcome State Fault Refusal :=
  match configCheck pa pl s with
  | .error f => .next (logFault f .configRead s)
  | .ok len =>
    let bytes := laneBytes (wordAt s.regs (regOffset pa)) (regLane pa) len
    let beat := insertBytes s.inp.pad (beatOffset pa).toNat bytes
    let s' := regRead (regOffset pa) s
    .next { s' with cm := { s'.cm with resp := some { record := readRecord s.cfg tag, beat := some beat }, retry := 0 } }

/-- `config_write` (R249): a one-beat data request is issued and the machine waits for the beat. -/
def execConfigWrite (pa : BitVec 64) (tag : BitVec 16) (pl : BitVec 3) (s : State) : Host.Outcome State Fault Refusal :=
  match configCheck pa pl s with
  | .error f => .next (logFault f .configWrite s)
  | .ok len =>
    let s' := requestData .cm s
    .next { s' with cm := { s'.cm with
      state := .awaitingConfigData, cmd := { dir := .write, pa := pa, tag := tag, pl := pl, len := len }, wait := 0 } }

/-! ### Emission (R241 to R243) -/

/-- Whether every resource a response needs is free (R241). -/
def canEmit (data : Bool) (s : State) : Bool :=
  canDrive .respV s && hasCredit .resp s && (!data || (canDrive .respDataV s && hasCredit .respData s))

/-- Send a response and, for a read, its beat, each with its credit (R241). -/
def sendResponse (p : RespRec) (beat : Option Beat) (s : State) : State :=
  let s := drive (.resp p) (takeCredit .resp s)
  match beat with
  | some b => drive (.respData { bad := false, data := b }) (takeCredit .respData s)
  | none => s

/-- The response record of the partial machine's latched command (R112, R241). -/
def pmRecord (s : State) : RespRec :=
  match s.pm.cmd.dir with
  | .read => readRecord s.cfg s.pm.cmd.tag
  | .write => writeRecord s.cfg s.pm.cmd.tag

/-- The beat of the partial machine's response, for a read (R241). -/
def pmBeat (s : State) : Option Beat :=
  match s.pm.cmd.dir with
  | .read => some s.pm.beat
  | .write => none

/-- A failed attempt of the partial machine (R242). -/
def retryPm (s : State) : State :=
  let s := { s with pm := { s.pm with retry := s.pm.retry + 1 } }
  if s.cfg.maxCreditRetry < s.pm.retry then
    let s := logFault .creditStarvation (pmOp s.pm.cmd.dir) s
    { s with pm := { s.pm with state := .idle } }
  else s

/-- The partial machine's emission attempt (R241, R242). -/
def emitPm (s : State) : State :=
  match s.pm.state with
  | .responsePending =>
    if canEmit (pmBeat s).isSome s then
      let s := sendResponse (pmRecord s) (pmBeat s) s
      { s with pm := { s.pm with state := .idle } }
    else retryPm s
  | .idle => s
  | .awaitingData => s

/-- The direction of a held configuration response: a read carries its beat (10_state.md R45; log 15). -/
def respDir (r : CmResp) : AccessDir := if r.beat.isSome then .read else .write

/-- A failed attempt of the configuration machine (R242). The command concerned is the one whose response is held (log 15). -/
def retryCm (r : CmResp) (s : State) : State :=
  let s := { s with cm := { s.cm with retry := s.cm.retry + 1 } }
  if s.cfg.maxCreditRetry < s.cm.retry then
    let s := logFault .creditStarvation (cmOp (respDir r)) s
    { s with cm := { s.cm with resp := none } }
  else s

/-- The configuration machine's emission attempt (R241, R242). -/
def emitCm (s : State) : State :=
  match s.cm.resp with
  | some r =>
    if canEmit r.beat.isSome s then
      let s := sendResponse r.record r.beat s
      { s with cm := { s.cm with resp := none } }
    else retryCm r s
  | none => s

/-- Step (1): both attempts in `RESP_PRIORITY` order (R243, R256). -/
def emitResponses (s : State) : State :=
  match s.cfg.respPriority with
  | .partialFirst => emitCm (emitPm s)
  | .configFirst => emitPm (emitCm s)

/-! ### Data dispatch (R238) -/

/-- Which machine step (2) delivers the tick's beat to, if any (R238). -/
def delivery (s : State) : Option MachineId := if s.inp.cmdData.valid then s.rdq.head? else none

/-- Step (2): the head of `S.rdq` is served, or the beat is unexpected (R238). -/
def dispatchData (s : State) : State :=
  if s.inp.cmdData.valid then
    match s.rdq with
    | _ :: ms => { s with rdq := ms }
    | [] => logFault .unexpectedData .seq s
  else s

/-! ### Data phase and timeout (R236, R239, R240, R251) -/

/-- A beat delivered to the partial machine (R236, R239). -/
def pmData (d : DataRec) (s : State) : State :=
  if d.bad then
    let s := logFault .badDataIndicator (pmOp s.pm.cmd.dir) s
    { s with pm := { s.pm with state := .idle } }
  else
    let s := memWrite s.pm.cmd.addr (extractBytes d.data s.pm.cmd.off.toNat s.pm.cmd.len) s
    { s with pm := { s.pm with state := .responsePending, retry := 0 } }

/-- A tick without a beat for the partial machine (R240). -/
def pmWait (s : State) : State :=
  let s := { s with pm := { s.pm with wait := s.pm.wait + 1 } }
  if s.cfg.dataTimeout ≤ s.pm.wait then
    let s := cancelRequest .pm (logFault .dataPhaseTimeout (pmOp s.pm.cmd.dir) s)
    { s with pm := { s.pm with state := .idle } }
  else s

/-- Step (3), first line: the partial machine's data phase or timeout (R256). -/
def stepPm (dest : Option MachineId) (s : State) : State :=
  match s.pm.state with
  | .awaitingData => if dest = some .pm then pmData s.inp.cmdData.body s else pmWait s
  | .idle => s
  | .responsePending => s

/-- The word a configuration write leaves: the four bytes themselves, or the register read, modified in its lane (R251). -/
def mergedWord (old : Word) (lane : Nat) (bytes : List Byte) : Word :=
  if bytes.length = 4 then BitVec.ofNat 32 (leValue bytes)
  else BitVec.ofNat 32 (leValue (overlayBytes (leBytes 4 old.toNat) lane bytes))

/-- A beat delivered to the configuration machine (R236, R251). -/
def cmData (d : DataRec) (s : State) : State :=
  if d.bad then
    let s := logFault .badDataIndicator (cmOp s.cm.cmd.dir) s
    { s with cm := { s.cm with state := .idle } }
  else
    let reg := regOffset s.cm.cmd.pa
    let bytes := extractBytes d.data (beatOffset s.cm.cmd.pa).toNat s.cm.cmd.len
    let v := mergedWord (wordAt s.regs reg) (regLane s.cm.cmd.pa) bytes
    let s := if s.cm.cmd.len = 4 then s else regRead reg s
    let s := regWrite reg v s
    { s with cm := { s.cm with
        state := .idle, resp := some { record := writeRecord s.cfg s.cm.cmd.tag, beat := none }, retry := 0 } }

/-- A tick without a beat for the configuration machine (R240). -/
def cmWait (s : State) : State :=
  let s := { s with cm := { s.cm with wait := s.cm.wait + 1 } }
  if s.cfg.dataTimeout ≤ s.cm.wait then
    let s := cancelRequest .cm (logFault .dataPhaseTimeout (cmOp s.cm.cmd.dir) s)
    { s with cm := { s.cm with state := .idle } }
  else s

/-- Step (4), first line: the configuration machine's data phase or timeout (R256). -/
def stepCm (dest : Option MachineId) (s : State) : State :=
  match s.cm.state with
  | .awaitingConfigData => if dest = some .cm then cmData s.inp.cmdData.body s else cmWait s
  | .idle => s

end Sys2Proof.Machine
end

