-- ==== Sys2Proof/Machine/TagRegistry.lean ====
section
/-! DEFINITION. The meanings of the tag allocator's operations and the response router (41_tag_registry.md R170 to R177). -/

namespace Sys2Proof.Machine

/-- `TG.ALLOCATE r` (R170), `IllegalRequest` for a requester in neither range (30_encoding.md R123). -/
def execTgAllocate (r : BitVec 8) (s : State) : Host.Outcome State Fault Refusal :=
  if legalRequester s.cfg r then
    match allocate r s with
    | some (t, s') => finish (.value t) s'
    | none => raiseFault .tagPoolExhausted .tgAllocate s
  else raiseIllegal s

/-- `TG.RESOLVE t` (R172). -/
def execTgResolve (t : BitVec 16) (s : State) : Host.Outcome State Fault Refusal :=
  match lookup s.tags t.toNat with
  | some r => finish (.value r.toNat) s
  | none => raiseFault .unknownTag .tgResolve s

/-- `TG.RELEASE t` (R173). -/
def execTgRelease (t : BitVec 16) (s : State) : Host.Outcome State Fault Refusal :=
  match lookup s.tags t.toNat with
  | some _ => finish .ok (unbindTag t.toNat s)
  | none => raiseFault .unknownTag .tgRelease s

/-- The routed form of a response (R175). -/
def routedResp (requester : BitVec 8) (p : RespRec) : RoutedResp :=
  { requester := requester, opcode := p.opcode, tag := p.tag, code := p.code, dl := p.dl, dp := p.dp }

/-- The router (R175). `O.resp_out` is `none` at the start of every tick. -/
def routeResponse (s : State) : State :=
  if s.inp.resp.valid then
    let p := s.inp.resp.body
    match lookup s.tags p.tag.toNat with
    | some r =>
      let s := { s with out := { s.out with respOut := some (routedResp r p) } }
      if isTerminal s.cfg p then unbindTag p.tag.toNat s else s
    | none => logFault .unknownTag .route s
  else s

/-- The response-data passthrough (R177). -/
def passResponseData (s : State) : State :=
  if s.inp.respData.valid then { s with out := { s.out with respDataOut := some s.inp.respData.body } } else s

/-- Phase 4 (47_tick.md R367). -/
def router (s : State) : State := passResponseData (routeResponse s)

end Sys2Proof.Machine
end

