-- ==== Sys2Proof/Machine/Dispatch.lean ====
section
/-! DEFINITION. One arm per instruction: the meaning it has. -/

namespace Sys2Proof.Machine

def exec (i : Instr) (s : State) : Host.Outcome State Fault Refusal :=
  match i with
  -- 30_encoding.md R129 and 40_credit_manager.md
  | .nop => Sys2Proof.Machine.execNop s
  | .crNegotiate k l p => Sys2Proof.Machine.execCrNegotiate k l p s
  | .crTryIssue k => Sys2Proof.Machine.execCrTryIssue k s
  | .crReturn k => Sys2Proof.Machine.execCrReturn k s
  | .crRead k => Sys2Proof.Machine.execCrRead k s
  -- 41_tag_registry.md
  | .tgAllocate r => Sys2Proof.Machine.execTgAllocate r s
  | .tgResolve t => Sys2Proof.Machine.execTgResolve t s
  | .tgRelease t => Sys2Proof.Machine.execTgRelease t s
  -- 42_fragmentation_fifo.md
  | .dfEnqueue x n data => Sys2Proof.Machine.execDfEnqueue x n data s
  | .dfDrain x n => Sys2Proof.Machine.execDfDrain x n s
  | .dfStream k x => Sys2Proof.Machine.execDfStream k x s
  | .dfCount x => Sys2Proof.Machine.execDfCount x s
  -- 46_bus_timing.md
  | .btDrive p => Sys2Proof.Machine.execBtDrive p s
  | .btRead g => Sys2Proof.Machine.execBtRead g s
  -- 43_command_sequencer.md
  | .prRdMem ea tag pl => Sys2Proof.Machine.execPrRdMem ea tag pl s
  | .prWrMem ea tag pl => Sys2Proof.Machine.execPrWrMem ea tag pl s
  | .configRead pa tag pl => Sys2Proof.Machine.execConfigRead pa tag pl s
  | .configWrite pa tag pl => Sys2Proof.Machine.execConfigWrite pa tag pl s

end Sys2Proof.Machine
end

