-- ==== Sys2Proof/Machine/Tick.lean ====
section
/-! DEFINITION. The tick (47_tick.md R360 to R376): its phases in order, and the fetch of its inputs. -/

namespace Sys2Proof.Machine

/-! ### Inputs -/

/-- The inputs of the next tick: the oldest pending, or none presented (log 1). -/
def nextInput (s : State) : TickInput := s.pending.headD .idle

/-- The start of a step: the inputs are sampled, the outputs are cleared, and the environment's own changes of its storage are
those of the inputs (R361, R71; log 1, log 8, log 21). -/
def takeInput (s : State) : State :=
  applyPokes { s with inp := nextInput s, pending := s.pending.tail, out := .none }

/-! ### Phase 3 -/

/-- The tick-start clears (R362). -/
def tickStart (s : State) : State := { s with drained := [], out := .none }

/-- Log an X/Z violation where a flag is set (R364). -/
def logXz (flag : Bool) (s : State) : State := if flag then logFault .xzViolation .xz s else s

/-- An interface with its valid flag dropped where it is flagged (R364). -/
def maskXz {α : Type} (flag : Bool) (p : Iface α) : Iface α := { p with valid := p.valid && !flag }

/-- The inputs with every flagged interface read as not valid (R364). -/
def cleanInput (i : TickInput) : TickInput :=
  { i with
    cmd := maskXz i.xz.cmd i.cmd
    cmdData := maskXz i.xz.cmdData i.cmdData
    resp := maskXz i.xz.resp i.resp
    respData := maskXz i.xz.respData i.respData
    cfg := maskXz i.xz.cfg i.cfg
    ret := if i.xz.ret then ⟨false, false, false, false⟩ else i.ret }

/-- The X/Z check (R364): the records in the order the interfaces are listed in (log 18). -/
def xzCheck (s : State) : State :=
  let f := s.inp.xz
  let s := logXz f.ret (logXz f.cfg (logXz f.respData (logXz f.resp (logXz f.cmdData (logXz f.cmd s)))))
  { s with inp := cleanInput s.inp }

/-- Phase 3 before the requests (R362, R364). -/
def beginTick (s : State) : State := xzCheck (tickStart s)

/-- One request: decoded, then performed, or illegal (R366). -/
def runRequest (q : Request) (s : State) : Host.Outcome State Fault Refusal :=
  match decodeRequest s.cfg q with
  | .ok i => exec i s
  | .error _ => raiseIllegal s

/-- The requests in list order, each seeing every effect of those before it (R366). -/
def runRequests : List Request → State → Host.Outcome State Fault Refusal
  | [], s => .next s
  | q :: qs, s => andThen (runRequest q s) (runRequests qs)

/-! ### Phase 5 (43_command_sequencer.md R256) -/

/-- The arriving command-interface unit, if any (R230, R256). -/
def commandUnit (s : State) : Host.Outcome State Fault Refusal :=
  if s.inp.cmd.valid then
    match decodeCommand s.cfg s.inp.cmd.body with
    | .ok i => exec i s
    | .error _ => .next (logFault .unsupportedCommand .seq s)
  else .next s

/-- The arriving configuration unit, if any (R230, R256). -/
def configUnit (s : State) : Host.Outcome State Fault Refusal :=
  if s.inp.cfg.valid then
    match decodeConfig s.cfg s.inp.cfg.body with
    | .ok i => exec i s
    | .error _ => .next (logFault .unsupportedCommand .seq s)
  else .next s

/-- Steps (1) and (2) and the first line of step (3): everything before the command unit. The machine a beat goes to is read before
the dispatch takes it off the order queue. -/
def beforeCommand (s : State) : State :=
  let s1 := emitResponses s
  stepPm (delivery s1) (dispatchData s1)

/-- The machine the tick's beat is delivered to (R238): what step (2) finds at the head of the order queue. -/
def tickDelivery (s : State) : Option MachineId := delivery (emitResponses s)

/-- Phase 5 (R256). -/
def sequencer (s : State) : Host.Outcome State Fault Refusal :=
  andThen (commandUnit (beforeCommand s)) fun s' => configUnit (stepCm (tickDelivery s) s')

/-! ### The whole tick -/

/-- Phases 6 to 9 (R369 to R375). -/
def endTick (s : State) : State := closeTick (creditReturns (lifecycleStep (arbiter s)))

/-- Phases 4 to 9. -/
def afterRequests (s : State) : Host.Outcome State Fault Refusal :=
  andThen (sequencer (router s)) fun s' => .next (endTick s')

/-- Phases 3 to 9: a tick that yields a snapshot. -/
def fullTick (s : State) : Host.Outcome State Fault Refusal :=
  andThen (runRequests s.inp.req (beginTick s)) afterRequests

/-- Whether the tick's inputs end the session (R363). -/
def losesSession (i : TickInput) : Bool := i.disconnect || i.tfault.isSome

/-- One tick on sampled inputs (R360): reset, closed, disconnect or fault, else the phases that follow. -/
def tick (s : State) : Host.Outcome State Fault Refusal :=
  if s.inp.rst then .next (newSession s)
  else if s.closed then .next s
  else if losesSession s.inp then .next (closeSession s)
  else fullTick s

/-! ### A word placed where the next tick reads it -/

/-- The inputs that present one thing to the block and nothing else (log 2). -/
def inputOf (p : Presented) : TickInput :=
  match p with
  | .request q => { TickInput.idle with req := [q] }
  | .command u => { TickInput.idle with cmd := ⟨true, u⟩ }
  | .config g => { TickInput.idle with cfg := ⟨true, g⟩ }

end Sys2Proof.Machine
end

