-- ==== Sys2Proof/Machine/Step.lean ====
section
/-! DEFINITION. One step of the model is one tick of the block (00_scope.md R3), refused on a configuration without a model (R8). -/

namespace Sys2Proof.Machine

/-- One step: a tick on the next inputs (47_tick.md R360). -/
def step (s : State) : Host.Outcome State Fault Refusal :=
  if configOk s.cfg then tick (takeInput s) else .refused .invalidConfiguration

/-- The state with a word of the opcode table presented to its next tick, ahead of every pending input, the session open (log 2). -/
def State.withFetchWord (s : State) (nbits w : Nat) : State :=
  { s with pending := inputOf (tablePresented s.cfg nbits w) :: s.pending, closed := false }

end Sys2Proof.Machine
end

