-- ==== Sys2Proof/Safety.lean ====
section
/-! DEFINITION. What a sound state of the block is: the invariants the spec states of its state (10_state.md R35, R36, R38, R39, R43,
R45, R46, R48, R49, R58), part by part; the ticks claims speak of; and the frames: what an operation leaves as it was. -/

namespace Sys2Proof.Machine

/-- A pool's counts: `avail ≤ initial` (R35), and nothing before negotiation (R34). -/
def PoolOk (p : Pool) : Prop := p.avail.toNat ≤ p.initial.toNat ∧ (p.negotiated = false → p.initial = 0)

/-- Every pool is sound. -/
def PoolsOk (s : State) : Prop := ∀ k, PoolOk (s.pools.get k)

/-- The registry: canonical, every bound tag `< P`, every requester legal, and no more live tags than `P` (R36, R38). -/
def TagsOk (s : State) : Prop :=
  Store.sorted s.tags = true ∧ (∀ e ∈ s.tags, e.1 < tagPool s ∧ legalRequester s.cfg e.2 = true) ∧ liveTags s ≤ tagPool s

/-- The queues and the drained marks: canonical, transfer contexts `< N_XFER`, no empty queue listed and none over `FIFO_DEPTH`
(R39, R41). -/
def QueuesOk (s : State) : Prop :=
  Store.sorted s.fifo = true ∧ (∀ e ∈ s.fifo, e.1 < s.cfg.nXfer ∧ e.2 ≠ [] ∧ e.2.length ≤ s.cfg.fifoDepth) ∧
  Store.sorted s.drained = true ∧ (∀ e ∈ s.drained, e.1 < s.cfg.nXfer)

/-- The partial machine: counts in range (R43), and while it holds a command, the command is one its checks accept (R231, R232). -/
def PmOk (s : State) : Prop :=
  s.pm.wait ≤ s.cfg.dataTimeout ∧ s.pm.retry ≤ s.cfg.maxCreditRetry + 1 ∧
  (s.pm.state = .awaitingData → s.pm.wait < s.cfg.dataTimeout ∧ s.pm.cmd.dir = .write) ∧
  (s.pm.state = .responsePending → s.pm.retry ≤ s.cfg.maxCreditRetry) ∧
  (s.pm.state ≠ .idle → partialLen s.cfg s.pm.cmd.pl = some s.pm.cmd.len ∧ s.pm.cmd.off = beatOffset s.pm.cmd.addr ∧
    s.pm.cmd.off.toNat + s.pm.cmd.len ≤ 64)

/-- The configuration machine: counts in range (R45), a response held only in `Idle` (R250), and while it waits for data, a write
its checks accept (R245, R246). -/
def CmOk (s : State) : Prop :=
  s.cm.wait ≤ s.cfg.dataTimeout ∧ s.cm.retry ≤ s.cfg.maxCreditRetry + 1 ∧
  (s.cm.resp.isSome → s.cm.state = .idle ∧ s.cm.retry ≤ s.cfg.maxCreditRetry) ∧
  (s.cm.state = .awaitingConfigData → s.cm.wait < s.cfg.dataTimeout ∧ s.cm.cmd.dir = .write ∧
    configLen s.cfg s.cm.cmd.pl = some s.cm.cmd.len ∧ regLane s.cm.cmd.pa + s.cm.cmd.len ≤ 4)

/-- The order queue lists, once each, exactly the machines that wait for a beat (R46); a closed session has released it, with the
tags and the queues (R363). -/
def RdqOk (s : State) : Prop :=
  s.rdq.Nodup ∧
  (s.closed = false →
    (MachineId.pm ∈ s.rdq ↔ s.pm.state = .awaitingData) ∧ (MachineId.cm ∈ s.rdq ↔ s.cm.state = .awaitingConfigData)) ∧
  (s.closed = true → s.tags = [] ∧ s.fifo = [] ∧ s.rdq = [])

/-- The rotation: distinct contexts, each `< N_CTX` (R48). -/
def RotOk (s : State) : Prop := s.rot.Nodup ∧ ∀ c ∈ s.rot, c < s.cfg.nCtx

/-- One signal: its count within the pulse width (R49), its payload valid while its level is 1 (46_bus_timing.md R342). -/
def SigOk {α : Type} (w : Nat) (g : Sig α) : Prop := g.count ≤ w ∧ (0 < g.count → g.payload.valid = true)

/-- Every signal is sound. -/
def SigsOk (s : State) : Prop :=
  SigOk s.cfg.pulseW s.sigs.cmd ∧ SigOk s.cfg.pulseW s.sigs.cmdData ∧ SigOk s.cfg.pulseW s.sigs.resp ∧
  SigOk s.cfg.pulseW s.sigs.respData

/-- The environment's storage is in canonical form, inside its address spaces (20_memory.md R70). -/
def StorageOk (s : State) : Prop := Memory.wf s.mem = true ∧ registersWf s.regs = true

/-- A sound state under a configuration that has a model (00_scope.md R8). -/
structure Sound (s : State) : Prop where
  config : configOk s.cfg = true
  pools : PoolsOk s
  tags : TagsOk s
  queues : QueuesOk s
  pm : PmOk s
  cm : CmOk s
  rdq : RdqOk s
  rot : RotOk s
  sigs : SigsOk s
  storage : StorageOk s

/-- The next tick reaches phase 3: no reset, an open session, no disconnect and no transport fault (47_tick.md R360). -/
def yieldsSnapshot (s : State) : Bool :=
  configOk s.cfg && !(nextInput s).rst && !s.closed && !losesSession (nextInput s)

/-! ### Frames: what an operation leaves as it was -/

/-- One diagnostic record is appended, to the log and to the tick's output (60_exceptions.md R402). -/
def Logged (k : FaultKind) (op : OpName) (s t : State) : Prop :=
  t.diag = s.diag ++ [{ cycle := s.cycle, op := op, kind := k }] ∧
  t.out.diag = s.out.diag ++ [{ cycle := s.cycle, op := op, kind := k }]

/-- No diagnostic record is appended. -/
def NotLogged (s t : State) : Prop := t.diag = s.diag ∧ t.out.diag = s.out.diag

/-- One result is appended to the tick's results (47_tick.md R366). -/
def Answered (r : Result) (s t : State) : Prop := t.out.res = s.out.res ++ [r]

/-- Every byte of the external memory and every word of the register file reads as before. -/
def KeepsStorage (s t : State) : Prop :=
  (∀ a, byteAt t.mem a = byteAt s.mem a) ∧ (∀ o, wordAt t.regs o = wordAt s.regs o) ∧ t.out.accesses = s.out.accesses

/-- The four pools are unchanged. -/
def KeepsPools (s t : State) : Prop := ∀ k, t.pools.get k = s.pools.get k

/-- Every tag's binding, the draws left and the model's counter are unchanged. -/
def KeepsTags (s t : State) : Prop :=
  (∀ n, lookup t.tags n = lookup s.tags n) ∧ t.inp.draw = s.inp.draw ∧ t.freeCtr = s.freeCtr

/-- Every queue and every drained mark is unchanged. -/
def KeepsQueues (s t : State) : Prop := (∀ x, queueOf t x = queueOf s x) ∧ (∀ x, isDrained t x = isDrained s x)

/-- Every signal's countdown and payload, and the units driven in the tick, are unchanged. -/
def KeepsSignals (s t : State) : Prop := t.sigs = s.sigs ∧ t.out.ev = s.out.ev

/-- The machines, their order queue and the data requests of the tick are unchanged. -/
def KeepsMachines (s t : State) : Prop :=
  t.pm = s.pm ∧ t.cm = s.cm ∧ t.rdq = s.rdq ∧ t.out.rdReqCount = s.out.rdReqCount

/-- What no operation of the block writes: the parameters, the lifecycle state, the rotation, the cycle counter, the closed bit,
the inputs of the tick but for the draws, the inputs to come, and the outputs of the other phases. -/
def KeepsSession (s t : State) : Prop :=
  t.cfg = s.cfg ∧ t.lc = s.lc ∧ t.rot = s.rot ∧ t.cycle = s.cycle ∧ t.closed = s.closed ∧
  { t.inp with draw := s.inp.draw } = s.inp ∧ t.pending = s.pending ∧ t.out.snap = s.out.snap ∧
  t.out.respOut = s.out.respOut ∧ t.out.respDataOut = s.out.respDataOut

/-- What no request-port operation writes: the session, the machines and the environment's storage. -/
def RequestFrame (s t : State) : Prop := KeepsSession s t ∧ KeepsMachines s t ∧ KeepsStorage s t

/-- What no inbound command writes when it arrives: the session, the pools, the tags, the queues, the signals, the results, and every
byte and word of the environment's storage. -/
def CommandFrame (s t : State) : Prop :=
  KeepsSession s t ∧ KeepsPools s t ∧ KeepsTags s t ∧ KeepsQueues s t ∧ KeepsSignals s t ∧ t.out.res = s.out.res ∧
  (∀ a, byteAt t.mem a = byteAt s.mem a) ∧ (∀ o, wordAt t.regs o = wordAt s.regs o)

/-- The pools of the other kinds are unchanged (40_credit_manager.md R146). -/
def KeepsOtherPools (k : CreditKind) (s t : State) : Prop := ∀ j, j ≠ k → t.pools.get j = s.pools.get j

/-- One credit of a kind is taken, the initial count and every other pool kept (40_credit_manager.md R142). -/
def TookCredit (k : CreditKind) (s t : State) : Prop :=
  (t.pools.get k).avail.toNat + 1 = (s.pools.get k).avail.toNat ∧ (t.pools.get k).initial = (s.pools.get k).initial ∧
  (t.pools.get k).negotiated = (s.pools.get k).negotiated ∧ KeepsOtherPools k s t

/-- The units driven in the tick and the signal driven, by drive payload: the pulse starts at its full width and holds the payload
with its valid flag set (46_bus_timing.md R342). -/
def Drove (p : DrivePayload) (s t : State) : Prop :=
  match p with
  | .cmd r => t.sigs = { s.sigs with cmd := ⟨s.cfg.pulseW, ⟨true, r⟩⟩ } ∧ t.out.ev = { s.out.ev with cmd := some r }
  | .cmdData r => t.sigs = { s.sigs with cmdData := ⟨s.cfg.pulseW, ⟨true, r⟩⟩ } ∧ t.out.ev = { s.out.ev with cmdData := some r }
  | .resp r => t.sigs = { s.sigs with resp := ⟨s.cfg.pulseW, ⟨true, r⟩⟩ } ∧ t.out.ev = { s.out.ev with resp := some r }
  | .respData r =>
    t.sigs = { s.sigs with respData := ⟨s.cfg.pulseW, ⟨true, r⟩⟩ } ∧ t.out.ev = { s.out.ev with respData := some r }

/-- What phase 5 runs for one inbound interface (43_command_sequencer.md R230, R256): nothing without a unit; the instruction a unit
decodes to; the `UnsupportedCommand` record of a unit refused. -/
def RunsUnit {α : Type} (dec : α → Except Reject Instr) (p : Iface α) (f : State → Host.Outcome State Fault Refusal) : Prop :=
  (p.valid = false ∧ f = .next) ∨
  (p.valid = true ∧ ∃ i, dec p.body = .ok i ∧ f = exec i) ∨
  (p.valid = true ∧ ∃ e, dec p.body = .error e ∧ f = fun u => .next (logFault .unsupportedCommand .seq u))

/-- Run instructions one after another. -/
def runInstrs : List Instr → State → Host.Outcome State Fault Refusal
  | [], s => .next s
  | i :: is, s => andThen (exec i s) (runInstrs is)

/-- The packets among results, in order. -/
def packetsOf : List Result → List Beat
  | [] => []
  | .packets ps :: rs => ps ++ packetsOf rs
  | _ :: rs => packetsOf rs

/-! ### The opcode table read by arithmetic (30_encoding.md R121 to R124) -/

/-- Whether a word matches a row of the table of R122, its reserved fields zero and its values in range: the rules' own reading of
the word, by division, beside the decoder's by extraction. -/
def OperationWord (c : Config) (w : Word) : Prop :=
  let op := w.toNat / 2 ^ 26
  let k := w.toNat / 2 ^ 24 % 4
  let a := w.toNat / 2 ^ 16 % 256
  let b := w.toNat % 2 ^ 16
  (op = 0x00 ∧ k = 0 ∧ a = 0 ∧ b = 0) ∨
  (op = 0x01 ∧ a = 0) ∨
  ((op = 0x02 ∨ op = 0x03 ∨ op = 0x04) ∧ a = 0 ∧ b = 0) ∨
  (op = 0x08 ∧ k = 0 ∧ b = 0 ∧ (a < c.nCtx ∨ 0xF0 ≤ a)) ∨
  ((op = 0x09 ∨ op = 0x0A) ∧ k = 0 ∧ a = 0) ∨
  ((op = 0x10 ∨ op = 0x11) ∧ k = 0 ∧ a < c.nXfer) ∨
  (op = 0x12 ∧ (k = 1 ∨ k = 3) ∧ b = 0 ∧ a < c.nXfer) ∨
  (op = 0x13 ∧ k = 0 ∧ b = 0 ∧ a < c.nXfer) ∨
  ((op = 0x18 ∨ op = 0x19) ∧ a = 0 ∧ b = 0)

/-- The signal has no unit in this tick: `O.ev[s] = none` (46_bus_timing.md R341). -/
def Undriven (e : Events) : Signal → Prop
  | .cmdV => e.cmd = none
  | .cmdDataV => e.cmdData = none
  | .respV => e.resp = none
  | .respDataV => e.respData = none

/-- What a snapshot shows of one signal (47_tick.md R372, 46_bus_timing.md R344): on its interface the unit driven in the tick, or all
fields 0; as the held payload, while the level is 1, what the signal holds, and all fields 0 otherwise; and what the signal holds is the unit
driven in the tick with `valid = 1`, or what it held before the tick. -/
def Shows {α : Type} (masked : α → α) (zero : α) (driven : Option α) (before after : Sig α) (unit : Iface α) (level : Bool)
    (hold : Iface α) : Prop :=
  unit = (match driven with | some p => ⟨true, masked p⟩ | none => ⟨false, zero⟩) ∧
  hold = (if level then ⟨after.payload.valid, masked after.payload.body⟩ else ⟨false, zero⟩) ∧
  after.payload = (match driven with | some p => ⟨true, p⟩ | none => before.payload)

/-- Whether the snapshot sends a unit on a signal's interface (46_bus_timing.md R348). -/
def sendsUnit (n : Snapshot) : Signal → Bool
  | .cmdV => n.cmd.valid
  | .cmdDataV => n.cmdData.valid
  | .respV => n.resp.valid
  | .respDataV => n.respData.valid

/-- The emulated level a snapshot records for a signal (46_bus_timing.md R344). -/
def levelOf (n : Snapshot) (sig : Signal) : Bool := n.level.get (kindOfSignal sig)

end Sys2Proof.Machine
end

