-- ==== Sys2Proof/Certificates/Slice0/Obligations.lean ====
section
/-! DEFINITION. The statements about the block, from the numbered rules of the spec: encodings, reset, the sound states, the tick, and
what each operation, machine and phase does and leaves as it was. -/

open Sys2Proof Sys2Proof.Machine

/-! ### Encodings (30_encoding.md) -/

/-- Decoding what spells a well-formed instruction gives it back, with every operand at every value, under any configuration that
keeps the default opcodes. -/
def Obligations.DecodeEncodeRoundTrip : Prop :=
  ∀ (c : Config) (i : Instr), c.classify = defaultClassify → WellFormed c i = true → decode c (encode i) = .ok i

/-- What a request decodes to is well-formed and spells the request's word: no bit of a legal word is dropped (R121, R126). -/
def Obligations.DecodedRequestSpellsItsWord : Prop :=
  ∀ (c : Config) (q : Request) (i : Instr), decodeRequest c q = .ok i → WellFormed c i = true ∧ encodeWord i = q.word

/-- A word decodes exactly when it matches a row of R122 with its reserved fields zero and its values in range (R124). -/
def Obligations.LegalWordsAreTheTable : Prop :=
  ∀ (c : Config) (q : Request), (∃ i, decodeRequest c q = .ok i) ↔ OperationWord c q.word

/-- A request whose word matches no row gives `FAULT(IllegalRequest)`, one record, and no other change (R123). -/
def Obligations.IllegalWordChangesNothing : Prop :=
  ∀ (q : Request) (s : State), ¬ OperationWord s.cfg q.word →
    ∃ t, runRequest q s = .next t ∧ Answered (.fault .illegalRequest) s t ∧ Logged .illegalRequest .req s t ∧
      RequestFrame s t ∧ KeepsPools s t ∧ KeepsTags s t ∧ KeepsQueues s t ∧ KeepsSignals s t

/-- The words and opcodes the spec writes out are the operations and commands they stand for. -/
def Obligations.WrittenOutWordsDecode : Prop :=
  decodeRequest defaultConfig ⟨0x00000000, .zero⟩ = .ok .nop ∧
  decodeRequest defaultConfig ⟨0x04000402, .zero⟩ = .ok (.crNegotiate .cmd 4 2) ∧
  decodeRequest defaultConfig ⟨0x0A000000, .zero⟩ = .ok (.crTryIssue .resp) ∧
  decodeRequest defaultConfig ⟨0x0C000000, .zero⟩ = .ok (.crReturn .cmd) ∧
  decodeRequest defaultConfig ⟨0x10000000, .zero⟩ = .ok (.crRead .cmd) ∧
  decodeRequest defaultConfig ⟨0x20030000, .zero⟩ = .ok (.tgAllocate 3) ∧
  decodeRequest defaultConfig ⟨0x24000007, .zero⟩ = .ok (.tgResolve 7) ∧
  decodeRequest defaultConfig ⟨0x28000000, .zero⟩ = .ok (.tgRelease 0) ∧
  decodeRequest defaultConfig ⟨0x44020002, .zero⟩ = .ok (.dfDrain 2 2) ∧
  decodeRequest defaultConfig ⟨0x49020000, .zero⟩ = .ok (.dfStream .cmdData 2) ∧
  decodeRequest defaultConfig ⟨0x4C020000, .zero⟩ = .ok (.dfCount 2) ∧
  decodeRequest defaultConfig ⟨0x64000000, .zero⟩ = .ok (.btRead .cmdV) ∧
  decodeCommand defaultConfig { CmdRec.zero with opcode := 0x28, ea := 0x1003, pl := 2 } = .ok (.prRdMem 0x1003 0 2) ∧
  decodeCommand defaultConfig { CmdRec.zero with opcode := 0x86, ea := 0x1000, pl := 3 } = .ok (.prWrMem 0x1000 0 3) ∧
  decodeConfig defaultConfig { CfgRec.zero with opcode := 0xE0, pa := 0x410, pl := 2 } = .ok (.configRead 0x410 0 2) ∧
  decodeConfig defaultConfig { CfgRec.zero with opcode := 0xE1, pa := 0x410, pl := 2 } = .ok (.configWrite 0x410 0 2)

/-! ### Reset and sound states (10_state.md, 70_reset_and_hazards.md) -/

/-- The reset values of R60: every element the rule lists. -/
def Obligations.ResetValues : Prop :=
  (∀ k, State.reset.pools.get k = { initial := 0, avail := 0, negotiated := false }) ∧
  (∀ n, lookup State.reset.tags n = none) ∧
  (∀ x, queueOf State.reset x = [] ∧ isDrained State.reset x = false) ∧
  State.reset.pm.state = .idle ∧ State.reset.cm.state = .idle ∧ State.reset.cm.resp = none ∧
  State.reset.pm.wait = 0 ∧ State.reset.pm.retry = 0 ∧ State.reset.cm.wait = 0 ∧ State.reset.cm.retry = 0 ∧
  State.reset.rdq = [] ∧ State.reset.lc = .idle ∧ State.reset.rot = [] ∧
  State.reset.sigs.cmd = ⟨0, ⟨false, .zero⟩⟩ ∧ State.reset.sigs.cmdData = ⟨0, ⟨false, .zero⟩⟩ ∧
  State.reset.sigs.resp = ⟨0, ⟨false, .zero⟩⟩ ∧ State.reset.sigs.respData = ⟨0, ⟨false, .zero⟩⟩ ∧
  State.reset.cycle = 0 ∧ State.reset.diag = [] ∧ State.reset.closed = false

/-- A tick with the session-reset input gives every element of the block's state its value at reset, performs no request, forms no
snapshot, and leaves the environment's storage as the tick found it, whatever the state was (R440). That the latched commands and the
response buffer, which R60 leaves unspecified, are those of the model's reset state is the model's choice (log 6). -/
def Obligations.SessionResetStartsAfresh : Prop :=
  ∀ s, configOk s.cfg = true → (nextInput s).rst = true →
    ∃ t, step s = .next t ∧ t.pools = State.reset.pools ∧ t.tags = [] ∧ t.fifo = [] ∧ t.drained = [] ∧
      t.pm = State.reset.pm ∧ t.cm = State.reset.cm ∧ t.rdq = [] ∧ t.lc = .idle ∧ t.rot = [] ∧ t.sigs = State.reset.sigs ∧
      t.cycle = 0 ∧ t.diag = [] ∧ t.closed = false ∧ t.cfg = s.cfg ∧
      (∀ a, byteAt t.mem a = byteAt (takeInput s).mem a) ∧ (∀ o, wordAt t.regs o = wordAt (takeInput s).regs o) ∧
      t.out.snap = none ∧ t.out.res = [] ∧ t.out.respOut = none ∧ t.out.respDataOut = none ∧ t.out.diag = []

/-- The state right after reset is sound. -/
def Obligations.ResetIsSound : Prop := Sound State.reset

/-- Every step keeps a sound state sound: pool counts in range, tags below the pool size, queues within their depth, the machines'
counts and latched commands within their checks, the order queue naming exactly the machines that wait, the rotation without
repeats, the countdowns within the pulse width, and the storage in canonical form. -/
def Obligations.StepKeepsSoundness : Prop := ∀ s t, Sound s → step s = .next t → Sound t

/-- Every step keeps `0 ≤ avail ≤ initial` for every pool (R35), whatever else holds of the state. -/
def Obligations.PoolCountsStayInRange : Prop :=
  ∀ s t, (∀ k, (s.pools.get k).avail.toNat ≤ (s.pools.get k).initial.toNat) → step s = .next t →
    ∀ k, (t.pools.get k).avail.toNat ≤ (t.pools.get k).initial.toNat

/-! ### The tick (47_tick.md) -/

/-- A tick that yields a snapshot runs its phases in the order of R360. -/
def Obligations.StepRunsPhasesInOrder : Prop :=
  ∀ s, yieldsSnapshot s = true →
    step s = andThen (runRequests (nextInput s).req (beginTick (takeInput s))) fun u =>
      andThen (sequencer (router u)) fun v => .next (closeTick (creditReturns (lifecycleStep (arbiter v))))

/-- A step runs the decoded instruction: where the first request of the tick decodes to `i`, the step is `exec i` on the state the tick
begins with, then the other requests, then the later phases. -/
def Obligations.StepRunsDecodedRequest : Prop :=
  ∀ s q qs i, yieldsSnapshot s = true → (nextInput s).req = q :: qs → decodeRequest s.cfg q = .ok i →
    step s = andThen (andThen (exec i (beginTick (takeInput s))) (runRequests qs)) afterRequests

/-- The sequencer (43_command_sequencer.md R256): the emissions, the data dispatch, the partial machine's data phase or timeout, what
the command unit runs, the configuration machine's data phase or timeout, what the configuration unit runs, each unit absent, decoded or
refused; the emissions in the order of `RESP_PRIORITY`, the second counting a retry where the first has used the response signal (R243);
and a machine with nothing pending or awaited left as it is. -/
def Obligations.SequencerRunsDecodedCommands : Prop :=
  (∀ s f g, RunsUnit (decodeCommand s.cfg) s.inp.cmd f → RunsUnit (decodeConfig s.cfg) s.inp.cfg g →
    sequencer s = andThen (f (stepPm (delivery (emitResponses s)) (dispatchData (emitResponses s)))) fun u =>
      g (stepCm (delivery (emitResponses s)) u)) ∧
  (∀ s, (s.cfg.respPriority = .partialFirst → emitResponses s = emitCm (emitPm s)) ∧
    (s.cfg.respPriority = .configFirst → emitResponses s = emitPm (emitCm s))) ∧
  (∀ s r, s.cfg.respPriority = .partialFirst → s.cm.resp = some r → (emitPm s).out.ev.resp ≠ none →
    (emitResponses s).cm.retry = s.cm.retry + 1 ∧ KeepsPools (emitPm s) (emitResponses s) ∧
    KeepsSignals (emitPm s) (emitResponses s)) ∧
  (∀ s, s.cfg.respPriority = .configFirst → s.pm.state = .responsePending → (emitCm s).out.ev.resp ≠ none →
    (emitResponses s).pm.retry = s.pm.retry + 1 ∧ KeepsPools (emitCm s) (emitResponses s) ∧
    KeepsSignals (emitCm s) (emitResponses s)) ∧
  (∀ s, (s.pm.state ≠ .responsePending → emitPm s = s) ∧ (s.cm.resp = none → emitCm s = s)) ∧
  (∀ s d, (s.pm.state ≠ .awaitingData → stepPm d s = s) ∧ (s.cm.state ≠ .awaitingConfigData → stepCm d s = s))

/-- An inbound unit of another class than its interface's two is dropped with `UnsupportedCommand` and nothing else changes
(43_command_sequencer.md R230). -/
def Obligations.OtherClassesAreDropped : Prop :=
  ∀ s,
    (s.inp.cmd.valid = true → classify s.cfg s.inp.cmd.body.opcode ≠ .partialRead →
      classify s.cfg s.inp.cmd.body.opcode ≠ .partialWrite →
      ∃ t, commandUnit s = .next t ∧ Logged .unsupportedCommand .seq s t ∧ CommandFrame s t ∧ KeepsMachines s t) ∧
    (s.inp.cfg.valid = true → classify s.cfg s.inp.cfg.body.opcode ≠ .cfgRead →
      classify s.cfg s.inp.cfg.body.opcode ≠ .cfgWrite →
      ∃ t, configUnit s = .next t ∧ Logged .unsupportedCommand .seq s t ∧ CommandFrame s t ∧ KeepsMachines s t)

/-- While the session is closed a tick without a session reset changes no state of the block and outputs nothing (R365). -/
def Obligations.ClosedSessionTakesNoStep : Prop :=
  ∀ s, configOk s.cfg = true → s.closed = true → (nextInput s).rst = false →
    ∃ t, step s = .next t ∧ t.pools = s.pools ∧ t.tags = s.tags ∧ t.fifo = s.fifo ∧ t.drained = s.drained ∧ t.pm = s.pm ∧
      t.cm = s.cm ∧ t.rdq = s.rdq ∧ t.lc = s.lc ∧ t.rot = s.rot ∧ t.sigs = s.sigs ∧ t.cycle = s.cycle ∧ t.diag = s.diag ∧
      t.closed = true ∧ t.out.snap = none ∧ t.out.res = [] ∧ t.out.respOut = none ∧ t.out.respDataOut = none

/-- A disconnect or a transport fault releases the tags, the queues and the data requests, closes the session, logs the fault if it is
one, performs no request, and leaves the pools, the machines, the rotation, the signals and the cycle counter (R363). -/
def Obligations.DisconnectReleasesAndCloses : Prop :=
  ∀ s, configOk s.cfg = true → s.closed = false → (nextInput s).rst = false →
    ((nextInput s).disconnect = true ∨ (nextInput s).tfault ≠ none) →
    ∃ t, step s = .next t ∧ (∀ n, lookup t.tags n = none) ∧ (∀ x, queueOf t x = []) ∧ t.rdq = [] ∧ t.closed = true ∧
      t.out.snap = none ∧ t.out.res = [] ∧ t.pools = s.pools ∧ t.pm = s.pm ∧ t.cm = s.cm ∧ t.lc = s.lc ∧ t.rot = s.rot ∧
      t.sigs = s.sigs ∧ t.cycle = s.cycle ∧
      t.diag = s.diag ++ (match (nextInput s).tfault with
        | none => []
        | some .unavailable => [⟨s.cycle, .transport, .transportUnavailable⟩]
        | some .versionMismatch => [⟨s.cycle, .transport, .protocolVersionMismatch⟩]
        | some .error => [⟨s.cycle, .transport, .transportError⟩])

/-- A step is refused exactly when the configuration is one R8 refuses, and otherwise answers a next state with the same
configuration: no input, request or command ends a run (R377, R405). That it is the step that refuses (log 4), that the parameters stand in
the state and no step writes them (log 3), and that a fault of the spec is a next state (log 5), are the model's readings. -/
def Obligations.StepAnswersUnlessConfigurationRefused : Prop :=
  ∀ s,
    ((s.cfg.pulseW = 0 ∨ s.cfg.fifoDepth = 0 ∨ s.cfg.dataTimeout = 0 ∨ 240 < s.cfg.nCtx ∨ 256 < s.cfg.nXfer) →
      step s = .refused .invalidConfiguration) ∧
    (¬ (s.cfg.pulseW = 0 ∨ s.cfg.fifoDepth = 0 ∨ s.cfg.dataTimeout = 0 ∨ 240 < s.cfg.nCtx ∨ 256 < s.cfg.nXfer) →
      ∃ t, step s = .next t ∧ t.cfg = s.cfg)

/-- A step forms a snapshot and advances the cycle counter by one exactly when it reaches phase 9; a tick that ends earlier forms none
and, but for a reset, keeps the counter (R373, R375). -/
def Obligations.SnapshotAdvancesTheCycle : Prop :=
  ∀ s t, step s = .next t →
    (yieldsSnapshot s = true → t.out.snap.isSome = true ∧ t.cycle = s.cycle + 1) ∧
    (yieldsSnapshot s = false → t.out.snap = none ∧ ((nextInput s).rst = false → t.cycle = s.cycle)) ∧
    (∀ d ∈ t.out.diag, d.cycle = s.cycle)

/-- The tick begins by clearing the drained marks and the per-tick outputs, logs one `XZViolation` for each flagged interface, and reads
each flagged interface as not valid and the others as they are (R362, R364). -/
def Obligations.FlaggedInterfacesAreNotRead : Prop :=
  ∀ s,
    let i := s.inp
    let t := beginTick s
    t.diag = s.diag ++
      List.replicate ([i.xz.cmd, i.xz.cmdData, i.xz.resp, i.xz.respData, i.xz.cfg, i.xz.ret].count true)
        ⟨s.cycle, .xz, .xzViolation⟩ ∧
    t.inp.cmd.valid = (i.cmd.valid && !i.xz.cmd) ∧ t.inp.cmdData.valid = (i.cmdData.valid && !i.xz.cmdData) ∧
    t.inp.resp.valid = (i.resp.valid && !i.xz.resp) ∧ t.inp.respData.valid = (i.respData.valid && !i.xz.respData) ∧
    t.inp.cfg.valid = (i.cfg.valid && !i.xz.cfg) ∧ (∀ k, t.inp.ret.get k = (i.ret.get k && !i.xz.ret)) ∧
    t.inp.cmd.body = i.cmd.body ∧ t.inp.cmdData.body = i.cmdData.body ∧ t.inp.resp.body = i.resp.body ∧
    t.inp.respData.body = i.respData.body ∧ t.inp.cfg.body = i.cfg.body ∧ t.inp.req = i.req ∧
    (∀ x, isDrained t x = false) ∧ t.out.res = [] ∧ t.out.respOut = none ∧ t.out.respDataOut = none ∧
    t.out.ev = ⟨none, none, none, none⟩ ∧ t.out.rdReqCount = 0 ∧ KeepsPools s t ∧ KeepsTags s t ∧ KeepsMachines { s with out := t.out } t ∧
    (∀ x, queueOf t x = queueOf s x) ∧ t.sigs = s.sigs ∧ (∀ a, byteAt t.mem a = byteAt s.mem a) ∧
    (∀ o, wordAt t.regs o = wordAt s.regs o)

/-- No step but a session reset removes or changes a record: each appends the tick's records, all with the tick's cycle number
(R57, R402). -/
def Obligations.DiagnosticsAreAppendOnly : Prop :=
  ∀ s t, step s = .next t → (nextInput s).rst = false →
    t.diag = s.diag ++ t.out.diag ∧ ∀ d ∈ t.out.diag, d.cycle = s.cycle

/-- Only a disconnect or a transport fault ends the session, and only a session reset opens it again (60_exceptions.md R405). -/
def Obligations.OnlySessionLossCloses : Prop :=
  ∀ s t, step s = .next t →
    t.closed = (!(nextInput s).rst && (s.closed || (nextInput s).disconnect || (nextInput s).tfault.isSome))

/-- A tick that yields a snapshot gives one result per request (R366, R376). -/
def Obligations.OneResultPerRequest : Prop :=
  ∀ s t, yieldsSnapshot s = true → step s = .next t → t.out.res.length = (nextInput s).req.length

/-! ### Credits (40_credit_manager.md) -/

/-- `NOP`, `CR.READ`, `DF.COUNT` and `BT.READ` answer their result and write nothing (30_encoding.md R129, R145, R206, R346);
`DF.COUNT` of a transfer context that is out of range is illegal (R123). -/
def Obligations.StatusReadsWriteNothing : Prop :=
  ∀ (s : State) (i : Instr) (r : Result),
    ((i = .nop ∧ r = .ok) ∨
     (∃ k, i = .crRead k ∧ r = .value ((s.pools.get k).negotiated.toNat * 65536 + (s.pools.get k).initial.toNat * 256 +
        (s.pools.get k).avail.toNat)) ∨
     (∃ x : BitVec 8, x.toNat < s.cfg.nXfer ∧ i = .dfCount x ∧ r = .value (queueOf s x).length) ∨
     (∃ g, i = .btRead g ∧ r = .value ((if 0 < sigCount s.sigs g then 256 else 0) + sigCount s.sigs g % 256))) →
    ∃ t, exec i s = .next t ∧ Answered r s t ∧ NotLogged s t ∧ RequestFrame s t ∧ KeepsPools s t ∧ KeepsTags s t ∧
      KeepsQueues s t ∧ KeepsSignals s t

/-- `CR.NEGOTIATE` (R140): its word, the counts it sets on a pool not yet negotiated, and the fault on one that is. -/
def Obligations.NegotiateSetsThePoolOnce : Prop :=
  ∀ (k : CreditKind) (l p : BitVec 8) (o : Operand) (s : State),
    decodeRequest s.cfg ⟨wordOf 0x01 (codeOfKind k) 0 (l ++ p), o⟩ = .ok (.crNegotiate k l p) ∧
    ∃ t, exec (.crNegotiate k l p) s = .next t ∧ RequestFrame s t ∧ KeepsTags s t ∧ KeepsQueues s t ∧ KeepsSignals s t ∧
      KeepsOtherPools k s t ∧
      ((s.pools.get k).negotiated = true →
        t.pools.get k = s.pools.get k ∧ Answered (.fault .renegotiateIgnored) s t ∧
        Logged .renegotiateIgnored .crNegotiate s t) ∧
      ((s.pools.get k).negotiated = false →
        Answered .ok s t ∧ NotLogged s t ∧ (t.pools.get k).negotiated = true ∧
        (t.pools.get k).avail = (t.pools.get k).initial ∧
        (s.cfg.negotiateMode = .min → (t.pools.get k).initial.toNat = min l.toNat p.toNat) ∧
        (s.cfg.negotiateMode = .peer → (t.pools.get k).initial = p))

/-- `CR.TRY_ISSUE` (R142): its word, the atomic test and decrement, and no change on `FALSE`. -/
def Obligations.TryIssueTestsAndDecrements : Prop :=
  ∀ (k : CreditKind) (o : Operand) (s : State),
    decodeRequest s.cfg ⟨wordOf 0x02 (codeOfKind k) 0 0, o⟩ = .ok (.crTryIssue k) ∧
    ∃ t, exec (.crTryIssue k) s = .next t ∧ RequestFrame s t ∧ KeepsTags s t ∧ KeepsQueues s t ∧ KeepsSignals s t ∧
      NotLogged s t ∧
      (0 < (s.pools.get k).avail.toNat → Answered .granted s t ∧ TookCredit k s t) ∧
      ((s.pools.get k).avail.toNat = 0 → Answered .denied s t ∧ KeepsPools s t)

/-- `CR.RETURN` (R143): its word, the increment saturating at `initial`, and the fault of an excess return. -/
def Obligations.ReturnSaturatesAtInitial : Prop :=
  ∀ (k : CreditKind) (o : Operand) (s : State),
    decodeRequest s.cfg ⟨wordOf 0x03 (codeOfKind k) 0 0, o⟩ = .ok (.crReturn k) ∧
    ∃ t, exec (.crReturn k) s = .next t ∧ RequestFrame s t ∧ KeepsTags s t ∧ KeepsQueues s t ∧ KeepsSignals s t ∧
      KeepsOtherPools k s t ∧ (t.pools.get k).initial = (s.pools.get k).initial ∧
      (t.pools.get k).negotiated = (s.pools.get k).negotiated ∧
      ((s.pools.get k).avail.toNat < (s.pools.get k).initial.toNat →
        Answered .ok s t ∧ NotLogged s t ∧ (t.pools.get k).avail.toNat = (s.pools.get k).avail.toNat + 1) ∧
      ((s.pools.get k).initial.toNat ≤ (s.pools.get k).avail.toNat →
        Answered (.fault .excessCreditReturn) s t ∧ Logged .excessCreditReturn .crReturn s t ∧
        (t.pools.get k).avail = (s.pools.get k).avail)

/-- Negotiation is the only writer of `initial` and `negotiated`, and a negotiated pool keeps both until a session reset (R141). -/
def Obligations.NegotiatedPoolIsImmutable : Prop :=
  (∀ i s t, (∀ k l p, i ≠ .crNegotiate k l p) → exec i s = .next t →
    ∀ k, (t.pools.get k).initial = (s.pools.get k).initial ∧ (t.pools.get k).negotiated = (s.pools.get k).negotiated) ∧
  (∀ s t, step s = .next t → (nextInput s).rst = false → ∀ k,
    ((s.pools.get k).negotiated = true ∨
      ∀ q ∈ (nextInput s).req, ∀ l p, decodeRequest s.cfg q ≠ .ok (.crNegotiate k l p)) →
    (t.pools.get k).initial = (s.pools.get k).initial ∧ (t.pools.get k).negotiated = (s.pools.get k).negotiated)

/-- A credit the tick's snapshot returns cannot be used in that tick: with none at its start, and no `CR.RETURN` or `CR.NEGOTIATE` of
that kind among its requests, every `CR.TRY_ISSUE` of the tick answers `FALSE`, and the pool holds one credit after it (R147). -/
def Obligations.ReturnedCreditIsUsableNextTick : Prop :=
  ∀ s t k, yieldsSnapshot s = true → step s = .next t →
    (s.pools.get k).avail = 0 → (s.pools.get k).initial ≠ 0 →
    (nextInput s).ret.get k = true → (nextInput s).xz.ret = false →
    (∀ q ∈ (nextInput s).req, decodeRequest s.cfg q ≠ .ok (.crReturn k) ∧
      ∀ l p, decodeRequest s.cfg q ≠ .ok (.crNegotiate k l p)) →
    (∀ (n : Nat) (q : Request), (nextInput s).req[n]? = some q → decodeRequest s.cfg q = .ok (.crTryIssue k) → t.out.res[n]? = some Result.denied) ∧
    (t.pools.get k).avail = 1

/-- Phase 8: each inbound flag returns one unit of its kind, an excess return is logged and ignored, in the order of the kinds, and
nothing else changes (47_tick.md R371, R144). -/
def Obligations.InboundFlagsReturnOneUnitEach : Prop :=
  ∀ s,
    let excess := ([CreditKind.cmd, .cmdData, .resp, .respData].filter fun k =>
      s.inp.ret.get k && decide ((s.pools.get k).initial.toNat ≤ (s.pools.get k).avail.toNat)).map
      fun _ => (⟨s.cycle, .ret, .excessCreditReturn⟩ : Diag)
    (∀ k, (creditReturns s).pools.get k =
      (if s.inp.ret.get k = true ∧ (s.pools.get k).avail.toNat < (s.pools.get k).initial.toNat
       then { s.pools.get k with avail := (s.pools.get k).avail + 1 } else s.pools.get k)) ∧
    (creditReturns s).diag = s.diag ++ excess ∧ (creditReturns s).out.diag = s.out.diag ++ excess ∧
    (creditReturns s).out.res = s.out.res ∧
    KeepsSession s (creditReturns s) ∧ KeepsMachines s (creditReturns s) ∧ KeepsStorage s (creditReturns s) ∧
    KeepsTags s (creditReturns s) ∧ KeepsQueues s (creditReturns s) ∧ KeepsSignals s (creditReturns s)

/-- The snapshot returns to the peer one credit of each kind whose interface brought a valid, unflagged unit, and none of the others,
whatever became of the unit (R150). -/
def Obligations.ConsumedUnitsReturnCredits : Prop :=
  ∀ s t n, step s = .next t → t.out.snap = some n →
    n.ret.cmd = ((nextInput s).cmd.valid && !(nextInput s).xz.cmd) ∧
    n.ret.cmdData = ((nextInput s).cmdData.valid && !(nextInput s).xz.cmdData) ∧
    n.ret.resp = ((nextInput s).resp.valid && !(nextInput s).xz.resp) ∧
    n.ret.respData = ((nextInput s).respData.valid && !(nextInput s).xz.respData)

/-! ### Tags (41_tag_registry.md) -/

/-- `TG.ALLOCATE` (R170): a free tag below the pool size, the least under `LOWEST`, is bound to the requester; with no free tag the
fault; a requester in neither range is illegal. -/
def Obligations.AllocateBindsAFreeTag : Prop :=
  ∀ (r : BitVec 8) (o : Operand) (s : State),
    ((r.toNat < s.cfg.nCtx ∨ 0xF0 ≤ r.toNat) →
      decodeRequest s.cfg ⟨wordOf 0x08 0 r 0, o⟩ = .ok (.tgAllocate r)) ∧
    ∃ t, exec (.tgAllocate r) s = .next t ∧ RequestFrame s t ∧ KeepsPools s t ∧ KeepsQueues s t ∧ KeepsSignals s t ∧
      ((r.toNat < s.cfg.nCtx ∨ 0xF0 ≤ r.toNat) → (∃ n < tagPool s, lookup s.tags n = none) →
        ∃ n, n < tagPool s ∧ lookup s.tags n = none ∧ (s.cfg.allocPolicy = .lowest → ∀ m < n, lookup s.tags m ≠ none) ∧
          Answered (.value n) s t ∧ NotLogged s t ∧ lookup t.tags n = some r ∧
          ∀ m, m ≠ n → lookup t.tags m = lookup s.tags m) ∧
      ((r.toNat < s.cfg.nCtx ∨ 0xF0 ≤ r.toNat) → (∀ n < tagPool s, lookup s.tags n ≠ none) →
        Answered (.fault .tagPoolExhausted) s t ∧ Logged .tagPoolExhausted .tgAllocate s t ∧ KeepsTags s t) ∧
      (¬ (r.toNat < s.cfg.nCtx ∨ 0xF0 ≤ r.toNat) →
        Answered (.fault .illegalRequest) s t ∧ Logged .illegalRequest .req s t ∧ KeepsTags s t)

/-- `TG.RESOLVE` (R172): its word, the requester of a bound tag, and the fault of a free one; no binding changes. -/
def Obligations.ResolveGivesTheRequester : Prop :=
  ∀ (g : BitVec 16) (o : Operand) (s : State),
    decodeRequest s.cfg ⟨wordOf 0x09 0 0 g, o⟩ = .ok (.tgResolve g) ∧
    ∃ t, exec (.tgResolve g) s = .next t ∧ RequestFrame s t ∧ KeepsPools s t ∧ KeepsQueues s t ∧ KeepsSignals s t ∧
      KeepsTags s t ∧
      (∀ r, lookup s.tags g.toNat = some r → Answered (.value r.toNat) s t ∧ NotLogged s t) ∧
      (lookup s.tags g.toNat = none → Answered (.fault .unknownTag) s t ∧ Logged .unknownTag .tgResolve s t)

/-- `TG.RELEASE` (R173): its word, a bound tag freed and every other binding kept, and the fault of a free one. -/
def Obligations.ReleaseFreesTheTag : Prop :=
  ∀ (g : BitVec 16) (o : Operand) (s : State), Store.sorted s.tags = true →
    decodeRequest s.cfg ⟨wordOf 0x0A 0 0 g, o⟩ = .ok (.tgRelease g) ∧
    ∃ t, exec (.tgRelease g) s = .next t ∧ RequestFrame s t ∧ KeepsPools s t ∧ KeepsQueues s t ∧ KeepsSignals s t ∧
      (∀ r, lookup s.tags g.toNat = some r →
        Answered .ok s t ∧ NotLogged s t ∧ lookup t.tags g.toNat = none ∧
        ∀ m, m ≠ g.toNat → lookup t.tags m = lookup s.tags m) ∧
      (lookup s.tags g.toNat = none →
        Answered (.fault .unknownTag) s t ∧ Logged .unknownTag .tgRelease s t ∧ KeepsTags s t)

/-- `resolve` after `release` fails with `UnknownTag` through any operations that do not allocate (R180). -/
def Obligations.ResolveAfterReleaseFails : Prop :=
  ∀ (g : BitVec 16) (s t u : State) (is : List Instr), Store.sorted s.tags = true →
    (∃ r, lookup s.tags g.toNat = some r) → exec (.tgRelease g) s = .next t →
    (∀ i ∈ is, ∀ r, i ≠ .tgAllocate r) → runInstrs is t = .next u →
    ∃ v, exec (.tgResolve g) u = .next v ∧ Answered (.fault .unknownTag) u v ∧ Logged .unknownTag .tgResolve u v

/-- Phase 4: a response whose tag is bound goes to its requester, and frees the tag if it is terminal; one whose tag is free is dropped
with `UnknownTag`; response data pass through; without a unit nothing happens (R175, R177). -/
def Obligations.RouterDeliversByTag : Prop :=
  ∀ s, Store.sorted s.tags = true → s.out.respOut = none → s.out.respDataOut = none →
    let p := s.inp.resp.body
    let t := router s
    (∀ r, s.inp.resp.valid = true → lookup s.tags p.tag.toNat = some r →
      t.out.respOut = some { requester := r, opcode := p.opcode, tag := p.tag, code := p.code, dl := p.dl, dp := p.dp } ∧
      NotLogged s t ∧ lookup t.tags p.tag.toNat = (if isTerminal s.cfg p then none else some r) ∧
      ∀ m, m ≠ p.tag.toNat → lookup t.tags m = lookup s.tags m) ∧
    (s.inp.resp.valid = true → lookup s.tags p.tag.toNat = none →
      t.out.respOut = none ∧ Logged .unknownTag .route s t ∧ t.tags = s.tags) ∧
    (s.inp.resp.valid = false → t.out.respOut = none ∧ NotLogged s t ∧ t.tags = s.tags) ∧
    t.out.respDataOut = (if s.inp.respData.valid then some s.inp.respData.body else none) ∧
    t.out.res = s.out.res ∧ KeepsPools s t ∧ KeepsQueues s t ∧ KeepsSignals s t ∧ KeepsMachines s t ∧ KeepsStorage s t ∧
    t.lc = s.lc ∧ t.rot = s.rot ∧ t.cycle = s.cycle ∧ t.closed = s.closed ∧ t.inp = s.inp

/-! ### Queues (42_fragmentation_fifo.md) -/

/-- `DF.ENQUEUE` (R201): the conflict first, then the zero count, then the capacity, and all the packets in address order or none. -/
def Obligations.EnqueueAppendsAllOrNothing : Prop :=
  ∀ (x : BitVec 8) (n : BitVec 16) (data : List Beat) (o : Operand) (s : State), data.length = n.toNat →
    x.toNat < s.cfg.nXfer →
    decodeRequest s.cfg ⟨wordOf 0x10 0 x n, { o with beats := data }⟩ = .ok (.dfEnqueue x n data) ∧
    ∃ t, exec (.dfEnqueue x n data) s = .next t ∧ RequestFrame s t ∧ KeepsPools s t ∧ KeepsTags s t ∧ KeepsSignals s t ∧
      (∀ y, y ≠ x → queueOf t y = queueOf s y) ∧ (∀ y, isDrained t y = isDrained s y) ∧
      (isDrained s x = true →
        Answered (.fault .concurrentFragmentConflict) s t ∧ Logged .concurrentFragmentConflict .dfEnqueue s t ∧
        queueOf t x = queueOf s x) ∧
      (isDrained s x = false → n = 0 → Answered .ok s t ∧ NotLogged s t ∧ queueOf t x = queueOf s x) ∧
      (isDrained s x = false → n ≠ 0 → s.cfg.fifoDepth < (queueOf s x).length + n.toNat →
        Answered (.fault .fifoOverflow) s t ∧ Logged .fifoOverflow .dfEnqueue s t ∧ queueOf t x = queueOf s x) ∧
      (isDrained s x = false → n ≠ 0 → (queueOf s x).length + n.toNat ≤ s.cfg.fifoDepth →
        Answered .ok s t ∧ NotLogged s t ∧ queueOf t x = queueOf s x ++ data)

/-- `DF.DRAIN` (R202): up to `n` packets from the head, in order; the queue marked drained where one was removed; the warning where it
held fewer. -/
def Obligations.DrainRemovesFromTheHead : Prop :=
  ∀ (x : BitVec 8) (n : BitVec 16) (o : Operand) (s : State), Store.sorted s.fifo = true → x.toNat < s.cfg.nXfer →
    decodeRequest s.cfg ⟨wordOf 0x11 0 x n, o⟩ = .ok (.dfDrain x n) ∧
    ∃ t, exec (.dfDrain x n) s = .next t ∧ RequestFrame s t ∧ KeepsPools s t ∧ KeepsTags s t ∧ KeepsSignals s t ∧
      Answered (.packets ((queueOf s x).take n.toNat)) s t ∧ queueOf t x = (queueOf s x).drop n.toNat ∧
      (∀ y, y ≠ x → queueOf t y = queueOf s y ∧ isDrained t y = isDrained s y) ∧
      (isDrained t x = true ↔ isDrained s x = true ∨ (n ≠ 0 ∧ queueOf s x ≠ [])) ∧
      ((queueOf s x).length < n.toNat → Logged .underrunWarning .dfDrain s t) ∧
      (n.toNat ≤ (queueOf s x).length → NotLogged s t)

/-- `DF.STREAM` (R205): on an empty queue the warning and `EMPTY`; else `BUSY`, else `NOCREDIT`, each without a change; else the head
packet leaves on the kind's data signal with one credit, and the queue is marked drained. -/
def Obligations.StreamSendsTheHeadPacket : Prop :=
  ∀ (k : DataKind) (x : BitVec 8) (o : Operand) (s : State), Store.sorted s.fifo = true → x.toNat < s.cfg.nXfer →
    decodeRequest s.cfg ⟨wordOf 0x12 (codeOfKind (kindOfData k)) x 0, o⟩ = .ok (.dfStream k x) ∧
    ∃ t, exec (.dfStream k x) s = .next t ∧ RequestFrame s t ∧ KeepsTags s t ∧
      (queueOf s x = [] →
        Answered .empty s t ∧ Logged .underrunWarning .dfStream s t ∧ KeepsPools s t ∧ KeepsQueues s t ∧ KeepsSignals s t) ∧
      (queueOf s x ≠ [] → canDrive (signalOfData k) s = false →
        Answered .busy s t ∧ NotLogged s t ∧ KeepsPools s t ∧ KeepsQueues s t ∧ KeepsSignals s t) ∧
      (queueOf s x ≠ [] → canDrive (signalOfData k) s = true → (s.pools.get (kindOfData k)).avail.toNat = 0 →
        Answered .noCredit s t ∧ NotLogged s t ∧ KeepsPools s t ∧ KeepsQueues s t ∧ KeepsSignals s t) ∧
      (∀ p ps, queueOf s x = p :: ps → canDrive (signalOfData k) s = true →
        0 < (s.pools.get (kindOfData k)).avail.toNat →
        Answered .ok s t ∧ NotLogged s t ∧ TookCredit (kindOfData k) s t ∧ queueOf t x = ps ∧ isDrained t x = true ∧
        (∀ y, y ≠ x → queueOf t y = queueOf s y ∧ isDrained t y = isDrained s y) ∧
        Drove (dataPayload k { bad := false, data := p }) s t)

/-- The `DF.*` operations of a transfer context that is out of range are illegal and change nothing (30_encoding.md R123). -/
def Obligations.TransferContextOutOfRangeIsIllegal : Prop :=
  ∀ (x : BitVec 8) (n : BitVec 16) (data : List Beat) (k : DataKind) (i : Instr) (s : State), s.cfg.nXfer ≤ x.toNat →
    (i = .dfEnqueue x n data ∨ i = .dfDrain x n ∨ i = .dfStream k x ∨ i = .dfCount x) →
    ∃ t, exec i s = .next t ∧ Answered (.fault .illegalRequest) s t ∧ Logged .illegalRequest .req s t ∧ RequestFrame s t ∧
      KeepsPools s t ∧ KeepsTags s t ∧ KeepsQueues s t ∧ KeepsSignals s t

/-- An enqueue of `n` packets on an empty queue, then drains totalling `n`, give the `n` packets in their order, each once, and leave
the queue empty (R207). -/
def Obligations.QueueKeepsOrderAndContents : Prop :=
  ∀ (x : BitVec 8) (n : BitVec 16) (data : List Beat) (ns : List (BitVec 16)) (s : State),
    Store.sorted s.fifo = true → x.toNat < s.cfg.nXfer → data.length = n.toNat → n.toNat ≤ s.cfg.fifoDepth →
    queueOf s x = [] → isDrained s x = false → (ns.map BitVec.toNat).sum = n.toNat →
    ∃ t, runInstrs (.dfEnqueue x n data :: ns.map (.dfDrain x)) s = .next t ∧
      packetsOf (t.out.res.drop s.out.res.length) = data ∧ queueOf t x = [] ∧ t.diag = s.diag

/-! ### Signals (46_bus_timing.md) -/

/-- When a signal can be driven: exactly when it is not yet driven in the tick and its pulse is over or may be restarted (R341).
`BT.DRIVE` (R345): its word, the drive with `valid = 1` where the signal can be driven, `BUSY` and no change where it cannot, and no
credit either way. -/
def Obligations.DriveStartsThePulse : Prop :=
  (∀ (sig : Signal) (s : State), canDrive sig s = true ↔
    Undriven s.out.ev sig ∧ (sigCount s.sigs sig = 0 ∨ s.cfg.pulseRedrive = .reload)) ∧
  ∀ (p : DrivePayload) (s : State),
    (WellFormed s.cfg (.btDrive p) = true → decodeRequest s.cfg ⟨wordOf 0x18 (codeOfSignal p.signal) 0 0,
      { beats := []
        cmd := (match p with | .cmd r => r | _ => .zero)
        data := (match p with | .cmdData r => r | .respData r => r | _ => .zero)
        resp := (match p with | .resp r => r | _ => .zero) }⟩ = .ok (.btDrive p)) ∧
    ∃ t, exec (.btDrive p) s = .next t ∧ RequestFrame s t ∧ KeepsPools s t ∧ KeepsTags s t ∧ KeepsQueues s t ∧
      NotLogged s t ∧
      (canDrive p.signal s = true → Answered .ok s t ∧ Drove p s t) ∧
      (canDrive p.signal s = false → Answered .busy s t ∧ KeepsSignals s t)

/-- What a snapshot shows (R372, R344, R341). The level is 1 where the signal was driven in the tick or its pulse still runs, the countdown
then falls by one, and under `HOLD` a running pulse is not restarted. Each interface carries the unit driven in the tick, or all fields 0;
the held payload shows while the level is 1 and stays that of the last drive; the fields of OPEN width are masked (R78); the read-count is the
number of data requests of the tick, at most 2 (R237); the configuration response is not driven (R252). -/
def Obligations.LevelFollowsTheCountdown : Prop :=
  ∀ s t n, step s = .next t → t.out.snap = some n →
    let masked := fun p : CmdRec => { p with
      atag := p.atag % 2 ^ s.cfg.atagW, streamId := p.streamId % 2 ^ s.cfg.streamW, flags := p.flags % 2 ^ s.cfg.flagsW }
    (∀ sig,
      (sendsUnit n sig = true → levelOf n sig = true ∧ sigCount t.sigs sig = s.cfg.pulseW - 1) ∧
      (sendsUnit n sig = false →
        levelOf n sig = decide (0 < sigCount s.sigs sig) ∧ sigCount t.sigs sig = sigCount s.sigs sig - 1) ∧
      (s.cfg.pulseRedrive = .hold → 0 < sigCount s.sigs sig → sendsUnit n sig = false)) ∧
    Shows masked .zero t.out.ev.cmd s.sigs.cmd t.sigs.cmd n.cmd n.level.cmd n.hold.cmd ∧
    Shows id .zero t.out.ev.cmdData s.sigs.cmdData t.sigs.cmdData n.cmdData n.level.cmdData n.hold.cmdData ∧
    Shows id .zero t.out.ev.resp s.sigs.resp t.sigs.resp n.resp n.level.resp n.hold.resp ∧
    Shows id .zero t.out.ev.respData s.sigs.respData t.sigs.respData n.respData n.level.respData n.hold.respData ∧
    t.out.rdReqCount ≤ 2 ∧ n.rdReqCount.toNat = t.out.rdReqCount ∧ n.cfgResp = { valid := false, payload := 0, ack := 0 }

/-- With `PULSE_W = 2`, a signal driven in tick `T` and in neither of the next two reads true in `T` and `T+1` and false in `T+2`, and
under `HOLD` no drive in `T+1` is possible (R350). -/
def Obligations.PulseLastsTwoTicks : Prop :=
  ∀ s t u v a b c sig, s.cfg.pulseW = 2 → step s = .next t → step t = .next u → step u = .next v →
    t.out.snap = some a → u.out.snap = some b → v.out.snap = some c → sendsUnit a sig = true →
    (s.cfg.pulseRedrive = .hold → sendsUnit b sig = false) ∧
    (sendsUnit b sig = false → sendsUnit c sig = false →
      levelOf a sig = true ∧ levelOf b sig = true ∧ levelOf c sig = false)

/-! ### The sequencer (43_command_sequencer.md) -/

/-- `pr_rd_mem` (R231 to R233, R235): the refusals in the order busy, length, boundary, and, for an accepted command, the memory read at
once, the bytes placed in the beat over the filler, and the machine's next state. -/
def Obligations.PartialReadFillsTheBeat : Prop :=
  ∀ (u : CmdRec) (s : State),
    (classify s.cfg u.opcode = .partialRead → decodeCommand s.cfg u = .ok (.prRdMem u.ea u.tag u.pl)) ∧
    ∃ t, exec (.prRdMem u.ea u.tag u.pl) s = .next t ∧ CommandFrame s t ∧ t.cm = s.cm ∧ t.rdq = s.rdq ∧
      t.out.rdReqCount = s.out.rdReqCount ∧
      (s.pm.state ≠ .idle → t.pm = s.pm ∧ t.out.accesses = s.out.accesses ∧ Logged .sequencerOverrun .prRdMem s t) ∧
      (s.pm.state = .idle → (∀ n, plBytes s.cfg u.pl = some n → ¬ (n = 1 ∨ n = 2 ∨ n = 4 ∨ n = 8)) →
        t.pm = s.pm ∧ t.out.accesses = s.out.accesses ∧ Logged .badLength .prRdMem s t) ∧
      (∀ n, s.pm.state = .idle → plBytes s.cfg u.pl = some n → (n = 1 ∨ n = 2 ∨ n = 4 ∨ n = 8) → 64 < u.ea.toNat % 64 + n →
        t.pm = s.pm ∧ t.out.accesses = s.out.accesses ∧ Logged .beatBoundaryCross .prRdMem s t) ∧
      (∀ n, s.pm.state = .idle → plBytes s.cfg u.pl = some n → (n = 1 ∨ n = 2 ∨ n = 4 ∨ n = 8) → u.ea.toNat % 64 + n ≤ 64 →
        NotLogged s t ∧ t.out.accesses = s.out.accesses ++ [.memRead u.ea n] ∧ t.pm.state = .responsePending ∧
        t.pm.cmd.dir = .read ∧ t.pm.cmd.addr = u.ea ∧ t.pm.cmd.tag = u.tag ∧ t.pm.cmd.pl = u.pl ∧ t.pm.cmd.len = n ∧
        t.pm.cmd.off.toNat = u.ea.toNat % 64 ∧ t.pm.retry = 0 ∧ t.pm.wait = s.pm.wait ∧
        ∀ i < 64, beatByte t.pm.beat i =
          (if u.ea.toNat % 64 ≤ i ∧ i < u.ea.toNat % 64 + n then byteAt s.mem (u.ea + BitVec.ofNat 64 (i - u.ea.toNat % 64))
           else beatByte s.inp.pad i))

/-- `pr_wr_mem` (R231, R232, R234, R235): the refusals in order, and, for an accepted command, the data request and the machine's next
state, with no byte written. -/
def Obligations.PartialWriteAwaitsData : Prop :=
  ∀ (u : CmdRec) (s : State),
    (classify s.cfg u.opcode = .partialWrite → decodeCommand s.cfg u = .ok (.prWrMem u.ea u.tag u.pl)) ∧
    ∃ t, exec (.prWrMem u.ea u.tag u.pl) s = .next t ∧ CommandFrame s t ∧ t.cm = s.cm ∧ t.out.accesses = s.out.accesses ∧
      (s.pm.state ≠ .idle → KeepsMachines s t ∧ Logged .sequencerOverrun .prWrMem s t) ∧
      (s.pm.state = .idle → (∀ n, plBytes s.cfg u.pl = some n → ¬ (n = 1 ∨ n = 2 ∨ n = 4 ∨ n = 8)) →
        KeepsMachines s t ∧ Logged .badLength .prWrMem s t) ∧
      (∀ n, s.pm.state = .idle → plBytes s.cfg u.pl = some n → (n = 1 ∨ n = 2 ∨ n = 4 ∨ n = 8) → 64 < u.ea.toNat % 64 + n →
        KeepsMachines s t ∧ Logged .beatBoundaryCross .prWrMem s t) ∧
      (∀ n, s.pm.state = .idle → plBytes s.cfg u.pl = some n → (n = 1 ∨ n = 2 ∨ n = 4 ∨ n = 8) → u.ea.toNat % 64 + n ≤ 64 →
        NotLogged s t ∧ t.rdq = s.rdq ++ [.pm] ∧ t.out.rdReqCount = s.out.rdReqCount + 1 ∧ t.pm.state = .awaitingData ∧
        t.pm.cmd.dir = .write ∧ t.pm.cmd.addr = u.ea ∧ t.pm.cmd.tag = u.tag ∧ t.pm.cmd.pl = u.pl ∧ t.pm.cmd.len = n ∧
        t.pm.cmd.off.toNat = u.ea.toNat % 64 ∧ t.pm.wait = 0 ∧ t.pm.retry = 0 ∧ t.pm.beat = s.pm.beat)

/-- `config_read` (R245 to R248, R250, R253): the refusals in order, and, for an accepted command, one register read, the lane's bytes
placed in the beat over the filler, and the response held while the state stays `Idle`. -/
def Obligations.ConfigReadHoldsTheResponse : Prop :=
  ∀ (g : CfgRec) (s : State),
    (classify s.cfg g.opcode = .cfgRead → decodeConfig s.cfg g = .ok (.configRead g.pa g.tag g.pl)) ∧
    ∃ t, exec (.configRead g.pa g.tag g.pl) s = .next t ∧ CommandFrame s t ∧ t.pm = s.pm ∧ t.rdq = s.rdq ∧
      t.out.rdReqCount = s.out.rdReqCount ∧ t.cm.state = s.cm.state ∧ t.cm.cmd = s.cm.cmd ∧ t.cm.wait = s.cm.wait ∧
      (¬ (s.cm.state = .idle ∧ s.cm.resp = none) →
        t.cm = s.cm ∧ t.out.accesses = s.out.accesses ∧ Logged .sequencerOverrun .configRead s t) ∧
      (s.cm.state = .idle → s.cm.resp = none → (∀ n, plBytes s.cfg g.pl = some n → ¬ (n = 1 ∨ n = 2 ∨ n = 4)) →
        t.cm = s.cm ∧ t.out.accesses = s.out.accesses ∧ Logged .badLength .configRead s t) ∧
      (∀ n, s.cm.state = .idle → s.cm.resp = none → plBytes s.cfg g.pl = some n → (n = 1 ∨ n = 2 ∨ n = 4) →
        4 < g.pa.toNat % 4 + n →
        t.cm = s.cm ∧ t.out.accesses = s.out.accesses ∧ Logged .beatBoundaryCross .configRead s t) ∧
      (∀ n, s.cm.state = .idle → s.cm.resp = none → plBytes s.cfg g.pl = some n → (n = 1 ∨ n = 2 ∨ n = 4) →
        g.pa.toNat % 4 + n ≤ 4 →
        NotLogged s t ∧ t.out.accesses = s.out.accesses ++ [.regRead (regOffset g.pa)] ∧ t.cm.retry = 0 ∧
        (regOffset g.pa).toNat = g.pa.toNat % 2 ^ 32 / 4 * 4 ∧
        ∃ b, t.cm.resp = some { record := { opcode := s.cfg.respOpcRd, tag := g.tag, code := 0, dl := 1, dp := 0 }, beat := some b } ∧
          ∀ i < 64, (beatByte b i).toNat =
            (if g.pa.toNat % 64 ≤ i ∧ i < g.pa.toNat % 64 + n
             then (wordAt s.regs (regOffset g.pa)).toNat / 256 ^ (g.pa.toNat % 4 + (i - g.pa.toNat % 64)) % 256
             else (beatByte s.inp.pad i).toNat))

/-- `config_write` (R245, R246, R249, R253): the refusals in order, and, for an accepted command, the data request and the machine's
next state, with no register written. -/
def Obligations.ConfigWriteAwaitsData : Prop :=
  ∀ (g : CfgRec) (s : State),
    (classify s.cfg g.opcode = .cfgWrite → decodeConfig s.cfg g = .ok (.configWrite g.pa g.tag g.pl)) ∧
    ∃ t, exec (.configWrite g.pa g.tag g.pl) s = .next t ∧ CommandFrame s t ∧ t.pm = s.pm ∧
      t.out.accesses = s.out.accesses ∧ t.cm.resp = s.cm.resp ∧ t.cm.retry = s.cm.retry ∧
      (¬ (s.cm.state = .idle ∧ s.cm.resp = none) → KeepsMachines s t ∧ Logged .sequencerOverrun .configWrite s t) ∧
      (s.cm.state = .idle → s.cm.resp = none → (∀ n, plBytes s.cfg g.pl = some n → ¬ (n = 1 ∨ n = 2 ∨ n = 4)) →
        KeepsMachines s t ∧ Logged .badLength .configWrite s t) ∧
      (∀ n, s.cm.state = .idle → s.cm.resp = none → plBytes s.cfg g.pl = some n → (n = 1 ∨ n = 2 ∨ n = 4) →
        4 < g.pa.toNat % 4 + n → KeepsMachines s t ∧ Logged .beatBoundaryCross .configWrite s t) ∧
      (∀ n, s.cm.state = .idle → s.cm.resp = none → plBytes s.cfg g.pl = some n → (n = 1 ∨ n = 2 ∨ n = 4) →
        g.pa.toNat % 4 + n ≤ 4 →
        NotLogged s t ∧ t.rdq = s.rdq ++ [.cm] ∧ t.out.rdReqCount = s.out.rdReqCount + 1 ∧
        t.cm.state = .awaitingConfigData ∧ t.cm.wait = 0 ∧
        t.cm.cmd = { dir := .write, pa := g.pa, tag := g.tag, pl := g.pl, len := n })

/-- The partial machine's emission (R241, R242): with every resource free, the response and, for a read, its beat leave with a credit
each and the machine is `Idle`; with one missing, nothing leaves, the attempt is counted, and past the bound the transfer is aborted
with `CreditStarvation`. -/
def Obligations.PartialResponseLeavesWholeOrNotAtAll : Prop :=
  ∀ s, s.pm.state = .responsePending →
    let t := emitPm s
    let ok := canDrive .respV s = true ∧ 0 < (s.pools.get .resp).avail.toNat ∧
      (s.pm.cmd.dir = .read → canDrive .respDataV s = true ∧ 0 < (s.pools.get .respData).avail.toNat)
    KeepsSession s t ∧ KeepsTags s t ∧ KeepsQueues s t ∧ KeepsStorage s t ∧ t.out.res = s.out.res ∧ t.cm = s.cm ∧ t.rdq = s.rdq ∧
    t.out.rdReqCount = s.out.rdReqCount ∧ t.pm.cmd = s.pm.cmd ∧ t.pm.beat = s.pm.beat ∧ t.pm.wait = s.pm.wait ∧
    (ok → t.pm.retry = s.pm.retry) ∧
    (ok → s.pm.cmd.dir = .write → NotLogged s t ∧ t.pm.state = .idle ∧ TookCredit .resp s t ∧
      Drove (.resp { opcode := s.cfg.respOpcWr, tag := s.pm.cmd.tag, code := 0, dl := 0, dp := 0 }) s t) ∧
    (ok → s.pm.cmd.dir = .read → NotLogged s t ∧ t.pm.state = .idle ∧
      ∃ m, TookCredit .resp s m ∧ TookCredit .respData m t ∧ m.cfg = s.cfg ∧
        Drove (.resp { opcode := s.cfg.respOpcRd, tag := s.pm.cmd.tag, code := 0, dl := 1, dp := 0 }) s m ∧
        Drove (.respData { bad := false, data := s.pm.beat }) m t) ∧
    (¬ ok → KeepsPools s t ∧ KeepsSignals s t ∧ t.pm.retry = s.pm.retry + 1 ∧
      (s.pm.retry + 1 ≤ s.cfg.maxCreditRetry → t.pm.state = .responsePending ∧ NotLogged s t) ∧
      (s.cfg.maxCreditRetry < s.pm.retry + 1 → t.pm.state = .idle ∧
        Logged .creditStarvation (if s.pm.cmd.dir = .read then .prRdMem else .prWrMem) s t))

/-- The configuration machine's emission (R241, R242): as the partial machine's, from the held response. The command that the starvation
record names is told from the held response, the model's reading (log 15). -/
def Obligations.ConfigResponseLeavesWholeOrNotAtAll : Prop :=
  ∀ s r, s.cm.resp = some r →
    let t := emitCm s
    let ok := canDrive .respV s = true ∧ 0 < (s.pools.get .resp).avail.toNat ∧
      (r.beat ≠ none → canDrive .respDataV s = true ∧ 0 < (s.pools.get .respData).avail.toNat)
    KeepsSession s t ∧ KeepsTags s t ∧ KeepsQueues s t ∧ KeepsStorage s t ∧ t.out.res = s.out.res ∧ t.pm = s.pm ∧ t.rdq = s.rdq ∧
    t.out.rdReqCount = s.out.rdReqCount ∧ t.cm.state = s.cm.state ∧ t.cm.cmd = s.cm.cmd ∧ t.cm.wait = s.cm.wait ∧
    (ok → t.cm.retry = s.cm.retry) ∧
    (ok → r.beat = none → NotLogged s t ∧ t.cm.resp = none ∧ TookCredit .resp s t ∧ Drove (.resp r.record) s t) ∧
    (∀ b, ok → r.beat = some b → NotLogged s t ∧ t.cm.resp = none ∧
      ∃ m, TookCredit .resp s m ∧ TookCredit .respData m t ∧ m.cfg = s.cfg ∧ Drove (.resp r.record) s m ∧
        Drove (.respData { bad := false, data := b }) m t) ∧
    (¬ ok → KeepsPools s t ∧ KeepsSignals s t ∧ t.cm.retry = s.cm.retry + 1 ∧
      (s.cm.retry + 1 ≤ s.cfg.maxCreditRetry → t.cm.resp = some r ∧ NotLogged s t) ∧
      (s.cfg.maxCreditRetry < s.cm.retry + 1 → t.cm.resp = none ∧
        Logged .creditStarvation (if r.beat ≠ none then .configRead else .configWrite) s t))

/-- Data dispatch (R238): a valid beat takes the head off the order queue and goes to that machine; with an empty queue it is logged
`UnexpectedData` and dropped; without a beat nothing happens. -/
def Obligations.BeatGoesToTheOldestRequest : Prop :=
  ∀ s,
    (∀ m ms, s.inp.cmdData.valid = true → s.rdq = m :: ms →
      delivery s = some m ∧ (dispatchData s).rdq = ms ∧ NotLogged s (dispatchData s)) ∧
    (s.inp.cmdData.valid = true → s.rdq = [] →
      delivery s = none ∧ (dispatchData s).rdq = [] ∧ Logged .unexpectedData .seq s (dispatchData s)) ∧
    (s.inp.cmdData.valid = false → delivery s = none ∧ dispatchData s = s) ∧
    CommandFrame s (dispatchData s) ∧ (dispatchData s).pm = s.pm ∧ (dispatchData s).cm = s.cm ∧
    (dispatchData s).out.rdReqCount = s.out.rdReqCount ∧ (dispatchData s).out.accesses = s.out.accesses

/-- The partial machine's data phase (R236, R239): a good beat writes the window's bytes at the latched address and no other byte, and
the response is pending; a bad one writes nothing and the machine is `Idle`. -/
def Obligations.PartialWriteStoresTheWindow : Prop :=
  ∀ s, s.pm.state = .awaitingData → s.pm.cmd.off.toNat + s.pm.cmd.len ≤ 64 →
    let d := s.inp.cmdData.body
    let t := stepPm (some .pm) s
    KeepsSession s t ∧ KeepsPools s t ∧ KeepsTags s t ∧ KeepsQueues s t ∧ KeepsSignals s t ∧ t.out.res = s.out.res ∧ t.cm = s.cm ∧
    t.rdq = s.rdq ∧ t.out.rdReqCount = s.out.rdReqCount ∧ (∀ o, wordAt t.regs o = wordAt s.regs o) ∧ t.pm.cmd = s.pm.cmd ∧
    t.pm.beat = s.pm.beat ∧ t.pm.wait = s.pm.wait ∧
    (d.bad = false →
      NotLogged s t ∧ t.pm.state = .responsePending ∧ t.pm.retry = 0 ∧
      (∀ i < s.pm.cmd.len, byteAt t.mem (s.pm.cmd.addr + BitVec.ofNat 64 i) = beatByte d.data (s.pm.cmd.off.toNat + i)) ∧
      (∀ a, (∀ i < s.pm.cmd.len, a ≠ s.pm.cmd.addr + BitVec.ofNat 64 i) → byteAt t.mem a = byteAt s.mem a) ∧
      ∃ bs, bs.length = s.pm.cmd.len ∧ t.out.accesses = s.out.accesses ++ [.memWrite s.pm.cmd.addr bs]) ∧
    (d.bad = true →
      Logged .badDataIndicator (if s.pm.cmd.dir = .read then .prRdMem else .prWrMem) s t ∧ t.pm.state = .idle ∧
      t.pm.retry = s.pm.retry ∧
      KeepsStorage s t)

/-- The configuration machine's data phase (R236, R251): a good beat writes the addressed register, its bytes outside the lane window
kept, and no other register, and the write response is held; a bad one writes nothing and the machine is `Idle`. -/
def Obligations.ConfigWriteMergesTheLane : Prop :=
  ∀ s, s.cm.state = .awaitingConfigData → s.cm.cmd.pa.toNat % 4 + s.cm.cmd.len ≤ 4 →
    let d := s.inp.cmdData.body
    let g := s.cm.cmd.pa.toNat % 4
    let t := stepCm (some .cm) s
    KeepsSession s t ∧ KeepsPools s t ∧ KeepsTags s t ∧ KeepsQueues s t ∧ KeepsSignals s t ∧ t.out.res = s.out.res ∧ t.pm = s.pm ∧
    t.rdq = s.rdq ∧ t.out.rdReqCount = s.out.rdReqCount ∧ (∀ a, byteAt t.mem a = byteAt s.mem a) ∧ t.cm.state = .idle ∧ t.cm.cmd = s.cm.cmd ∧ t.cm.wait = s.cm.wait ∧
    (d.bad = false →
      NotLogged s t ∧ t.cm.retry = 0 ∧
      t.cm.resp = some { record := { opcode := s.cfg.respOpcWr, tag := s.cm.cmd.tag, code := 0, dl := 0, dp := 0 }, beat := none } ∧
      (∀ j < 4, (wordAt t.regs (regOffset s.cm.cmd.pa)).toNat / 256 ^ j % 256 =
        (if g ≤ j ∧ j < g + s.cm.cmd.len then (beatByte d.data (s.cm.cmd.pa.toNat % 64 + (j - g))).toNat
         else (wordAt s.regs (regOffset s.cm.cmd.pa)).toNat / 256 ^ j % 256)) ∧
      (∀ o, o ≠ regOffset s.cm.cmd.pa → wordAt t.regs o = wordAt s.regs o) ∧
      t.out.accesses = s.out.accesses ++ (if s.cm.cmd.len = 4 then [] else [.regRead (regOffset s.cm.cmd.pa)]) ++
        [.regWrite (regOffset s.cm.cmd.pa) (wordAt t.regs (regOffset s.cm.cmd.pa))]) ∧
    (d.bad = true →
      Logged .badDataIndicator (if s.cm.cmd.dir = .read then .configRead else .configWrite) s t ∧ t.cm.resp = s.cm.resp ∧
      t.cm.retry = s.cm.retry ∧ KeepsStorage s t)

/-- The data-phase timeout (R240): a tick without a beat for a waiting machine counts, and at `DATA_TIMEOUT` the fault is logged, its
request is taken off the order queue and it is `Idle`. -/
def Obligations.WaitingEndsAtTheTimeout : Prop :=
  ∀ s d,
    (s.pm.state = .awaitingData → d ≠ some .pm →
      let t := stepPm d s
      t.pm.wait = s.pm.wait + 1 ∧ t.pm.cmd = s.pm.cmd ∧ t.pm.beat = s.pm.beat ∧ t.pm.retry = s.pm.retry ∧ t.cm = s.cm ∧
      t.out.rdReqCount = s.out.rdReqCount ∧ t.out.res = s.out.res ∧ KeepsSession s t ∧ KeepsPools s t ∧ KeepsTags s t ∧
      KeepsQueues s t ∧ KeepsSignals s t ∧ KeepsStorage s t ∧
      (s.pm.wait + 1 < s.cfg.dataTimeout → t.pm.state = .awaitingData ∧ t.rdq = s.rdq ∧ NotLogged s t) ∧
      (s.cfg.dataTimeout ≤ s.pm.wait + 1 → t.pm.state = .idle ∧ t.rdq = s.rdq.filter (fun m => decide (m ≠ .pm)) ∧
        Logged .dataPhaseTimeout (if s.pm.cmd.dir = .read then .prRdMem else .prWrMem) s t)) ∧
    (s.cm.state = .awaitingConfigData → d ≠ some .cm →
      let t := stepCm d s
      t.cm.wait = s.cm.wait + 1 ∧ t.cm.cmd = s.cm.cmd ∧ t.cm.resp = s.cm.resp ∧ t.cm.retry = s.cm.retry ∧ t.pm = s.pm ∧
      t.out.rdReqCount = s.out.rdReqCount ∧ t.out.res = s.out.res ∧ KeepsSession s t ∧ KeepsPools s t ∧
      KeepsTags s t ∧ KeepsQueues s t ∧ KeepsSignals s t ∧ KeepsStorage s t ∧
      (s.cm.wait + 1 < s.cfg.dataTimeout → t.cm.state = .awaitingConfigData ∧ t.rdq = s.rdq ∧ NotLogged s t) ∧
      (s.cfg.dataTimeout ≤ s.cm.wait + 1 → t.cm.state = .idle ∧ t.rdq = s.rdq.filter (fun m => decide (m ≠ .cm)) ∧
        Logged .dataPhaseTimeout (if s.cm.cmd.dir = .read then .configRead else .configWrite) s t))

/-- A configuration read of the bytes a configuration write wrote gives them back at the same places of its beat, at every lane and
width the checks accept (R255). -/
def Obligations.ConfigWriteThenReadReturnsTheBytes : Prop :=
  ∀ (pa : BitVec 64) (wtag rtag : BitVec 16) (pl : BitVec 3) (n : Nat) (s : State),
    s.cm.state = .idle → s.cm.resp = none → plBytes s.cfg pl = some n → (n = 1 ∨ n = 2 ∨ n = 4) → pa.toNat % 4 + n ≤ 4 →
    ∃ w, exec (.configWrite pa wtag pl) s = .next w ∧
      ∀ v, v.cm.state = .awaitingConfigData → v.cm.cmd = w.cm.cmd → v.cfg = s.cfg → v.inp.cmdData.body.bad = false →
        ∀ u, u.regs = (stepCm (some .cm) v).regs → u.cfg = s.cfg → u.cm.state = .idle → u.cm.resp = none →
          ∃ t r b, exec (.configRead pa rtag pl) u = .next t ∧ t.cm.resp = some r ∧ r.beat = some b ∧
            ∀ i < n, beatByte b (pa.toNat % 64 + i) = beatByte v.inp.cmdData.body.data (pa.toNat % 64 + i)

/-- Over a whole step of a sound state, the environment's storage changes only through a good data beat delivered to the waiting machine
at the head of the order queue: a byte of memory only inside the latched window, a register only at the latched offset. -/
def Obligations.StorageChangesOnlyByADataPhase : Prop :=
  ∀ s t, Sound s → step s = .next t →
    (∀ a, byteAt t.mem a ≠ byteAt (takeInput s).mem a →
      s.pm.state = .awaitingData ∧ s.rdq.head? = some .pm ∧ (nextInput s).cmdData.valid = true ∧
      (nextInput s).xz.cmdData = false ∧ (nextInput s).cmdData.body.bad = false ∧
      ∃ i < s.pm.cmd.len, a = s.pm.cmd.addr + BitVec.ofNat 64 i ∧
        byteAt t.mem a = beatByte (nextInput s).cmdData.body.data (s.pm.cmd.off.toNat + i)) ∧
    (∀ o, wordAt t.regs o ≠ wordAt (takeInput s).regs o →
      s.cm.state = .awaitingConfigData ∧ s.rdq.head? = some .cm ∧ (nextInput s).cmdData.valid = true ∧
      (nextInput s).xz.cmdData = false ∧ (nextInput s).cmdData.body.bad = false ∧ o = regOffset s.cm.cmd.pa)

/-! ### The lifecycle machine (44_lifecycle_fsm.md) and the arbiter (45_command_arbiter.md) -/

/-- One lifecycle step per tick that yields a snapshot, by the transitions of R282 to R288 and no other (R281, R289). -/
def Obligations.LifecycleTransitions : Prop :=
  ∀ s t, yieldsSnapshot s = true → step s = .next t →
    let i := nextInput s
    (s.lc = .idle → t.lc = (if i.enable then .ready else .idle)) ∧
    (s.lc = .ready → ((∃ c < s.cfg.nCtx, i.ctxActive.getLsbD c = true) → t.lc = .running) ∧
      ((∀ c < s.cfg.nCtx, i.ctxActive.getLsbD c = false) → t.lc = .ready)) ∧
    (s.lc = .running → t.lc = (if i.resetCond then .resetting else if i.drainReq then .drainingResponses else .running)) ∧
    (s.lc = .resetting → t.lc = (if i.ctrlResetDone then .ready else .resetting)) ∧
    (s.lc = .drainingResponses →
      ((∀ c < s.cfg.nCtx, i.ctxActive.getLsbD c = true → i.ctxDone.getLsbD c = true) → t.lc = .halted) ∧
      ((∃ c < s.cfg.nCtx, i.ctxActive.getLsbD c = true ∧ i.ctxDone.getLsbD c = false) → t.lc = .drainingResponses)) ∧
    (s.lc = .halted → t.lc = .halted)

/-- Outside `Running` the arbiter updates the membership and does nothing else, and the phases before it leave the lifecycle state the
tick began with (R313). -/
def Obligations.NoGrantOutsideRunning : Prop :=
  (∀ s u v, runRequests s.inp.req (beginTick s) = .next u → sequencer (router u) = .next v → v.lc = s.lc) ∧
  (∀ s, s.lc ≠ .running → arbiter s = updateMembership s)

/-- The membership update (R310): the active contexts below `N_CTX`, each once; those that stay keep their order at the front, newcomers
join at the back in ascending order; nothing else changes. -/
def Obligations.MembershipKeepsOrder : Prop :=
  ∀ s, s.rot.Nodup →
    let active := fun c => c < s.cfg.nCtx ∧ s.inp.ctxActive.getLsbD c = true
    updateMembership s = { s with rot := (updateMembership s).rot } ∧
    (updateMembership s).rot.Nodup ∧ (∀ c, c ∈ (updateMembership s).rot ↔ active c) ∧
    ∃ kept joined, (updateMembership s).rot = kept ++ joined ∧ kept.Sublist s.rot ∧ (∀ c ∈ s.rot, active c → c ∈ kept) ∧
      joined.Pairwise (· < ·) ∧ ∀ c ∈ joined, c ∉ s.rot

/-- The grant (R314 to R317): with every resource there, the first ready context of the rotation gets a credit, a free tag bound to it
and its command on the command interface, and alone moves to the back; with one missing, or none ready, nothing changes. -/
def Obligations.GrantIsAllOrNothing : Prop :=
  ∀ s, s.lc = .running → s.rot.Nodup →
    ((∀ c ∈ s.rot, s.inp.ready.getLsbD c = false) → grantStep s = s) ∧
    (∀ pre c post, s.rot = pre ++ c :: post → (∀ p ∈ pre, s.inp.ready.getLsbD p = false) → s.inp.ready.getLsbD c = true →
      ((0 < (s.pools.get .cmd).avail.toNat ∧ canDrive .cmdV s = true ∧ liveTags s < tagPool s) →
        let t := grantStep s
        let p := offeredParams s.inp c
        ∃ n, n < tagPool s ∧ lookup s.tags n = none ∧ (s.cfg.allocPolicy = .lowest → ∀ m < n, lookup s.tags m ≠ none) ∧
          lookup t.tags n = some (BitVec.ofNat 8 c) ∧ (∀ m, m ≠ n → lookup t.tags m = lookup s.tags m) ∧
          TookCredit .cmd s t ∧
          Drove (.cmd { CmdRec.zero with opcode := p.opcode, ea := p.ea, dl := p.dl, pl := p.pl, tag := BitVec.ofNat 16 n }) s t ∧
          t.rot = pre ++ post ++ [c] ∧ NotLogged s t ∧ KeepsMachines s t ∧ KeepsStorage s t ∧ KeepsQueues s t ∧ t.lc = s.lc ∧
          t.out.res = s.out.res) ∧
      (¬ (0 < (s.pools.get .cmd).avail.toNat ∧ canDrive .cmdV s = true ∧ liveTags s < tagPool s) → grantStep s = s))

/-- Fairness (R322): with the same contexts active and ready at every one of a run of grants, grant `i` goes to the context at place
`i mod k` of the rotation at the first, and each grant turns the rotation by one. -/
def Obligations.GrantsAreRoundRobin : Prop :=
  ∀ (ss : Nat → State) (k : Nat), (ss 0).rot.length = k → 0 < k → (ss 0).rot.Nodup →
    (∀ i, (ss i).lc = .running) →
    (∀ i c, c ∈ (ss 0).rot ↔ c < (ss i).cfg.nCtx ∧ (ss i).inp.ctxActive.getLsbD c = true) →
    (∀ i, ∀ c ∈ (ss 0).rot, (ss i).inp.ready.getLsbD c = true) →
    (∀ i, 0 < ((ss i).pools.get .cmd).avail.toNat ∧ canDrive .cmdV (ss i) = true ∧ liveTags (ss i) < tagPool (ss i)) →
    (∀ i, (ss (i + 1)).rot = (arbiter (ss i)).rot) →
    ∀ i, candidate (updateMembership (ss i)) = (ss 0).rot[i % k]? ∧ (arbiter (ss i)).out.ev.cmd.isSome = true ∧
      (arbiter (ss i)).rot = (ss i).rot.rotate 1
end

