-- ==== Sys2Proof/Laws/Operands.lean ====
section
/-! SUPPORT. The laws of operand forms: fields of a word and the word of fields, codes and what they name, little-endian values,
placement in a beat, masking and data operands. -/

namespace Sys2Proof.Machine

/-! ### Fields of a REQ32 word -/

@[simp] theorem fieldOp_wordOf (op : BitVec 6) (k : BitVec 2) (a : BitVec 8) (b : BitVec 16) :
    fieldOp (wordOf op k a b) = op := by
  ext i hi; simp only [fieldOp, wordOf, BitVec.getElem_extractLsb', BitVec.getLsbD_append]
  rw [if_neg (by omega), if_neg (by omega), if_neg (by omega), BitVec.getLsbD_eq_getElem (by omega)]
  congr 1; omega

@[simp] theorem fieldK_wordOf (op : BitVec 6) (k : BitVec 2) (a : BitVec 8) (b : BitVec 16) :
    fieldK (wordOf op k a b) = k := by
  ext i hi; simp only [fieldK, wordOf, BitVec.getElem_extractLsb', BitVec.getLsbD_append]
  rw [if_neg (by omega), if_neg (by omega), if_pos (by omega), BitVec.getLsbD_eq_getElem (by omega)]
  congr 1; omega

@[simp] theorem fieldA_wordOf (op : BitVec 6) (k : BitVec 2) (a : BitVec 8) (b : BitVec 16) :
    fieldA (wordOf op k a b) = a := by
  ext i hi; simp only [fieldA, wordOf, BitVec.getElem_extractLsb', BitVec.getLsbD_append]
  rw [if_neg (by omega), if_pos (by omega), BitVec.getLsbD_eq_getElem (by omega)]
  congr 1; omega

@[simp] theorem fieldB_wordOf (op : BitVec 6) (k : BitVec 2) (a : BitVec 8) (b : BitVec 16) :
    fieldB (wordOf op k a b) = b := by
  ext i hi; simp only [fieldB, wordOf, BitVec.getElem_extractLsb', BitVec.getLsbD_append]
  rw [if_pos (by omega), BitVec.getLsbD_eq_getElem (by omega)]
  congr 1; omega

@[simp] theorem fieldLocal_wordOf (op : BitVec 6) (k : BitVec 2) (a l p : BitVec 8) :
    fieldLocal (wordOf op k a (l ++ p)) = l := by
  ext i hi; simp only [fieldLocal, wordOf, BitVec.getElem_extractLsb', BitVec.getLsbD_append]
  rw [if_pos (by omega), if_neg (by omega), BitVec.getLsbD_eq_getElem (by omega)]
  congr 1; omega

@[simp] theorem fieldPeer_wordOf (op : BitVec 6) (k : BitVec 2) (a l p : BitVec 8) :
    fieldPeer (wordOf op k a (l ++ p)) = p := by
  ext i hi; simp only [fieldPeer, wordOf, BitVec.getElem_extractLsb', BitVec.getLsbD_append]
  rw [if_pos (by omega), if_pos (by omega), BitVec.getLsbD_eq_getElem (by omega)]
  congr 1; omega

/-- A word is the word of its four fields. -/
theorem wordOf_fields (w : Word) : wordOf (fieldOp w) (fieldK w) (fieldA w) (fieldB w) = w := by
  apply BitVec.eq_of_getLsbD_eq
  intro i hi
  simp only [wordOf, fieldOp, fieldK, fieldA, fieldB, BitVec.getLsbD_append, BitVec.getLsbD_extractLsb']
  split_ifs with h1 h2 h3
  · simp [h1]
  · simp only [h2, decide_true, Bool.true_and]; congr 1; omega
  · simp only [h3, decide_true, Bool.true_and]; congr 1; omega
  · have h4 : i - 16 - 8 - 2 < 6 := by omega
    simp only [h4, decide_true, Bool.true_and]; congr 1; omega

/-- The two counts of a negotiation are the two halves of `B`. -/
theorem fieldLocal_append_fieldPeer (w : Word) : fieldLocal w ++ fieldPeer w = fieldB w := by
  ext i hi
  simp only [fieldLocal, fieldPeer, fieldB, BitVec.getElem_append, BitVec.getElem_extractLsb']
  split
  · rfl
  · congr 1; omega

/-! ### Codes -/

@[simp] theorem kindOfCode_codeOfKind (k : CreditKind) : kindOfCode (codeOfKind k) = k := by cases k <;> rfl

@[simp] theorem codeOfKind_kindOfCode (k : BitVec 2) : codeOfKind (kindOfCode k) = k := by
  revert k; decide

@[simp] theorem signalOfCode_codeOfSignal (k : Signal) : signalOfCode (codeOfSignal k) = k := by cases k <;> rfl

@[simp] theorem codeOfSignal_signalOfCode (k : BitVec 2) : codeOfSignal (signalOfCode k) = k := by
  revert k; decide

@[simp] theorem dataPayload_signal (k : DataKind) (p : DataRec) : (dataPayload k p).signal = signalOfData k := by
  cases k <;> rfl

/-! ### Lengths the machines accept -/

theorem partialLen_mem {c : Config} {pl : BitVec 3} {n : Nat} (h : partialLen c pl = some n) :
    n = 1 ∨ n = 2 ∨ n = 4 ∨ n = 8 := by
  unfold partialLen at h
  split at h
  · split at h
    · cases h; assumption
    · cases h
  · cases h

theorem configLen_mem {c : Config} {pl : BitVec 3} {n : Nat} (h : configLen c pl = some n) : n = 1 ∨ n = 2 ∨ n = 4 := by
  unfold configLen at h
  split at h
  · split at h
    · cases h; assumption
    · cases h
  · cases h

/-! ### Little-endian values -/

@[simp] theorem length_leBytes (n v : Nat) : (leBytes n v).length = n := by
  induction n generalizing v with
  | zero => rfl
  | succ n ih => simp [leBytes, ih]

theorem leValue_leBytes (n v : Nat) : leValue (leBytes n v) = v % 256 ^ n := by
  induction n generalizing v with
  | zero => simp [leBytes, leValue, Nat.mod_one]
  | succ n ih =>
    have h : v % (256 * 256 ^ n) = v % 256 + 256 * (v / 256 % 256 ^ n) := Nat.mod_mul
    simp only [leBytes, leValue, ih, BitVec.toNat_ofNat]
    rw [show (256 : Nat) ^ (n + 1) = 256 * 256 ^ n from Nat.pow_succ', h]

theorem leValue_lt (bs : List Byte) : leValue bs < 256 ^ bs.length := by
  induction bs with
  | nil => simp [leValue]
  | cons b bs ih =>
    have hb := b.isLt
    simp only [leValue, List.length_cons, pow_succ]
    omega

theorem leBytes_leValue (bs : List Byte) : leBytes bs.length (leValue bs) = bs := by
  induction bs with
  | nil => rfl
  | cons b bs ih =>
    have hb := b.isLt
    simp only [leValue, List.length_cons, leBytes]
    have h1 : (b.toNat + 256 * leValue bs) / 256 = leValue bs := by omega
    rw [h1, ih]
    congr 1
    apply BitVec.eq_of_toNat_eq
    simp only [BitVec.toNat_ofNat]
    omega

/-! ### Placement in a beat -/

@[simp] theorem length_extractBytes (b : Beat) (off len : Nat) : (extractBytes b off len).length = len := by
  simp [extractBytes]

theorem getD_extractBytes (b : Beat) (off : Nat) {len i : Nat} (h : i < len) :
    (extractBytes b off len).getD i 0 = beatByte b (off + i) := by
  simp [extractBytes, List.getD, h]

/-- A byte of a beat after an insertion: the inserted byte inside the window, the old one outside. -/
theorem beatByte_insertBytes (b : Beat) (off : Nat) (bs : List Byte) {i : Nat} (h : i < 64) :
    beatByte (insertBytes b off bs) i =
      if off ≤ i ∧ i < off + bs.length then bs.getD (i - off) 0 else beatByte b i := by
  simp [beatByte, insertBytes, h]

/-- Extracting the window of an insertion gives the bytes inserted. -/
theorem extractBytes_insertBytes (b : Beat) (off : Nat) (bs : List Byte) (h : off + bs.length ≤ 64) :
    extractBytes (insertBytes b off bs) off bs.length = bs := by
  apply List.ext_getElem (by simp)
  intro i h1 h2
  have hi : off + i < 64 := by omega
  simp [extractBytes, beatByte_insertBytes b off bs hi, h2]

@[simp] theorem length_overlayBytes (w : List Byte) (lane : Nat) (bs : List Byte) :
    (overlayBytes w lane bs).length = w.length := by
  simp [overlayBytes]

/-! ### Masking and data operands -/

@[simp] theorem maskCmd_maskCmd (c : Config) (p : CmdRec) : maskCmd c (maskCmd c p) = maskCmd c p := by
  simp [maskCmd, maskBits]

@[simp] theorem maskCmd_fits (c : Config) (p : CmdRec) : (maskCmd c p).fits c = true := by
  simp [CmdRec.fits]

@[simp] theorem length_takeBeats (n : Nat) (bs : List Beat) : (takeBeats n bs).length = n := by
  induction n generalizing bs with
  | zero => rfl
  | succ n ih => cases bs <;> simp [takeBeats, ih]

theorem takeBeats_of_length {n : Nat} {bs : List Beat} (h : bs.length = n) : takeBeats n bs = bs := by
  induction n generalizing bs with
  | zero => cases bs with
    | nil => rfl
    | cons b bs => simp at h
  | succ n ih =>
    cases bs with
    | nil => simp at h
    | cons b bs => simp only [takeBeats]; rw [ih (by simpa using h)]

/-! ### Operand forms as arithmetic -/

/-- The beat offset as arithmetic. -/
theorem beatOffset_toNat (a : BitVec 64) : (beatOffset a).toNat = a.toNat % 64 := by
  simp [beatOffset, BitVec.extractLsb'_toNat]

/-- The register lane as arithmetic. -/
theorem regLane_eq (a : BitVec 64) : regLane a = a.toNat % 4 := by
  simp [regLane, BitVec.extractLsb'_toNat]

/-- The register offset as arithmetic. -/
theorem regOffset_toNat (pa : BitVec 64) : (regOffset pa).toNat = pa.toNat % 2 ^ 32 / 4 * 4 := by
  have h : regOffset pa = BitVec.ofNat 32 (pa.toNat % 2 ^ 32 / 4 * 4) := by
    unfold regOffset
    have : pa.extractLsb' 0 32 = BitVec.ofNat 32 pa.toNat := by
      apply BitVec.eq_of_toNat_eq; simp [BitVec.extractLsb'_toNat]
    rw [this]
    generalize pa.toNat = v
    have e : v % 2 ^ 32 / 4 * 4 = ((v % 2^32) >>> 2) <<< 2 := by
      rw [Nat.shiftRight_eq_div_pow, Nat.shiftLeft_eq]
    rw [e]
    apply BitVec.eq_of_getLsbD_eq
    intro i hi
    rw [BitVec.getLsbD_and, BitVec.getLsbD_ofNat (x := (v % 2 ^ 32) >>> 2 <<< 2), Nat.testBit_shiftLeft, Nat.testBit_shiftRight,
        Nat.testBit_mod_two_pow,
      BitVec.getLsbD_ofNat]
    by_cases h2 : 2 ≤ i
    · have : (0xFFFFFFFC#32).getLsbD i = true := by
        have : ∀ i < 32, 2 ≤ i → (0xFFFFFFFC#32).getLsbD i = true := by decide
        exact this i hi h2
      have e2 : 2 + (i - 2) = i := by omega
      simp [this, h2, hi, e2]
    · have : (0xFFFFFFFC#32).getLsbD i = false := by
        have : ∀ i < 2, (0xFFFFFFFC#32).getLsbD i = false := by decide
        exact this i (by omega)
      simp [this, h2]
  rw [h, BitVec.toNat_ofNat, Nat.mod_eq_of_lt]
  omega

theorem partialLen_of_bytes {c : Config} {pl : BitVec 3} {n : Nat} (h : plBytes c pl = some n)
    (hn : n = 1 ∨ n = 2 ∨ n = 4 ∨ n = 8) : partialLen c pl = some n := by
  simp [partialLen, h, hn]

theorem partialLen_of_not {c : Config} {pl : BitVec 3} (h : ∀ n, plBytes c pl = some n → ¬ (n = 1 ∨ n = 2 ∨ n = 4 ∨ n = 8)) :
    partialLen c pl = none := by
  unfold partialLen; split
  · rename_i n hn; rw [if_neg (h n hn)]
  · rfl

theorem configLen_of_bytes {c : Config} {pl : BitVec 3} {n : Nat} (h : plBytes c pl = some n) (hn : n = 1 ∨ n = 2 ∨ n = 4) :
    configLen c pl = some n := by
  simp [configLen, h, hn]

theorem configLen_of_not {c : Config} {pl : BitVec 3} (h : ∀ n, plBytes c pl = some n → ¬ (n = 1 ∨ n = 2 ∨ n = 4)) :
    configLen c pl = none := by
  unfold configLen; split
  · rename_i n hn; rw [if_neg (h n hn)]
  · rfl

/-- Byte `i` of a little-endian value. -/
theorem getD_leBytes (n v i : Nat) (h : i < n) : ((leBytes n v).getD i 0).toNat = v / 256 ^ i % 256 := by
  induction n generalizing v i with
  | zero => omega
  | succ n ih =>
    cases i with
    | zero => simp [leBytes]
    | succ i =>
      have := ih (v / 256) i (by omega)
      rw [leBytes, List.getD_cons_succ, this, Nat.div_div_eq_div_mul, pow_succ']

/-- Byte `j` of the value of a list of bytes. -/
theorem leValue_byte (bs : List Byte) (j : Nat) (h : j < bs.length) : leValue bs / 256 ^ j % 256 = (bs.getD j 0).toNat := by
  have := getD_leBytes bs.length (leValue bs) j h
  rw [leBytes_leValue] at this; exact this.symm

end Sys2Proof.Machine
end

