-- ==== Sys2Proof/Laws/State.lean ====
section
/-! SUPPORT. One lemma per field per update: what each shared operation leaves of the state, and what it makes of the fields it
writes. -/

namespace Sys2Proof.Machine

@[simp] theorem Four.get_set_self {α : Type} (f : Four α) (k : CreditKind) (v : α) : (f.set k v).get k = v := by
  cases k <;> rfl

theorem Four.get_set_ne {α : Type} (f : Four α) {k j : CreditKind} (h : j ≠ k) (v : α) : (f.set k v).get j = f.get j := by
  cases k <;> cases j <;> first | rfl | exact absurd rfl h

@[simp] theorem logFault_cfg (k : FaultKind) (op : OpName) (s : State) : (logFault k op s).cfg = s.cfg := rfl
@[simp] theorem logFault_pools (k : FaultKind) (op : OpName) (s : State) : (logFault k op s).pools = s.pools := rfl
@[simp] theorem logFault_tags (k : FaultKind) (op : OpName) (s : State) : (logFault k op s).tags = s.tags := rfl
@[simp] theorem logFault_fifo (k : FaultKind) (op : OpName) (s : State) : (logFault k op s).fifo = s.fifo := rfl
@[simp] theorem logFault_drained (k : FaultKind) (op : OpName) (s : State) : (logFault k op s).drained = s.drained := rfl
@[simp] theorem logFault_pm (k : FaultKind) (op : OpName) (s : State) : (logFault k op s).pm = s.pm := rfl
@[simp] theorem logFault_cm (k : FaultKind) (op : OpName) (s : State) : (logFault k op s).cm = s.cm := rfl
@[simp] theorem logFault_rdq (k : FaultKind) (op : OpName) (s : State) : (logFault k op s).rdq = s.rdq := rfl
@[simp] theorem logFault_lc (k : FaultKind) (op : OpName) (s : State) : (logFault k op s).lc = s.lc := rfl
@[simp] theorem logFault_rot (k : FaultKind) (op : OpName) (s : State) : (logFault k op s).rot = s.rot := rfl
@[simp] theorem logFault_sigs (k : FaultKind) (op : OpName) (s : State) : (logFault k op s).sigs = s.sigs := rfl
@[simp] theorem logFault_cycle (k : FaultKind) (op : OpName) (s : State) : (logFault k op s).cycle = s.cycle := rfl
@[simp] theorem logFault_diag (k : FaultKind) (op : OpName) (s : State) :
    (logFault k op s).diag = s.diag ++ [{ cycle := s.cycle, op := op, kind := k }] := rfl
@[simp] theorem logFault_closed (k : FaultKind) (op : OpName) (s : State) : (logFault k op s).closed = s.closed := rfl
@[simp] theorem logFault_mem (k : FaultKind) (op : OpName) (s : State) : (logFault k op s).mem = s.mem := rfl
@[simp] theorem logFault_regs (k : FaultKind) (op : OpName) (s : State) : (logFault k op s).regs = s.regs := rfl
@[simp] theorem logFault_inp (k : FaultKind) (op : OpName) (s : State) : (logFault k op s).inp = s.inp := rfl
@[simp] theorem logFault_pending (k : FaultKind) (op : OpName) (s : State) : (logFault k op s).pending = s.pending := rfl
@[simp] theorem logFault_freeCtr (k : FaultKind) (op : OpName) (s : State) : (logFault k op s).freeCtr = s.freeCtr := rfl
@[simp] theorem logFault_out_snap (k : FaultKind) (op : OpName) (s : State) : (logFault k op s).out.snap = s.out.snap := rfl
@[simp] theorem logFault_out_res (k : FaultKind) (op : OpName) (s : State) : (logFault k op s).out.res = s.out.res := rfl
@[simp] theorem logFault_out_respOut (k : FaultKind) (op : OpName) (s : State) : (logFault k op s).out.respOut = s.out.respOut := rfl
@[simp] theorem logFault_out_respDataOut (k : FaultKind) (op : OpName) (s : State) : (logFault k op s).out.respDataOut = s.out.respDataOut := rfl
@[simp] theorem logFault_out_diag (k : FaultKind) (op : OpName) (s : State) :
    (logFault k op s).out.diag = s.out.diag ++ [{ cycle := s.cycle, op := op, kind := k }] := rfl
@[simp] theorem logFault_out_ev (k : FaultKind) (op : OpName) (s : State) : (logFault k op s).out.ev = s.out.ev := rfl
@[simp] theorem logFault_out_rdReqCount (k : FaultKind) (op : OpName) (s : State) : (logFault k op s).out.rdReqCount = s.out.rdReqCount := rfl
@[simp] theorem logFault_out_accesses (k : FaultKind) (op : OpName) (s : State) : (logFault k op s).out.accesses = s.out.accesses := rfl

@[simp] theorem giveResult_cfg (r : Result) (s : State) : (giveResult r s).cfg = s.cfg := rfl
@[simp] theorem giveResult_pools (r : Result) (s : State) : (giveResult r s).pools = s.pools := rfl
@[simp] theorem giveResult_tags (r : Result) (s : State) : (giveResult r s).tags = s.tags := rfl
@[simp] theorem giveResult_fifo (r : Result) (s : State) : (giveResult r s).fifo = s.fifo := rfl
@[simp] theorem giveResult_drained (r : Result) (s : State) : (giveResult r s).drained = s.drained := rfl
@[simp] theorem giveResult_pm (r : Result) (s : State) : (giveResult r s).pm = s.pm := rfl
@[simp] theorem giveResult_cm (r : Result) (s : State) : (giveResult r s).cm = s.cm := rfl
@[simp] theorem giveResult_rdq (r : Result) (s : State) : (giveResult r s).rdq = s.rdq := rfl
@[simp] theorem giveResult_lc (r : Result) (s : State) : (giveResult r s).lc = s.lc := rfl
@[simp] theorem giveResult_rot (r : Result) (s : State) : (giveResult r s).rot = s.rot := rfl
@[simp] theorem giveResult_sigs (r : Result) (s : State) : (giveResult r s).sigs = s.sigs := rfl
@[simp] theorem giveResult_cycle (r : Result) (s : State) : (giveResult r s).cycle = s.cycle := rfl
@[simp] theorem giveResult_diag (r : Result) (s : State) : (giveResult r s).diag = s.diag := rfl
@[simp] theorem giveResult_closed (r : Result) (s : State) : (giveResult r s).closed = s.closed := rfl
@[simp] theorem giveResult_mem (r : Result) (s : State) : (giveResult r s).mem = s.mem := rfl
@[simp] theorem giveResult_regs (r : Result) (s : State) : (giveResult r s).regs = s.regs := rfl
@[simp] theorem giveResult_inp (r : Result) (s : State) : (giveResult r s).inp = s.inp := rfl
@[simp] theorem giveResult_pending (r : Result) (s : State) : (giveResult r s).pending = s.pending := rfl
@[simp] theorem giveResult_freeCtr (r : Result) (s : State) : (giveResult r s).freeCtr = s.freeCtr := rfl
@[simp] theorem giveResult_out_snap (r : Result) (s : State) : (giveResult r s).out.snap = s.out.snap := rfl
@[simp] theorem giveResult_out_res (r : Result) (s : State) :
    (giveResult r s).out.res = s.out.res ++ [r] := rfl
@[simp] theorem giveResult_out_respOut (r : Result) (s : State) : (giveResult r s).out.respOut = s.out.respOut := rfl
@[simp] theorem giveResult_out_respDataOut (r : Result) (s : State) : (giveResult r s).out.respDataOut = s.out.respDataOut := rfl
@[simp] theorem giveResult_out_diag (r : Result) (s : State) : (giveResult r s).out.diag = s.out.diag := rfl
@[simp] theorem giveResult_out_ev (r : Result) (s : State) : (giveResult r s).out.ev = s.out.ev := rfl
@[simp] theorem giveResult_out_rdReqCount (r : Result) (s : State) : (giveResult r s).out.rdReqCount = s.out.rdReqCount := rfl
@[simp] theorem giveResult_out_accesses (r : Result) (s : State) : (giveResult r s).out.accesses = s.out.accesses := rfl

@[simp] theorem takeCredit_cfg (k : CreditKind) (s : State) : (takeCredit k s).cfg = s.cfg := rfl
@[simp] theorem takeCredit_pools (k : CreditKind) (s : State) :
    (takeCredit k s).pools = s.pools.set k { s.pools.get k with avail := (s.pools.get k).avail - 1 } := rfl
@[simp] theorem takeCredit_tags (k : CreditKind) (s : State) : (takeCredit k s).tags = s.tags := rfl
@[simp] theorem takeCredit_fifo (k : CreditKind) (s : State) : (takeCredit k s).fifo = s.fifo := rfl
@[simp] theorem takeCredit_drained (k : CreditKind) (s : State) : (takeCredit k s).drained = s.drained := rfl
@[simp] theorem takeCredit_pm (k : CreditKind) (s : State) : (takeCredit k s).pm = s.pm := rfl
@[simp] theorem takeCredit_cm (k : CreditKind) (s : State) : (takeCredit k s).cm = s.cm := rfl
@[simp] theorem takeCredit_rdq (k : CreditKind) (s : State) : (takeCredit k s).rdq = s.rdq := rfl
@[simp] theorem takeCredit_lc (k : CreditKind) (s : State) : (takeCredit k s).lc = s.lc := rfl
@[simp] theorem takeCredit_rot (k : CreditKind) (s : State) : (takeCredit k s).rot = s.rot := rfl
@[simp] theorem takeCredit_sigs (k : CreditKind) (s : State) : (takeCredit k s).sigs = s.sigs := rfl
@[simp] theorem takeCredit_cycle (k : CreditKind) (s : State) : (takeCredit k s).cycle = s.cycle := rfl
@[simp] theorem takeCredit_diag (k : CreditKind) (s : State) : (takeCredit k s).diag = s.diag := rfl
@[simp] theorem takeCredit_closed (k : CreditKind) (s : State) : (takeCredit k s).closed = s.closed := rfl
@[simp] theorem takeCredit_mem (k : CreditKind) (s : State) : (takeCredit k s).mem = s.mem := rfl
@[simp] theorem takeCredit_regs (k : CreditKind) (s : State) : (takeCredit k s).regs = s.regs := rfl
@[simp] theorem takeCredit_inp (k : CreditKind) (s : State) : (takeCredit k s).inp = s.inp := rfl
@[simp] theorem takeCredit_pending (k : CreditKind) (s : State) : (takeCredit k s).pending = s.pending := rfl
@[simp] theorem takeCredit_out (k : CreditKind) (s : State) : (takeCredit k s).out = s.out := rfl
@[simp] theorem takeCredit_freeCtr (k : CreditKind) (s : State) : (takeCredit k s).freeCtr = s.freeCtr := rfl

@[simp] theorem addCredit_cfg (k : CreditKind) (s : State) : (addCredit k s).cfg = s.cfg := rfl
@[simp] theorem addCredit_pools (k : CreditKind) (s : State) :
    (addCredit k s).pools = s.pools.set k { s.pools.get k with avail := (s.pools.get k).avail + 1 } := rfl
@[simp] theorem addCredit_tags (k : CreditKind) (s : State) : (addCredit k s).tags = s.tags := rfl
@[simp] theorem addCredit_fifo (k : CreditKind) (s : State) : (addCredit k s).fifo = s.fifo := rfl
@[simp] theorem addCredit_drained (k : CreditKind) (s : State) : (addCredit k s).drained = s.drained := rfl
@[simp] theorem addCredit_pm (k : CreditKind) (s : State) : (addCredit k s).pm = s.pm := rfl
@[simp] theorem addCredit_cm (k : CreditKind) (s : State) : (addCredit k s).cm = s.cm := rfl
@[simp] theorem addCredit_rdq (k : CreditKind) (s : State) : (addCredit k s).rdq = s.rdq := rfl
@[simp] theorem addCredit_lc (k : CreditKind) (s : State) : (addCredit k s).lc = s.lc := rfl
@[simp] theorem addCredit_rot (k : CreditKind) (s : State) : (addCredit k s).rot = s.rot := rfl
@[simp] theorem addCredit_sigs (k : CreditKind) (s : State) : (addCredit k s).sigs = s.sigs := rfl
@[simp] theorem addCredit_cycle (k : CreditKind) (s : State) : (addCredit k s).cycle = s.cycle := rfl
@[simp] theorem addCredit_diag (k : CreditKind) (s : State) : (addCredit k s).diag = s.diag := rfl
@[simp] theorem addCredit_closed (k : CreditKind) (s : State) : (addCredit k s).closed = s.closed := rfl
@[simp] theorem addCredit_mem (k : CreditKind) (s : State) : (addCredit k s).mem = s.mem := rfl
@[simp] theorem addCredit_regs (k : CreditKind) (s : State) : (addCredit k s).regs = s.regs := rfl
@[simp] theorem addCredit_inp (k : CreditKind) (s : State) : (addCredit k s).inp = s.inp := rfl
@[simp] theorem addCredit_pending (k : CreditKind) (s : State) : (addCredit k s).pending = s.pending := rfl
@[simp] theorem addCredit_out (k : CreditKind) (s : State) : (addCredit k s).out = s.out := rfl
@[simp] theorem addCredit_freeCtr (k : CreditKind) (s : State) : (addCredit k s).freeCtr = s.freeCtr := rfl

@[simp] theorem setPool_cfg (k : CreditKind) (n : BitVec 8) (s : State) : (setPool k n s).cfg = s.cfg := rfl
@[simp] theorem setPool_pools (k : CreditKind) (n : BitVec 8) (s : State) :
    (setPool k n s).pools = s.pools.set k { initial := n, avail := n, negotiated := true } := rfl
@[simp] theorem setPool_tags (k : CreditKind) (n : BitVec 8) (s : State) : (setPool k n s).tags = s.tags := rfl
@[simp] theorem setPool_fifo (k : CreditKind) (n : BitVec 8) (s : State) : (setPool k n s).fifo = s.fifo := rfl
@[simp] theorem setPool_drained (k : CreditKind) (n : BitVec 8) (s : State) : (setPool k n s).drained = s.drained := rfl
@[simp] theorem setPool_pm (k : CreditKind) (n : BitVec 8) (s : State) : (setPool k n s).pm = s.pm := rfl
@[simp] theorem setPool_cm (k : CreditKind) (n : BitVec 8) (s : State) : (setPool k n s).cm = s.cm := rfl
@[simp] theorem setPool_rdq (k : CreditKind) (n : BitVec 8) (s : State) : (setPool k n s).rdq = s.rdq := rfl
@[simp] theorem setPool_lc (k : CreditKind) (n : BitVec 8) (s : State) : (setPool k n s).lc = s.lc := rfl
@[simp] theorem setPool_rot (k : CreditKind) (n : BitVec 8) (s : State) : (setPool k n s).rot = s.rot := rfl
@[simp] theorem setPool_sigs (k : CreditKind) (n : BitVec 8) (s : State) : (setPool k n s).sigs = s.sigs := rfl
@[simp] theorem setPool_cycle (k : CreditKind) (n : BitVec 8) (s : State) : (setPool k n s).cycle = s.cycle := rfl
@[simp] theorem setPool_diag (k : CreditKind) (n : BitVec 8) (s : State) : (setPool k n s).diag = s.diag := rfl
@[simp] theorem setPool_closed (k : CreditKind) (n : BitVec 8) (s : State) : (setPool k n s).closed = s.closed := rfl
@[simp] theorem setPool_mem (k : CreditKind) (n : BitVec 8) (s : State) : (setPool k n s).mem = s.mem := rfl
@[simp] theorem setPool_regs (k : CreditKind) (n : BitVec 8) (s : State) : (setPool k n s).regs = s.regs := rfl
@[simp] theorem setPool_inp (k : CreditKind) (n : BitVec 8) (s : State) : (setPool k n s).inp = s.inp := rfl
@[simp] theorem setPool_pending (k : CreditKind) (n : BitVec 8) (s : State) : (setPool k n s).pending = s.pending := rfl
@[simp] theorem setPool_out (k : CreditKind) (n : BitVec 8) (s : State) : (setPool k n s).out = s.out := rfl
@[simp] theorem setPool_freeCtr (k : CreditKind) (n : BitVec 8) (s : State) : (setPool k n s).freeCtr = s.freeCtr := rfl

@[simp] theorem bindTag_cfg (t : Nat) (r : BitVec 8) (s : State) : (bindTag t r s).cfg = s.cfg := rfl
@[simp] theorem bindTag_pools (t : Nat) (r : BitVec 8) (s : State) : (bindTag t r s).pools = s.pools := rfl
@[simp] theorem bindTag_tags (t : Nat) (r : BitVec 8) (s : State) :
    (bindTag t r s).tags = insertAt t r s.tags := rfl
@[simp] theorem bindTag_fifo (t : Nat) (r : BitVec 8) (s : State) : (bindTag t r s).fifo = s.fifo := rfl
@[simp] theorem bindTag_drained (t : Nat) (r : BitVec 8) (s : State) : (bindTag t r s).drained = s.drained := rfl
@[simp] theorem bindTag_pm (t : Nat) (r : BitVec 8) (s : State) : (bindTag t r s).pm = s.pm := rfl
@[simp] theorem bindTag_cm (t : Nat) (r : BitVec 8) (s : State) : (bindTag t r s).cm = s.cm := rfl
@[simp] theorem bindTag_rdq (t : Nat) (r : BitVec 8) (s : State) : (bindTag t r s).rdq = s.rdq := rfl
@[simp] theorem bindTag_lc (t : Nat) (r : BitVec 8) (s : State) : (bindTag t r s).lc = s.lc := rfl
@[simp] theorem bindTag_rot (t : Nat) (r : BitVec 8) (s : State) : (bindTag t r s).rot = s.rot := rfl
@[simp] theorem bindTag_sigs (t : Nat) (r : BitVec 8) (s : State) : (bindTag t r s).sigs = s.sigs := rfl
@[simp] theorem bindTag_cycle (t : Nat) (r : BitVec 8) (s : State) : (bindTag t r s).cycle = s.cycle := rfl
@[simp] theorem bindTag_diag (t : Nat) (r : BitVec 8) (s : State) : (bindTag t r s).diag = s.diag := rfl
@[simp] theorem bindTag_closed (t : Nat) (r : BitVec 8) (s : State) : (bindTag t r s).closed = s.closed := rfl
@[simp] theorem bindTag_mem (t : Nat) (r : BitVec 8) (s : State) : (bindTag t r s).mem = s.mem := rfl
@[simp] theorem bindTag_regs (t : Nat) (r : BitVec 8) (s : State) : (bindTag t r s).regs = s.regs := rfl
@[simp] theorem bindTag_inp (t : Nat) (r : BitVec 8) (s : State) : (bindTag t r s).inp = s.inp := rfl
@[simp] theorem bindTag_pending (t : Nat) (r : BitVec 8) (s : State) : (bindTag t r s).pending = s.pending := rfl
@[simp] theorem bindTag_out (t : Nat) (r : BitVec 8) (s : State) : (bindTag t r s).out = s.out := rfl
@[simp] theorem bindTag_freeCtr (t : Nat) (r : BitVec 8) (s : State) : (bindTag t r s).freeCtr = s.freeCtr := rfl

@[simp] theorem unbindTag_cfg (t : Nat) (s : State) : (unbindTag t s).cfg = s.cfg := rfl
@[simp] theorem unbindTag_pools (t : Nat) (s : State) : (unbindTag t s).pools = s.pools := rfl
@[simp] theorem unbindTag_tags (t : Nat) (s : State) :
    (unbindTag t s).tags = removeAt t s.tags := rfl
@[simp] theorem unbindTag_fifo (t : Nat) (s : State) : (unbindTag t s).fifo = s.fifo := rfl
@[simp] theorem unbindTag_drained (t : Nat) (s : State) : (unbindTag t s).drained = s.drained := rfl
@[simp] theorem unbindTag_pm (t : Nat) (s : State) : (unbindTag t s).pm = s.pm := rfl
@[simp] theorem unbindTag_cm (t : Nat) (s : State) : (unbindTag t s).cm = s.cm := rfl
@[simp] theorem unbindTag_rdq (t : Nat) (s : State) : (unbindTag t s).rdq = s.rdq := rfl
@[simp] theorem unbindTag_lc (t : Nat) (s : State) : (unbindTag t s).lc = s.lc := rfl
@[simp] theorem unbindTag_rot (t : Nat) (s : State) : (unbindTag t s).rot = s.rot := rfl
@[simp] theorem unbindTag_sigs (t : Nat) (s : State) : (unbindTag t s).sigs = s.sigs := rfl
@[simp] theorem unbindTag_cycle (t : Nat) (s : State) : (unbindTag t s).cycle = s.cycle := rfl
@[simp] theorem unbindTag_diag (t : Nat) (s : State) : (unbindTag t s).diag = s.diag := rfl
@[simp] theorem unbindTag_closed (t : Nat) (s : State) : (unbindTag t s).closed = s.closed := rfl
@[simp] theorem unbindTag_mem (t : Nat) (s : State) : (unbindTag t s).mem = s.mem := rfl
@[simp] theorem unbindTag_regs (t : Nat) (s : State) : (unbindTag t s).regs = s.regs := rfl
@[simp] theorem unbindTag_inp (t : Nat) (s : State) : (unbindTag t s).inp = s.inp := rfl
@[simp] theorem unbindTag_pending (t : Nat) (s : State) : (unbindTag t s).pending = s.pending := rfl
@[simp] theorem unbindTag_out (t : Nat) (s : State) : (unbindTag t s).out = s.out := rfl
@[simp] theorem unbindTag_freeCtr (t : Nat) (s : State) : (unbindTag t s).freeCtr = s.freeCtr := rfl

@[simp] theorem setQueue_cfg (x : BitVec 8) (q : List Beat) (s : State) : (setQueue x q s).cfg = s.cfg := rfl
@[simp] theorem setQueue_pools (x : BitVec 8) (q : List Beat) (s : State) : (setQueue x q s).pools = s.pools := rfl
@[simp] theorem setQueue_tags (x : BitVec 8) (q : List Beat) (s : State) : (setQueue x q s).tags = s.tags := rfl
@[simp] theorem setQueue_fifo (x : BitVec 8) (q : List Beat) (s : State) :
    (setQueue x q s).fifo = if q.isEmpty then removeAt x.toNat s.fifo else insertAt x.toNat q s.fifo := rfl
@[simp] theorem setQueue_drained (x : BitVec 8) (q : List Beat) (s : State) : (setQueue x q s).drained = s.drained := rfl
@[simp] theorem setQueue_pm (x : BitVec 8) (q : List Beat) (s : State) : (setQueue x q s).pm = s.pm := rfl
@[simp] theorem setQueue_cm (x : BitVec 8) (q : List Beat) (s : State) : (setQueue x q s).cm = s.cm := rfl
@[simp] theorem setQueue_rdq (x : BitVec 8) (q : List Beat) (s : State) : (setQueue x q s).rdq = s.rdq := rfl
@[simp] theorem setQueue_lc (x : BitVec 8) (q : List Beat) (s : State) : (setQueue x q s).lc = s.lc := rfl
@[simp] theorem setQueue_rot (x : BitVec 8) (q : List Beat) (s : State) : (setQueue x q s).rot = s.rot := rfl
@[simp] theorem setQueue_sigs (x : BitVec 8) (q : List Beat) (s : State) : (setQueue x q s).sigs = s.sigs := rfl
@[simp] theorem setQueue_cycle (x : BitVec 8) (q : List Beat) (s : State) : (setQueue x q s).cycle = s.cycle := rfl
@[simp] theorem setQueue_diag (x : BitVec 8) (q : List Beat) (s : State) : (setQueue x q s).diag = s.diag := rfl
@[simp] theorem setQueue_closed (x : BitVec 8) (q : List Beat) (s : State) : (setQueue x q s).closed = s.closed := rfl
@[simp] theorem setQueue_mem (x : BitVec 8) (q : List Beat) (s : State) : (setQueue x q s).mem = s.mem := rfl
@[simp] theorem setQueue_regs (x : BitVec 8) (q : List Beat) (s : State) : (setQueue x q s).regs = s.regs := rfl
@[simp] theorem setQueue_inp (x : BitVec 8) (q : List Beat) (s : State) : (setQueue x q s).inp = s.inp := rfl
@[simp] theorem setQueue_pending (x : BitVec 8) (q : List Beat) (s : State) : (setQueue x q s).pending = s.pending := rfl
@[simp] theorem setQueue_out (x : BitVec 8) (q : List Beat) (s : State) : (setQueue x q s).out = s.out := rfl
@[simp] theorem setQueue_freeCtr (x : BitVec 8) (q : List Beat) (s : State) : (setQueue x q s).freeCtr = s.freeCtr := rfl

@[simp] theorem markDrained_cfg (x : BitVec 8) (s : State) : (markDrained x s).cfg = s.cfg := rfl
@[simp] theorem markDrained_pools (x : BitVec 8) (s : State) : (markDrained x s).pools = s.pools := rfl
@[simp] theorem markDrained_tags (x : BitVec 8) (s : State) : (markDrained x s).tags = s.tags := rfl
@[simp] theorem markDrained_fifo (x : BitVec 8) (s : State) : (markDrained x s).fifo = s.fifo := rfl
@[simp] theorem markDrained_drained (x : BitVec 8) (s : State) :
    (markDrained x s).drained = insertAt x.toNat () s.drained := rfl
@[simp] theorem markDrained_pm (x : BitVec 8) (s : State) : (markDrained x s).pm = s.pm := rfl
@[simp] theorem markDrained_cm (x : BitVec 8) (s : State) : (markDrained x s).cm = s.cm := rfl
@[simp] theorem markDrained_rdq (x : BitVec 8) (s : State) : (markDrained x s).rdq = s.rdq := rfl
@[simp] theorem markDrained_lc (x : BitVec 8) (s : State) : (markDrained x s).lc = s.lc := rfl
@[simp] theorem markDrained_rot (x : BitVec 8) (s : State) : (markDrained x s).rot = s.rot := rfl
@[simp] theorem markDrained_sigs (x : BitVec 8) (s : State) : (markDrained x s).sigs = s.sigs := rfl
@[simp] theorem markDrained_cycle (x : BitVec 8) (s : State) : (markDrained x s).cycle = s.cycle := rfl
@[simp] theorem markDrained_diag (x : BitVec 8) (s : State) : (markDrained x s).diag = s.diag := rfl
@[simp] theorem markDrained_closed (x : BitVec 8) (s : State) : (markDrained x s).closed = s.closed := rfl
@[simp] theorem markDrained_mem (x : BitVec 8) (s : State) : (markDrained x s).mem = s.mem := rfl
@[simp] theorem markDrained_regs (x : BitVec 8) (s : State) : (markDrained x s).regs = s.regs := rfl
@[simp] theorem markDrained_inp (x : BitVec 8) (s : State) : (markDrained x s).inp = s.inp := rfl
@[simp] theorem markDrained_pending (x : BitVec 8) (s : State) : (markDrained x s).pending = s.pending := rfl
@[simp] theorem markDrained_out (x : BitVec 8) (s : State) : (markDrained x s).out = s.out := rfl
@[simp] theorem markDrained_freeCtr (x : BitVec 8) (s : State) : (markDrained x s).freeCtr = s.freeCtr := rfl

@[simp] theorem noteAccess_cfg (a : EnvAccess) (s : State) : (noteAccess a s).cfg = s.cfg := rfl
@[simp] theorem noteAccess_pools (a : EnvAccess) (s : State) : (noteAccess a s).pools = s.pools := rfl
@[simp] theorem noteAccess_tags (a : EnvAccess) (s : State) : (noteAccess a s).tags = s.tags := rfl
@[simp] theorem noteAccess_fifo (a : EnvAccess) (s : State) : (noteAccess a s).fifo = s.fifo := rfl
@[simp] theorem noteAccess_drained (a : EnvAccess) (s : State) : (noteAccess a s).drained = s.drained := rfl
@[simp] theorem noteAccess_pm (a : EnvAccess) (s : State) : (noteAccess a s).pm = s.pm := rfl
@[simp] theorem noteAccess_cm (a : EnvAccess) (s : State) : (noteAccess a s).cm = s.cm := rfl
@[simp] theorem noteAccess_rdq (a : EnvAccess) (s : State) : (noteAccess a s).rdq = s.rdq := rfl
@[simp] theorem noteAccess_lc (a : EnvAccess) (s : State) : (noteAccess a s).lc = s.lc := rfl
@[simp] theorem noteAccess_rot (a : EnvAccess) (s : State) : (noteAccess a s).rot = s.rot := rfl
@[simp] theorem noteAccess_sigs (a : EnvAccess) (s : State) : (noteAccess a s).sigs = s.sigs := rfl
@[simp] theorem noteAccess_cycle (a : EnvAccess) (s : State) : (noteAccess a s).cycle = s.cycle := rfl
@[simp] theorem noteAccess_diag (a : EnvAccess) (s : State) : (noteAccess a s).diag = s.diag := rfl
@[simp] theorem noteAccess_closed (a : EnvAccess) (s : State) : (noteAccess a s).closed = s.closed := rfl
@[simp] theorem noteAccess_mem (a : EnvAccess) (s : State) : (noteAccess a s).mem = s.mem := rfl
@[simp] theorem noteAccess_regs (a : EnvAccess) (s : State) : (noteAccess a s).regs = s.regs := rfl
@[simp] theorem noteAccess_inp (a : EnvAccess) (s : State) : (noteAccess a s).inp = s.inp := rfl
@[simp] theorem noteAccess_pending (a : EnvAccess) (s : State) : (noteAccess a s).pending = s.pending := rfl
@[simp] theorem noteAccess_freeCtr (a : EnvAccess) (s : State) : (noteAccess a s).freeCtr = s.freeCtr := rfl
@[simp] theorem noteAccess_out_snap (a : EnvAccess) (s : State) : (noteAccess a s).out.snap = s.out.snap := rfl
@[simp] theorem noteAccess_out_res (a : EnvAccess) (s : State) : (noteAccess a s).out.res = s.out.res := rfl
@[simp] theorem noteAccess_out_respOut (a : EnvAccess) (s : State) : (noteAccess a s).out.respOut = s.out.respOut := rfl
@[simp] theorem noteAccess_out_respDataOut (a : EnvAccess) (s : State) : (noteAccess a s).out.respDataOut = s.out.respDataOut := rfl
@[simp] theorem noteAccess_out_diag (a : EnvAccess) (s : State) : (noteAccess a s).out.diag = s.out.diag := rfl
@[simp] theorem noteAccess_out_ev (a : EnvAccess) (s : State) : (noteAccess a s).out.ev = s.out.ev := rfl
@[simp] theorem noteAccess_out_rdReqCount (a : EnvAccess) (s : State) : (noteAccess a s).out.rdReqCount = s.out.rdReqCount := rfl
@[simp] theorem noteAccess_out_accesses (a : EnvAccess) (s : State) :
    (noteAccess a s).out.accesses = s.out.accesses ++ [a] := rfl

@[simp] theorem memRead_cfg (addr : BitVec 64) (n : Nat) (s : State) : (memRead addr n s).cfg = s.cfg := rfl
@[simp] theorem memRead_pools (addr : BitVec 64) (n : Nat) (s : State) : (memRead addr n s).pools = s.pools := rfl
@[simp] theorem memRead_tags (addr : BitVec 64) (n : Nat) (s : State) : (memRead addr n s).tags = s.tags := rfl
@[simp] theorem memRead_fifo (addr : BitVec 64) (n : Nat) (s : State) : (memRead addr n s).fifo = s.fifo := rfl
@[simp] theorem memRead_drained (addr : BitVec 64) (n : Nat) (s : State) : (memRead addr n s).drained = s.drained := rfl
@[simp] theorem memRead_pm (addr : BitVec 64) (n : Nat) (s : State) : (memRead addr n s).pm = s.pm := rfl
@[simp] theorem memRead_cm (addr : BitVec 64) (n : Nat) (s : State) : (memRead addr n s).cm = s.cm := rfl
@[simp] theorem memRead_rdq (addr : BitVec 64) (n : Nat) (s : State) : (memRead addr n s).rdq = s.rdq := rfl
@[simp] theorem memRead_lc (addr : BitVec 64) (n : Nat) (s : State) : (memRead addr n s).lc = s.lc := rfl
@[simp] theorem memRead_rot (addr : BitVec 64) (n : Nat) (s : State) : (memRead addr n s).rot = s.rot := rfl
@[simp] theorem memRead_sigs (addr : BitVec 64) (n : Nat) (s : State) : (memRead addr n s).sigs = s.sigs := rfl
@[simp] theorem memRead_cycle (addr : BitVec 64) (n : Nat) (s : State) : (memRead addr n s).cycle = s.cycle := rfl
@[simp] theorem memRead_diag (addr : BitVec 64) (n : Nat) (s : State) : (memRead addr n s).diag = s.diag := rfl
@[simp] theorem memRead_closed (addr : BitVec 64) (n : Nat) (s : State) : (memRead addr n s).closed = s.closed := rfl
@[simp] theorem memRead_mem (addr : BitVec 64) (n : Nat) (s : State) : (memRead addr n s).mem = s.mem := rfl
@[simp] theorem memRead_regs (addr : BitVec 64) (n : Nat) (s : State) : (memRead addr n s).regs = s.regs := rfl
@[simp] theorem memRead_inp (addr : BitVec 64) (n : Nat) (s : State) : (memRead addr n s).inp = s.inp := rfl
@[simp] theorem memRead_pending (addr : BitVec 64) (n : Nat) (s : State) : (memRead addr n s).pending = s.pending := rfl
@[simp] theorem memRead_freeCtr (addr : BitVec 64) (n : Nat) (s : State) : (memRead addr n s).freeCtr = s.freeCtr := rfl
@[simp] theorem memRead_out_snap (addr : BitVec 64) (n : Nat) (s : State) : (memRead addr n s).out.snap = s.out.snap := rfl
@[simp] theorem memRead_out_res (addr : BitVec 64) (n : Nat) (s : State) : (memRead addr n s).out.res = s.out.res := rfl
@[simp] theorem memRead_out_respOut (addr : BitVec 64) (n : Nat) (s : State) : (memRead addr n s).out.respOut = s.out.respOut := rfl
@[simp] theorem memRead_out_respDataOut (addr : BitVec 64) (n : Nat) (s : State) : (memRead addr n s).out.respDataOut = s.out.respDataOut := rfl
@[simp] theorem memRead_out_diag (addr : BitVec 64) (n : Nat) (s : State) : (memRead addr n s).out.diag = s.out.diag := rfl
@[simp] theorem memRead_out_ev (addr : BitVec 64) (n : Nat) (s : State) : (memRead addr n s).out.ev = s.out.ev := rfl
@[simp] theorem memRead_out_rdReqCount (addr : BitVec 64) (n : Nat) (s : State) : (memRead addr n s).out.rdReqCount = s.out.rdReqCount := rfl
@[simp] theorem memRead_out_accesses (addr : BitVec 64) (n : Nat) (s : State) :
    (memRead addr n s).out.accesses = s.out.accesses ++ [.memRead addr n] := rfl

@[simp] theorem memWrite_cfg (addr : BitVec 64) (bs : List Byte) (s : State) : (memWrite addr bs s).cfg = s.cfg := rfl
@[simp] theorem memWrite_pools (addr : BitVec 64) (bs : List Byte) (s : State) : (memWrite addr bs s).pools = s.pools := rfl
@[simp] theorem memWrite_tags (addr : BitVec 64) (bs : List Byte) (s : State) : (memWrite addr bs s).tags = s.tags := rfl
@[simp] theorem memWrite_fifo (addr : BitVec 64) (bs : List Byte) (s : State) : (memWrite addr bs s).fifo = s.fifo := rfl
@[simp] theorem memWrite_drained (addr : BitVec 64) (bs : List Byte) (s : State) : (memWrite addr bs s).drained = s.drained := rfl
@[simp] theorem memWrite_pm (addr : BitVec 64) (bs : List Byte) (s : State) : (memWrite addr bs s).pm = s.pm := rfl
@[simp] theorem memWrite_cm (addr : BitVec 64) (bs : List Byte) (s : State) : (memWrite addr bs s).cm = s.cm := rfl
@[simp] theorem memWrite_rdq (addr : BitVec 64) (bs : List Byte) (s : State) : (memWrite addr bs s).rdq = s.rdq := rfl
@[simp] theorem memWrite_lc (addr : BitVec 64) (bs : List Byte) (s : State) : (memWrite addr bs s).lc = s.lc := rfl
@[simp] theorem memWrite_rot (addr : BitVec 64) (bs : List Byte) (s : State) : (memWrite addr bs s).rot = s.rot := rfl
@[simp] theorem memWrite_sigs (addr : BitVec 64) (bs : List Byte) (s : State) : (memWrite addr bs s).sigs = s.sigs := rfl
@[simp] theorem memWrite_cycle (addr : BitVec 64) (bs : List Byte) (s : State) : (memWrite addr bs s).cycle = s.cycle := rfl
@[simp] theorem memWrite_diag (addr : BitVec 64) (bs : List Byte) (s : State) : (memWrite addr bs s).diag = s.diag := rfl
@[simp] theorem memWrite_closed (addr : BitVec 64) (bs : List Byte) (s : State) : (memWrite addr bs s).closed = s.closed := rfl
@[simp] theorem memWrite_mem (addr : BitVec 64) (bs : List Byte) (s : State) :
    (memWrite addr bs s).mem = writeBytes addr bs s.mem := rfl
@[simp] theorem memWrite_regs (addr : BitVec 64) (bs : List Byte) (s : State) : (memWrite addr bs s).regs = s.regs := rfl
@[simp] theorem memWrite_inp (addr : BitVec 64) (bs : List Byte) (s : State) : (memWrite addr bs s).inp = s.inp := rfl
@[simp] theorem memWrite_pending (addr : BitVec 64) (bs : List Byte) (s : State) : (memWrite addr bs s).pending = s.pending := rfl
@[simp] theorem memWrite_freeCtr (addr : BitVec 64) (bs : List Byte) (s : State) : (memWrite addr bs s).freeCtr = s.freeCtr := rfl
@[simp] theorem memWrite_out_snap (addr : BitVec 64) (bs : List Byte) (s : State) : (memWrite addr bs s).out.snap = s.out.snap := rfl
@[simp] theorem memWrite_out_res (addr : BitVec 64) (bs : List Byte) (s : State) : (memWrite addr bs s).out.res = s.out.res := rfl
@[simp] theorem memWrite_out_respOut (addr : BitVec 64) (bs : List Byte) (s : State) : (memWrite addr bs s).out.respOut = s.out.respOut := rfl
@[simp] theorem memWrite_out_respDataOut (addr : BitVec 64) (bs : List Byte) (s : State) : (memWrite addr bs s).out.respDataOut = s.out.respDataOut := rfl
@[simp] theorem memWrite_out_diag (addr : BitVec 64) (bs : List Byte) (s : State) : (memWrite addr bs s).out.diag = s.out.diag := rfl
@[simp] theorem memWrite_out_ev (addr : BitVec 64) (bs : List Byte) (s : State) : (memWrite addr bs s).out.ev = s.out.ev := rfl
@[simp] theorem memWrite_out_rdReqCount (addr : BitVec 64) (bs : List Byte) (s : State) : (memWrite addr bs s).out.rdReqCount = s.out.rdReqCount := rfl
@[simp] theorem memWrite_out_accesses (addr : BitVec 64) (bs : List Byte) (s : State) :
    (memWrite addr bs s).out.accesses = s.out.accesses ++ [.memWrite addr bs] := rfl

@[simp] theorem regRead_cfg (off : Word) (s : State) : (regRead off s).cfg = s.cfg := rfl
@[simp] theorem regRead_pools (off : Word) (s : State) : (regRead off s).pools = s.pools := rfl
@[simp] theorem regRead_tags (off : Word) (s : State) : (regRead off s).tags = s.tags := rfl
@[simp] theorem regRead_fifo (off : Word) (s : State) : (regRead off s).fifo = s.fifo := rfl
@[simp] theorem regRead_drained (off : Word) (s : State) : (regRead off s).drained = s.drained := rfl
@[simp] theorem regRead_pm (off : Word) (s : State) : (regRead off s).pm = s.pm := rfl
@[simp] theorem regRead_cm (off : Word) (s : State) : (regRead off s).cm = s.cm := rfl
@[simp] theorem regRead_rdq (off : Word) (s : State) : (regRead off s).rdq = s.rdq := rfl
@[simp] theorem regRead_lc (off : Word) (s : State) : (regRead off s).lc = s.lc := rfl
@[simp] theorem regRead_rot (off : Word) (s : State) : (regRead off s).rot = s.rot := rfl
@[simp] theorem regRead_sigs (off : Word) (s : State) : (regRead off s).sigs = s.sigs := rfl
@[simp] theorem regRead_cycle (off : Word) (s : State) : (regRead off s).cycle = s.cycle := rfl
@[simp] theorem regRead_diag (off : Word) (s : State) : (regRead off s).diag = s.diag := rfl
@[simp] theorem regRead_closed (off : Word) (s : State) : (regRead off s).closed = s.closed := rfl
@[simp] theorem regRead_mem (off : Word) (s : State) : (regRead off s).mem = s.mem := rfl
@[simp] theorem regRead_regs (off : Word) (s : State) : (regRead off s).regs = s.regs := rfl
@[simp] theorem regRead_inp (off : Word) (s : State) : (regRead off s).inp = s.inp := rfl
@[simp] theorem regRead_pending (off : Word) (s : State) : (regRead off s).pending = s.pending := rfl
@[simp] theorem regRead_freeCtr (off : Word) (s : State) : (regRead off s).freeCtr = s.freeCtr := rfl
@[simp] theorem regRead_out_snap (off : Word) (s : State) : (regRead off s).out.snap = s.out.snap := rfl
@[simp] theorem regRead_out_res (off : Word) (s : State) : (regRead off s).out.res = s.out.res := rfl
@[simp] theorem regRead_out_respOut (off : Word) (s : State) : (regRead off s).out.respOut = s.out.respOut := rfl
@[simp] theorem regRead_out_respDataOut (off : Word) (s : State) : (regRead off s).out.respDataOut = s.out.respDataOut := rfl
@[simp] theorem regRead_out_diag (off : Word) (s : State) : (regRead off s).out.diag = s.out.diag := rfl
@[simp] theorem regRead_out_ev (off : Word) (s : State) : (regRead off s).out.ev = s.out.ev := rfl
@[simp] theorem regRead_out_rdReqCount (off : Word) (s : State) : (regRead off s).out.rdReqCount = s.out.rdReqCount := rfl
@[simp] theorem regRead_out_accesses (off : Word) (s : State) :
    (regRead off s).out.accesses = s.out.accesses ++ [.regRead off] := rfl

@[simp] theorem regWrite_cfg (off v : Word) (s : State) : (regWrite off v s).cfg = s.cfg := rfl
@[simp] theorem regWrite_pools (off v : Word) (s : State) : (regWrite off v s).pools = s.pools := rfl
@[simp] theorem regWrite_tags (off v : Word) (s : State) : (regWrite off v s).tags = s.tags := rfl
@[simp] theorem regWrite_fifo (off v : Word) (s : State) : (regWrite off v s).fifo = s.fifo := rfl
@[simp] theorem regWrite_drained (off v : Word) (s : State) : (regWrite off v s).drained = s.drained := rfl
@[simp] theorem regWrite_pm (off v : Word) (s : State) : (regWrite off v s).pm = s.pm := rfl
@[simp] theorem regWrite_cm (off v : Word) (s : State) : (regWrite off v s).cm = s.cm := rfl
@[simp] theorem regWrite_rdq (off v : Word) (s : State) : (regWrite off v s).rdq = s.rdq := rfl
@[simp] theorem regWrite_lc (off v : Word) (s : State) : (regWrite off v s).lc = s.lc := rfl
@[simp] theorem regWrite_rot (off v : Word) (s : State) : (regWrite off v s).rot = s.rot := rfl
@[simp] theorem regWrite_sigs (off v : Word) (s : State) : (regWrite off v s).sigs = s.sigs := rfl
@[simp] theorem regWrite_cycle (off v : Word) (s : State) : (regWrite off v s).cycle = s.cycle := rfl
@[simp] theorem regWrite_diag (off v : Word) (s : State) : (regWrite off v s).diag = s.diag := rfl
@[simp] theorem regWrite_closed (off v : Word) (s : State) : (regWrite off v s).closed = s.closed := rfl
@[simp] theorem regWrite_mem (off v : Word) (s : State) : (regWrite off v s).mem = s.mem := rfl
@[simp] theorem regWrite_regs (off v : Word) (s : State) :
    (regWrite off v s).regs = insertAt off.toNat v s.regs := rfl
@[simp] theorem regWrite_inp (off v : Word) (s : State) : (regWrite off v s).inp = s.inp := rfl
@[simp] theorem regWrite_pending (off v : Word) (s : State) : (regWrite off v s).pending = s.pending := rfl
@[simp] theorem regWrite_freeCtr (off v : Word) (s : State) : (regWrite off v s).freeCtr = s.freeCtr := rfl
@[simp] theorem regWrite_out_snap (off v : Word) (s : State) : (regWrite off v s).out.snap = s.out.snap := rfl
@[simp] theorem regWrite_out_res (off v : Word) (s : State) : (regWrite off v s).out.res = s.out.res := rfl
@[simp] theorem regWrite_out_respOut (off v : Word) (s : State) : (regWrite off v s).out.respOut = s.out.respOut := rfl
@[simp] theorem regWrite_out_respDataOut (off v : Word) (s : State) : (regWrite off v s).out.respDataOut = s.out.respDataOut := rfl
@[simp] theorem regWrite_out_diag (off v : Word) (s : State) : (regWrite off v s).out.diag = s.out.diag := rfl
@[simp] theorem regWrite_out_ev (off v : Word) (s : State) : (regWrite off v s).out.ev = s.out.ev := rfl
@[simp] theorem regWrite_out_rdReqCount (off v : Word) (s : State) : (regWrite off v s).out.rdReqCount = s.out.rdReqCount := rfl
@[simp] theorem regWrite_out_accesses (off v : Word) (s : State) :
    (regWrite off v s).out.accesses = s.out.accesses ++ [.regWrite off v] := rfl

@[simp] theorem requestData_cfg (m : MachineId) (s : State) : (requestData m s).cfg = s.cfg := rfl
@[simp] theorem requestData_pools (m : MachineId) (s : State) : (requestData m s).pools = s.pools := rfl
@[simp] theorem requestData_tags (m : MachineId) (s : State) : (requestData m s).tags = s.tags := rfl
@[simp] theorem requestData_fifo (m : MachineId) (s : State) : (requestData m s).fifo = s.fifo := rfl
@[simp] theorem requestData_drained (m : MachineId) (s : State) : (requestData m s).drained = s.drained := rfl
@[simp] theorem requestData_pm (m : MachineId) (s : State) : (requestData m s).pm = s.pm := rfl
@[simp] theorem requestData_cm (m : MachineId) (s : State) : (requestData m s).cm = s.cm := rfl
@[simp] theorem requestData_rdq (m : MachineId) (s : State) :
    (requestData m s).rdq = s.rdq ++ [m] := rfl
@[simp] theorem requestData_lc (m : MachineId) (s : State) : (requestData m s).lc = s.lc := rfl
@[simp] theorem requestData_rot (m : MachineId) (s : State) : (requestData m s).rot = s.rot := rfl
@[simp] theorem requestData_sigs (m : MachineId) (s : State) : (requestData m s).sigs = s.sigs := rfl
@[simp] theorem requestData_cycle (m : MachineId) (s : State) : (requestData m s).cycle = s.cycle := rfl
@[simp] theorem requestData_diag (m : MachineId) (s : State) : (requestData m s).diag = s.diag := rfl
@[simp] theorem requestData_closed (m : MachineId) (s : State) : (requestData m s).closed = s.closed := rfl
@[simp] theorem requestData_mem (m : MachineId) (s : State) : (requestData m s).mem = s.mem := rfl
@[simp] theorem requestData_regs (m : MachineId) (s : State) : (requestData m s).regs = s.regs := rfl
@[simp] theorem requestData_inp (m : MachineId) (s : State) : (requestData m s).inp = s.inp := rfl
@[simp] theorem requestData_pending (m : MachineId) (s : State) : (requestData m s).pending = s.pending := rfl
@[simp] theorem requestData_freeCtr (m : MachineId) (s : State) : (requestData m s).freeCtr = s.freeCtr := rfl
@[simp] theorem requestData_out_snap (m : MachineId) (s : State) : (requestData m s).out.snap = s.out.snap := rfl
@[simp] theorem requestData_out_res (m : MachineId) (s : State) : (requestData m s).out.res = s.out.res := rfl
@[simp] theorem requestData_out_respOut (m : MachineId) (s : State) : (requestData m s).out.respOut = s.out.respOut := rfl
@[simp] theorem requestData_out_respDataOut (m : MachineId) (s : State) : (requestData m s).out.respDataOut = s.out.respDataOut := rfl
@[simp] theorem requestData_out_diag (m : MachineId) (s : State) : (requestData m s).out.diag = s.out.diag := rfl
@[simp] theorem requestData_out_ev (m : MachineId) (s : State) : (requestData m s).out.ev = s.out.ev := rfl
@[simp] theorem requestData_out_rdReqCount (m : MachineId) (s : State) :
    (requestData m s).out.rdReqCount = s.out.rdReqCount + 1 := rfl
@[simp] theorem requestData_out_accesses (m : MachineId) (s : State) : (requestData m s).out.accesses = s.out.accesses := rfl

@[simp] theorem cancelRequest_cfg (m : MachineId) (s : State) : (cancelRequest m s).cfg = s.cfg := rfl
@[simp] theorem cancelRequest_pools (m : MachineId) (s : State) : (cancelRequest m s).pools = s.pools := rfl
@[simp] theorem cancelRequest_tags (m : MachineId) (s : State) : (cancelRequest m s).tags = s.tags := rfl
@[simp] theorem cancelRequest_fifo (m : MachineId) (s : State) : (cancelRequest m s).fifo = s.fifo := rfl
@[simp] theorem cancelRequest_drained (m : MachineId) (s : State) : (cancelRequest m s).drained = s.drained := rfl
@[simp] theorem cancelRequest_pm (m : MachineId) (s : State) : (cancelRequest m s).pm = s.pm := rfl
@[simp] theorem cancelRequest_cm (m : MachineId) (s : State) : (cancelRequest m s).cm = s.cm := rfl
@[simp] theorem cancelRequest_rdq (m : MachineId) (s : State) :
    (cancelRequest m s).rdq = s.rdq.filter fun e => decide (e ≠ m) := rfl
@[simp] theorem cancelRequest_lc (m : MachineId) (s : State) : (cancelRequest m s).lc = s.lc := rfl
@[simp] theorem cancelRequest_rot (m : MachineId) (s : State) : (cancelRequest m s).rot = s.rot := rfl
@[simp] theorem cancelRequest_sigs (m : MachineId) (s : State) : (cancelRequest m s).sigs = s.sigs := rfl
@[simp] theorem cancelRequest_cycle (m : MachineId) (s : State) : (cancelRequest m s).cycle = s.cycle := rfl
@[simp] theorem cancelRequest_diag (m : MachineId) (s : State) : (cancelRequest m s).diag = s.diag := rfl
@[simp] theorem cancelRequest_closed (m : MachineId) (s : State) : (cancelRequest m s).closed = s.closed := rfl
@[simp] theorem cancelRequest_mem (m : MachineId) (s : State) : (cancelRequest m s).mem = s.mem := rfl
@[simp] theorem cancelRequest_regs (m : MachineId) (s : State) : (cancelRequest m s).regs = s.regs := rfl
@[simp] theorem cancelRequest_inp (m : MachineId) (s : State) : (cancelRequest m s).inp = s.inp := rfl
@[simp] theorem cancelRequest_pending (m : MachineId) (s : State) : (cancelRequest m s).pending = s.pending := rfl
@[simp] theorem cancelRequest_out (m : MachineId) (s : State) : (cancelRequest m s).out = s.out := rfl
@[simp] theorem cancelRequest_freeCtr (m : MachineId) (s : State) : (cancelRequest m s).freeCtr = s.freeCtr := rfl

@[simp] theorem drive_cfg (p : DrivePayload) (s : State) : (drive p s).cfg = s.cfg := by cases p <;> rfl
@[simp] theorem drive_pools (p : DrivePayload) (s : State) : (drive p s).pools = s.pools := by cases p <;> rfl
@[simp] theorem drive_tags (p : DrivePayload) (s : State) : (drive p s).tags = s.tags := by cases p <;> rfl
@[simp] theorem drive_fifo (p : DrivePayload) (s : State) : (drive p s).fifo = s.fifo := by cases p <;> rfl
@[simp] theorem drive_drained (p : DrivePayload) (s : State) : (drive p s).drained = s.drained := by cases p <;> rfl
@[simp] theorem drive_pm (p : DrivePayload) (s : State) : (drive p s).pm = s.pm := by cases p <;> rfl
@[simp] theorem drive_cm (p : DrivePayload) (s : State) : (drive p s).cm = s.cm := by cases p <;> rfl
@[simp] theorem drive_rdq (p : DrivePayload) (s : State) : (drive p s).rdq = s.rdq := by cases p <;> rfl
@[simp] theorem drive_lc (p : DrivePayload) (s : State) : (drive p s).lc = s.lc := by cases p <;> rfl
@[simp] theorem drive_rot (p : DrivePayload) (s : State) : (drive p s).rot = s.rot := by cases p <;> rfl
@[simp] theorem drive_cycle (p : DrivePayload) (s : State) : (drive p s).cycle = s.cycle := by cases p <;> rfl
@[simp] theorem drive_diag (p : DrivePayload) (s : State) : (drive p s).diag = s.diag := by cases p <;> rfl
@[simp] theorem drive_closed (p : DrivePayload) (s : State) : (drive p s).closed = s.closed := by cases p <;> rfl
@[simp] theorem drive_mem (p : DrivePayload) (s : State) : (drive p s).mem = s.mem := by cases p <;> rfl
@[simp] theorem drive_regs (p : DrivePayload) (s : State) : (drive p s).regs = s.regs := by cases p <;> rfl
@[simp] theorem drive_inp (p : DrivePayload) (s : State) : (drive p s).inp = s.inp := by cases p <;> rfl
@[simp] theorem drive_pending (p : DrivePayload) (s : State) : (drive p s).pending = s.pending := by cases p <;> rfl
@[simp] theorem drive_freeCtr (p : DrivePayload) (s : State) : (drive p s).freeCtr = s.freeCtr := by cases p <;> rfl
@[simp] theorem drive_out_snap (p : DrivePayload) (s : State) : (drive p s).out.snap = s.out.snap := by cases p <;> rfl
@[simp] theorem drive_out_res (p : DrivePayload) (s : State) : (drive p s).out.res = s.out.res := by cases p <;> rfl
@[simp] theorem drive_out_respOut (p : DrivePayload) (s : State) : (drive p s).out.respOut = s.out.respOut := by cases p <;> rfl
@[simp] theorem drive_out_respDataOut (p : DrivePayload) (s : State) : (drive p s).out.respDataOut = s.out.respDataOut := by cases p <;> rfl
@[simp] theorem drive_out_diag (p : DrivePayload) (s : State) : (drive p s).out.diag = s.out.diag := by cases p <;> rfl
@[simp] theorem drive_out_rdReqCount (p : DrivePayload) (s : State) : (drive p s).out.rdReqCount = s.out.rdReqCount := by cases p <;> rfl
@[simp] theorem drive_out_accesses (p : DrivePayload) (s : State) : (drive p s).out.accesses = s.out.accesses := by cases p <;> rfl

end Sys2Proof.Machine
end

