-- ==== Sys2Proof/Laws/Store.lean ====
section
/-! SUPPORT. The laws of sparse stores: reading after writing, what is listed after an operation, and the canonical form kept. -/

namespace Sys2Proof.Machine

variable {β : Type}

@[simp] theorem lookup_nil (k : Nat) : lookup ([] : Store β) k = none := rfl

@[simp] theorem lookup_insertAt_self (k : Nat) (v : β) (m : Store β) : lookup (insertAt k v m) k = some v := by
  induction m with
  | nil => simp [insertAt, lookup]
  | cons e m ih =>
    obtain ⟨k', v'⟩ := e
    by_cases h1 : k < k'
    · simp [insertAt, lookup, h1]
    · by_cases h2 : k = k'
      · simp [insertAt, lookup, h2]
      · simp [insertAt, lookup, h1, h2, ih]

theorem lookup_insertAt_ne {k j : Nat} (h : j ≠ k) (v : β) (m : Store β) :
    lookup (insertAt k v m) j = lookup m j := by
  induction m with
  | nil => simp [insertAt, lookup, h]
  | cons e m ih =>
    obtain ⟨k', v'⟩ := e
    by_cases h1 : k < k'
    · simp [insertAt, lookup, h1, h]
    · by_cases h2 : k = k'
      · subst h2; simp [insertAt, lookup, h]
      · simp [insertAt, lookup, h1, h2, ih]

theorem lookup_removeAt_ne {k j : Nat} (h : j ≠ k) (m : Store β) : lookup (removeAt k m) j = lookup m j := by
  induction m with
  | nil => rfl
  | cons e m ih =>
    obtain ⟨k', v'⟩ := e
    by_cases h2 : k = k'
    · subst h2; simp [removeAt, lookup, h]
    · simp [removeAt, lookup, h2, ih]

theorem mem_of_lookup {k : Nat} {v : β} {m : Store β} (h : lookup m k = some v) : (k, v) ∈ m := by
  induction m with
  | nil => simp at h
  | cons e m ih =>
    obtain ⟨k', v'⟩ := e
    by_cases h2 : k = k'
    · subst h2; simp [lookup] at h; simp [h]
    · simp only [lookup, h2, if_false] at h
      exact List.mem_cons_of_mem _ (ih h)

theorem mem_insertAt {k : Nat} {v : β} {m : Store β} {e : Nat × β} (h : e ∈ insertAt k v m) : e = (k, v) ∨ e ∈ m := by
  induction m with
  | nil => simpa [insertAt] using h
  | cons a m ih =>
    obtain ⟨k', v'⟩ := a
    simp only [insertAt] at h
    split at h
    · simpa using h
    · split at h
      · simp only [List.mem_cons] at h ⊢; tauto
      · simp only [List.mem_cons] at h ⊢
        rcases h with h | h
        · exact .inr (.inl h)
        · rcases ih h with h | h
          · exact .inl h
          · exact .inr (.inr h)

theorem mem_removeAt {k : Nat} {m : Store β} {e : Nat × β} (h : e ∈ removeAt k m) : e ∈ m := by
  induction m with
  | nil => simp [removeAt] at h
  | cons a m ih =>
    obtain ⟨k', v'⟩ := a
    simp only [removeAt] at h
    split at h
    · exact List.mem_cons_of_mem _ h
    · simp only [List.mem_cons] at h ⊢
      exact h.imp id ih

theorem risesFrom_some_iff (j : Nat) (m : Store β) :
    risesFrom (some j) m = true ↔ (∀ e ∈ m, j < e.1) ∧ m.Pairwise (fun a b => a.1 < b.1) := by
  induction m generalizing j with
  | nil => simp [risesFrom]
  | cons e m ih =>
    obtain ⟨k, v⟩ := e
    simp only [risesFrom, Bool.and_eq_true, decide_eq_true_eq, ih, List.mem_cons, forall_eq_or_imp, List.pairwise_cons]
    constructor
    · rintro ⟨h1, h2, h3⟩
      exact ⟨⟨h1, fun e he => lt_trans h1 (h2 e he)⟩, h2, h3⟩
    · rintro ⟨⟨h1, _⟩, h2, h3⟩
      exact ⟨h1, h2, h3⟩

/-- The canonical form is strictly rising keys. -/
theorem sorted_iff (m : Store β) : Store.sorted m = true ↔ m.Pairwise (fun a b => a.1 < b.1) := by
  cases m with
  | nil => simp [Store.sorted, risesFrom]
  | cons e m => simp only [Store.sorted, risesFrom, risesFrom_some_iff, List.pairwise_cons]

@[simp] theorem sorted_nil : Store.sorted ([] : Store β) = true := rfl

@[simp] theorem below_nil (n : Nat) : Store.below n ([] : Store β) = true := rfl

theorem below_iff {n : Nat} {m : Store β} : Store.below n m = true ↔ ∀ e ∈ m, e.1 < n := by
  simp [Store.below]

theorem sorted_insertAt {k : Nat} {v : β} {m : Store β} (h : Store.sorted m = true) :
    Store.sorted (insertAt k v m) = true := by
  rw [sorted_iff] at h ⊢
  induction m with
  | nil => simp [insertAt]
  | cons e m ih =>
    obtain ⟨k', v'⟩ := e
    rw [List.pairwise_cons] at h
    simp only [insertAt]
    split
    · rename_i hk
      refine List.pairwise_cons.2 ⟨?_, List.pairwise_cons.2 h⟩
      intro a ha
      rcases List.mem_cons.1 ha with rfl | ha
      · exact hk
      · exact lt_trans hk (h.1 a ha)
    · split
      · rename_i hk; subst hk; exact List.pairwise_cons.2 h
      · rename_i h1 h2
        refine List.pairwise_cons.2 ⟨?_, ih h.2⟩
        intro a ha
        rcases mem_insertAt ha with rfl | ha
        · show k' < k; omega
        · exact h.1 a ha

theorem sorted_removeAt {k : Nat} {m : Store β} (h : Store.sorted m = true) : Store.sorted (removeAt k m) = true := by
  rw [sorted_iff] at h ⊢
  induction m with
  | nil => exact h
  | cons e m ih =>
    obtain ⟨k', v'⟩ := e
    rw [List.pairwise_cons] at h
    simp only [removeAt]
    split
    · exact h.2
    · exact List.pairwise_cons.2 ⟨fun a ha => h.1 a (mem_removeAt ha), ih h.2⟩

theorem below_insertAt {n k : Nat} {v : β} {m : Store β} (h : Store.below n m = true) (hk : k < n) :
    Store.below n (insertAt k v m) = true := by
  rw [below_iff] at h ⊢
  intro e he
  rcases mem_insertAt he with rfl | he
  · exact hk
  · exact h e he

theorem below_removeAt {n k : Nat} {m : Store β} (h : Store.below n m = true) :
    Store.below n (removeAt k m) = true := by
  rw [below_iff] at h ⊢
  exact fun e he => h e (mem_removeAt he)

theorem lookup_of_forall_lt {k : Nat} {m : Store β} (h : ∀ e ∈ m, k < e.1) : lookup m k = none := by
  cases hl : lookup m k with
  | none => rfl
  | some v => exact absurd (h _ (mem_of_lookup hl)) (by simp)

theorem lookup_removeAt_self {k : Nat} {m : Store β} (h : Store.sorted m = true) : lookup (removeAt k m) k = none := by
  rw [sorted_iff] at h
  induction m with
  | nil => rfl
  | cons e m ih =>
    obtain ⟨k', v'⟩ := e
    rw [List.pairwise_cons] at h
    by_cases hk : k = k'
    · subst hk
      simp only [removeAt, if_true]
      exact lookup_of_forall_lt fun e he => h.1 e he
    · simp only [removeAt, hk, if_false, lookup]
      exact ih h.2

theorem lookup_of_mem {k : Nat} {v : β} {m : Store β} (h : Store.sorted m = true) (hm : (k, v) ∈ m) :
    lookup m k = some v := by
  rw [sorted_iff] at h
  induction m with
  | nil => simp at hm
  | cons e m ih =>
    obtain ⟨k', v'⟩ := e
    rw [List.pairwise_cons] at h
    rcases List.mem_cons.1 hm with he | hm
    · cases he; simp [lookup]
    · have hlt : k' < k := h.1 _ hm
      have hne : k ≠ k' := by omega
      simp only [lookup, hne, if_false]
      exact ih h.2 hm

/-- Two canonical stores that read alike are one list. -/
theorem store_ext {m n : Store β} (hm : Store.sorted m = true) (hn : Store.sorted n = true)
    (h : ∀ k, lookup m k = lookup n k) : m = n := by
  rw [sorted_iff] at hm hn
  induction m generalizing n with
  | nil =>
    cases n with
    | nil => rfl
    | cons e n => obtain ⟨k, v⟩ := e; simpa [lookup] using h k
  | cons e m ih =>
    obtain ⟨k, v⟩ := e
    cases n with
    | nil => simpa [lookup] using h k
    | cons e' n =>
      obtain ⟨k', v'⟩ := e'
      rw [List.pairwise_cons] at hm hn
      have hk : k = k' := by
        by_contra hne
        rcases Nat.lt_or_gt_of_ne hne with hlt | hlt
        · have h1 := h k
          have h2 : lookup n k = none := lookup_of_forall_lt fun e he => lt_trans hlt (hn.1 e he)
          simp [lookup, hne, h2] at h1
        · have h1 := h k'
          have h2 : lookup m k' = none := lookup_of_forall_lt fun e he => lt_trans hlt (hm.1 e he)
          simp [lookup, Ne.symm hne, h2] at h1
      subst hk
      have hv : v = v' := by simpa [lookup] using h k
      subst hv
      congr 1
      refine ih hm.2 hn.2 fun j => ?_
      by_cases hj : j = k
      · subst hj
        rw [lookup_of_forall_lt fun e he => hm.1 e he, lookup_of_forall_lt fun e he => hn.1 e he]
      · simpa [lookup, hj] using h j

theorem length_insertAt_of_none {k : Nat} {v : β} {m : Store β} (h : lookup m k = none) :
    (insertAt k v m).length = m.length + 1 := by
  induction m with
  | nil => rfl
  | cons e m ih =>
    obtain ⟨k', v'⟩ := e
    by_cases hk : k = k'
    · simp [lookup, hk] at h
    · simp only [lookup, hk, if_false] at h
      simp only [insertAt, hk, if_false]
      split <;> simp [ih h]

theorem length_removeAt_le (k : Nat) (m : Store β) : (removeAt k m).length ≤ m.length := by
  induction m with
  | nil => simp [removeAt]
  | cons e m ih =>
    obtain ⟨k', v'⟩ := e
    simp only [removeAt]
    split
    · simp
    · simp; omega

/-- A canonical store whose keys are all below `n` lists at most `n` entries. -/
theorem length_le_of_below {n : Nat} {m : Store β} (h : Store.sorted m = true) (hb : ∀ e ∈ m, e.1 < n) : m.length ≤ n := by
  rw [sorted_iff] at h
  have hnd : (m.map Prod.fst).Nodup := by
    rw [List.nodup_iff_pairwise_ne, List.pairwise_map]
    exact h.imp fun hab => Nat.ne_of_lt hab
  have hsub : (m.map Prod.fst) ⊆ List.range n := by
    intro k hk
    obtain ⟨e, he, rfl⟩ := List.mem_map.1 hk
    exact List.mem_range.2 (hb e he)
  have := (hnd.subperm hsub).length_le
  simpa using this

end Sys2Proof.Machine
end

