-- ==== Sys2Proof/Laws/Ops.lean ====
section
/-! SUPPORT. What each shared operation can do, said once: outcomes in sequence, raising a fault, allocating a tag, queues, drives and
the environment's storage. -/

namespace Sys2Proof.Machine

/-! ### Outcomes -/

@[simp] theorem andThen_next (s : State) (f : State → Host.Outcome State Fault Refusal) : andThen (.next s) f = f s := rfl

/-- A sequence that answers a next state went through one. -/
theorem andThen_eq_next {o : Host.Outcome State Fault Refusal} {f : State → Host.Outcome State Fault Refusal} {t : State}
    (h : andThen o f = .next t) : ∃ s, o = .next s ∧ f s = .next t := by
  cases o with
  | next s => exact ⟨s, rfl, h⟩
  | fault r => cases r
  | refused r => cases h

@[simp] theorem finish_eq (r : Result) (s : State) : finish r s = .next (giveResult r s) := rfl

@[simp] theorem raiseFault_eq (k : FaultKind) (op : OpName) (s : State) :
    raiseFault k op s = .next (giveResult (.fault k) (logFault k op s)) := rfl

@[simp] theorem raiseIllegal_eq (s : State) :
    raiseIllegal s = .next (giveResult (.fault .illegalRequest) (logFault .illegalRequest .req s)) := rfl

/-! ### Credits -/

theorem hasCredit_iff (k : CreditKind) (s : State) : hasCredit k s = true ↔ 0 < (s.pools.get k).avail.toNat := by
  simp [hasCredit]

theorem canReturn_iff (k : CreditKind) (s : State) :
    canReturn k s = true ↔ (s.pools.get k).avail.toNat < (s.pools.get k).initial.toNat := by
  simp [canReturn]

/-- A pool of another kind is not touched by taking a credit. -/
theorem takeCredit_get_ne {k j : CreditKind} (h : j ≠ k) (s : State) :
    (takeCredit k s).pools.get j = s.pools.get j := by
  simp [Four.get_set_ne _ h]

/-- Taking a credit lowers `avail` by one, where there is one. -/
theorem takeCredit_avail {k : CreditKind} {s : State} (h : hasCredit k s = true) :
    ((takeCredit k s).pools.get k).avail.toNat = (s.pools.get k).avail.toNat - 1 := by
  rw [hasCredit_iff] at h
  simp only [takeCredit_pools, Four.get_set_self]
  have := (s.pools.get k).avail.isLt
  bv_omega

@[simp] theorem takeCredit_tagPool (k : CreditKind) (s : State) : tagPool (takeCredit k s) = tagPool s := by
  cases k <;> rfl

@[simp] theorem addCredit_tagPool (k : CreditKind) (s : State) : tagPool (addCredit k s) = tagPool s := by
  cases k <;> rfl

/-! ### Tags -/

theorem mem_freeTags {s : State} {t : Nat} : t ∈ freeTags s ↔ t < tagPool s ∧ lookup s.tags t = none := by
  simp [freeTags]

/-- What a draw changes: the draws left, or the model's counter. -/
theorem nextDraw_cases (s : State) :
    (∃ ds, (nextDraw s).2 = { s with inp := { s.inp with draw := ds } }) ∨
    (nextDraw s).2 = { s with freeCtr := s.freeCtr + 1 } := by
  unfold nextDraw
  cases s.inp.draw with
  | nil => exact .inr rfl
  | cons d ds => exact .inl ⟨ds, rfl⟩

/-- Everything an allocation can do: it binds one tag that was free, after what a draw changes. -/
theorem allocate_eq_some {r : BitVec 8} {s s' : State} {t : Nat} (h : allocate r s = some (t, s')) :
    t < tagPool s ∧ lookup s.tags t = none ∧
    (s' = bindTag t r s ∨ s' = bindTag t r (nextDraw s).2) := by
  unfold allocate at h
  split at h
  · cases h
  · rename_i u us hf
    split at h
    · simp only [Option.some.injEq, Prod.mk.injEq] at h
      obtain ⟨rfl, rfl⟩ := h
      have := mem_freeTags.1 (hf ▸ List.mem_cons_self : u ∈ freeTags s)
      exact ⟨this.1, this.2, .inl rfl⟩
    · simp only [Option.some.injEq, Prod.mk.injEq] at h
      obtain ⟨rfl, rfl⟩ := h
      have hm : (u :: us).getD ((nextDraw s).1 % (us.length + 1)) u ∈ freeTags s := by
        rw [hf, List.getD_eq_getElem _ _ (by simpa using Nat.mod_lt _ (Nat.succ_pos _))]
        exact List.getElem_mem _
      have := mem_freeTags.1 hm
      exact ⟨this.1, this.2, .inr rfl⟩

/-- An allocation fails exactly when no tag of the pool is free. -/
theorem allocate_eq_none {r : BitVec 8} {s : State} : allocate r s = none ↔ freeTags s = [] := by
  unfold allocate
  split
  · simp [*]
  · split <;> simp [*]

/-- With fewer bound tags than the pool has, one is free. -/
theorem freeTags_ne_nil {s : State} (h : liveTags s < tagPool s) : freeTags s ≠ [] := by
  intro hf
  have hall : ∀ t ∈ List.range (tagPool s), t ∈ s.tags.map Prod.fst := by
    intro t ht
    by_contra hn
    have hl : lookup s.tags t = none := by
      cases hl : lookup s.tags t with
      | none => rfl
      | some v => exact absurd (List.mem_map.2 ⟨_, mem_of_lookup hl, rfl⟩) hn
    have := mem_freeTags.2 ⟨List.mem_range.1 ht, hl⟩
    simp [hf] at this
  have := (List.nodup_range.subperm hall).length_le
  simp only [List.length_range, List.length_map] at this
  unfold liveTags at h
  omega

/-! ### Queues -/

theorem lookup_setQueue_ne {x y : BitVec 8} (h : y ≠ x) (q : List Beat) (s : State) :
    queueOf (setQueue x q s) y = queueOf s y := by
  have hn : y.toNat ≠ x.toNat := fun e => h (BitVec.eq_of_toNat_eq e)
  unfold queueOf
  rw [setQueue_fifo]
  split
  · rw [lookup_removeAt_ne hn]
  · rw [lookup_insertAt_ne hn]

/-- A queue after it is set, in a canonical store. -/
theorem queueOf_setQueue {s : State} (hs : Store.sorted s.fifo = true) (x : BitVec 8) (q : List Beat) :
    queueOf (setQueue x q s) x = q := by
  unfold queueOf
  rw [setQueue_fifo]
  split
  · rename_i hq; rw [lookup_removeAt_self hs]; cases q <;> simp_all
  · rw [lookup_insertAt_self]; rfl

theorem isDrained_markDrained (x : BitVec 8) (s : State) : isDrained (markDrained x s) x = true := by
  simp [isDrained]

/-! ### Drives -/

/-- Whether a signal can be driven depends on the units driven, the countdowns and the configuration alone. -/
theorem canDrive_congr {s t : State} (hev : t.out.ev = s.out.ev) (hsigs : t.sigs = s.sigs) (hcfg : t.cfg = s.cfg)
    (sig : Signal) : canDrive sig t = canDrive sig s := by
  simp [canDrive, hev, hsigs, hcfg]

/-- Driving a signal uses it up for the tick. -/
theorem canDrive_drive_self (p : DrivePayload) (s : State) : canDrive p.signal (drive p s) = false := by
  cases p <;> rfl

/-- Driving one signal leaves every other as it was. -/
theorem canDrive_drive_ne {p : DrivePayload} {sig : Signal} (h : sig ≠ p.signal) (s : State) :
    canDrive sig (drive p s) = canDrive sig s := by
  cases p <;> cases sig <;> first | rfl | exact absurd rfl h

theorem sigCount_drive_self (p : DrivePayload) (s : State) : sigCount (drive p s).sigs p.signal = s.cfg.pulseW := by
  cases p <;> rfl

theorem sigCount_drive_ne {p : DrivePayload} {sig : Signal} (h : sig ≠ p.signal) (s : State) :
    sigCount (drive p s).sigs sig = sigCount s.sigs sig := by
  cases p <;> cases sig <;> first | rfl | exact absurd rfl h

/-! ### The environment's storage -/

theorem memoryWf_iff (m : List Host.Cell) :
    Memory.wf m = true ↔ Store.sorted m = true ∧ Store.below (2 ^ 64) m = true := by
  simp [Memory.wf]

theorem registersWf_iff (g : Store Word) :
    registersWf g = true ↔ Store.sorted g = true ∧ Store.below (2 ^ 32) g = true := by
  simp [registersWf]

theorem memoryWf_insertAt {m : List Host.Cell} (h : Memory.wf m = true) (a : BitVec 64) (b : Byte) :
    Memory.wf (insertAt a.toNat b m) = true := by
  rw [memoryWf_iff] at h ⊢
  exact ⟨sorted_insertAt h.1, below_insertAt h.2 a.isLt⟩

theorem registersWf_insertAt {g : Store Word} (h : registersWf g = true) (off v : Word) :
    registersWf (insertAt off.toNat v g) = true := by
  rw [registersWf_iff] at h ⊢
  exact ⟨sorted_insertAt h.1, below_insertAt h.2 off.isLt⟩

/-- Writing bytes keeps the canonical form. -/
theorem memoryWf_writeBytes {m : List Host.Cell} (h : Memory.wf m = true) (addr : BitVec 64) (bs : List Byte) :
    Memory.wf (writeBytes addr bs m) = true := by
  induction bs generalizing addr m with
  | nil => exact h
  | cons b bs ih => exact ih (memoryWf_insertAt h addr b) (addr + 1)

/-- Applying the environment's changes keeps the canonical form. -/
theorem memoryWf_pokes {m : List Host.Cell} (h : Memory.wf m = true) (ps : List (BitVec 64 × Byte)) :
    Memory.wf (ps.foldl (fun m e => insertAt e.1.toNat e.2 m) m) = true := by
  induction ps generalizing m with
  | nil => exact h
  | cons p ps ih => exact ih (memoryWf_insertAt h p.1 p.2)

/-- Applying the environment's changes keeps the canonical form. -/
theorem registersWf_pokes {g : Store Word} (h : registersWf g = true) (ps : List (Word × Word)) :
    registersWf (ps.foldl (fun g e => insertAt e.1.toNat e.2 g) g) = true := by
  induction ps generalizing g with
  | nil => exact h
  | cons p ps ih => exact ih (registersWf_insertAt h p.1 p.2)

@[simp] theorem byteAt_insertAt_self (m : List Host.Cell) (a : BitVec 64) (b : Byte) :
    byteAt (insertAt a.toNat b m) a = b := by
  simp [byteAt]

theorem byteAt_insertAt_ne {a c : BitVec 64} (h : c ≠ a) (m : List Host.Cell) (b : Byte) :
    byteAt (insertAt a.toNat b m) c = byteAt m c := by
  simp [byteAt, lookup_insertAt_ne fun e => h (BitVec.eq_of_toNat_eq e)]

@[simp] theorem wordAt_insertAt_self (g : Store Word) (off v : Word) : wordAt (insertAt off.toNat v g) off = v := by
  simp [wordAt]

theorem wordAt_insertAt_ne {off o : Word} (h : o ≠ off) (g : Store Word) (v : Word) :
    wordAt (insertAt off.toNat v g) o = wordAt g o := by
  simp [wordAt, lookup_insertAt_ne fun e => h (BitVec.eq_of_toNat_eq e)]

/-- An address outside the bytes written reads as before. -/
theorem byteAt_writeBytes_outside (m : List Host.Cell) (addr a : BitVec 64) (bs : List Byte)
    (h : ∀ i < bs.length, a ≠ addr + BitVec.ofNat 64 i) : byteAt (writeBytes addr bs m) a = byteAt m a := by
  induction bs generalizing addr m with
  | nil => rfl
  | cons b bs ih =>
    rw [writeBytes, ih]
    · exact byteAt_insertAt_ne (by simpa using h 0 (by simp)) m b
    · intro i hi
      have := h (i + 1) (by simpa using hi)
      rw [show addr + 1 + BitVec.ofNat 64 i = addr + BitVec.ofNat 64 (i + 1) by
        rw [BitVec.ofNat_add, BitVec.add_assoc, BitVec.add_comm (BitVec.ofNat 64 i)]; rfl]
      exact this

/-- An address inside the bytes written reads the byte written there. -/
theorem byteAt_writeBytes_inside (m : List Host.Cell) (addr : BitVec 64) (bs : List Byte) (hl : bs.length ≤ 2 ^ 64) {i : Nat}
    (hi : i < bs.length) : byteAt (writeBytes addr bs m) (addr + BitVec.ofNat 64 i) = bs.getD i 0 := by
  induction bs generalizing addr m i with
  | nil => simp at hi
  | cons b bs ih =>
    simp only [List.length_cons] at hl hi
    cases i with
    | zero =>
      rw [writeBytes, byteAt_writeBytes_outside]
      · simp
      · intro j hj
        simp only [BitVec.add_zero, ne_eq]
        bv_omega
    | succ i =>
      rw [writeBytes, show addr + BitVec.ofNat 64 (i + 1) = addr + 1 + BitVec.ofNat 64 i by
        rw [BitVec.ofNat_add, BitVec.add_assoc, BitVec.add_comm (BitVec.ofNat 64 i)]; rfl]
      rw [ih _ _ (by omega) (by omega)]
      simp

end Sys2Proof.Machine
end

