-- ==== Sys2Proof/Laws/Invariant.lean ====
section
/-! SUPPORT. Each shared operation keeps a sound state sound, under the condition its callers check first. -/

namespace Sys2Proof.Machine

/-- A state that differs from a sound one only in what no part of the invariant reads is sound. -/
theorem Sound.of_same {s t : State} (h : Sound s) (hcfg : t.cfg = s.cfg) (hpools : t.pools = s.pools) (htags : t.tags = s.tags)
    (hfifo : t.fifo = s.fifo) (hdrained : t.drained = s.drained) (hpm : t.pm = s.pm) (hcm : t.cm = s.cm)
    (hrdq : t.rdq = s.rdq) (hrot : t.rot = s.rot) (hsigs : t.sigs = s.sigs) (hclosed : t.closed = s.closed)
    (hmem : t.mem = s.mem) (hregs : t.regs = s.regs) : Sound t := by
  constructor
  · rw [hcfg]; exact h.config
  · unfold PoolsOk; rw [hpools]; exact h.pools
  · unfold TagsOk liveTags tagPool; rw [hcfg, htags, hpools]; exact h.tags
  · unfold QueuesOk; rw [hcfg, hfifo, hdrained]; exact h.queues
  · unfold PmOk; rw [hcfg, hpm]; exact h.pm
  · unfold CmOk; rw [hcfg, hcm]; exact h.cm
  · unfold RdqOk; rw [hrdq, hclosed, hpm, hcm, htags, hfifo]; exact h.rdq
  · unfold RotOk; rw [hcfg, hrot]; exact h.rot
  · unfold SigsOk; rw [hcfg, hsigs]; exact h.sigs
  · unfold StorageOk; rw [hmem, hregs]; exact h.storage

theorem Sound.logFault {s : State} (h : Sound s) (k : FaultKind) (op : OpName) : Sound (logFault k op s) :=
  h.of_same rfl rfl rfl rfl rfl rfl rfl rfl rfl rfl rfl rfl rfl

theorem Sound.giveResult {s : State} (h : Sound s) (r : Result) : Sound (giveResult r s) :=
  h.of_same rfl rfl rfl rfl rfl rfl rfl rfl rfl rfl rfl rfl rfl

theorem Sound.noteAccess {s : State} (h : Sound s) (a : EnvAccess) : Sound (noteAccess a s) :=
  h.of_same rfl rfl rfl rfl rfl rfl rfl rfl rfl rfl rfl rfl rfl

/-- A change of one pool that keeps its initial count keeps every part but that pool's own. -/
theorem Sound.setAvail {s : State} (h : Sound s) (k : CreditKind) (n : BitVec 8)
    (hn : n.toNat ≤ (s.pools.get k).initial.toNat) :
    Sound { s with pools := s.pools.set k { s.pools.get k with avail := n } } := by
  have hp : tagPool { s with pools := s.pools.set k { s.pools.get k with avail := n } } = tagPool s := by
    cases k <;> rfl
  refine { h with pools := ?_, tags := ?_ }
  · intro j
    by_cases hj : j = k
    · subst hj
      simp only [Four.get_set_self]
      exact ⟨hn, (h.pools j).2⟩
    · simp only [Four.get_set_ne _ hj]
      exact h.pools j
  · unfold TagsOk; rw [hp]; exact h.tags

theorem Sound.takeCredit {s : State} (h : Sound s) {k : CreditKind} (hc : hasCredit k s = true) : Sound (takeCredit k s) := by
  refine h.setAvail k _ ?_
  rw [hasCredit_iff] at hc
  have := (h.pools k).1
  have := (s.pools.get k).avail.isLt
  bv_omega

theorem Sound.addCredit {s : State} (h : Sound s) {k : CreditKind} (hc : canReturn k s = true) : Sound (addCredit k s) := by
  refine h.setAvail k _ ?_
  rw [canReturn_iff] at hc
  have := (s.pools.get k).initial.isLt
  bv_omega

theorem Sound.setPool {s : State} (h : Sound s) {k : CreditKind} (hk : (s.pools.get k).negotiated = false) (n : BitVec 8) :
    Sound (setPool k n s) := by
  have hle : tagPool s ≤ tagPool (Machine.setPool k n s) := by
    have h0 := (h.pools k).2 hk
    cases k <;> simp [tagPool, Machine.setPool, Four.set, Four.get] at h0 ⊢
    simp [h0]
  refine { h with pools := ?_, tags := ?_ }
  · intro j
    by_cases hj : j = k
    · subst hj
      simp [PoolOk]
    · simp only [setPool_pools, Four.get_set_ne _ hj]
      exact h.pools j
  · obtain ⟨h1, h2, h3⟩ := h.tags
    exact ⟨h1, fun e he => ⟨lt_of_lt_of_le (h2 e he).1 hle, (h2 e he).2⟩, le_trans h3 hle⟩

theorem Sound.bindTag {s : State} (h : Sound s) {t : Nat} {r : BitVec 8} (ht : t < tagPool s)
    (hr : legalRequester s.cfg r = true) (hc : s.closed = false) : Sound (bindTag t r s) := by
  refine { h with tags := ?_, rdq := ?_ }
  · obtain ⟨h1, h2, _⟩ := h.tags
    have hb : ∀ e ∈ insertAt t r s.tags, e.1 < tagPool s ∧ legalRequester s.cfg e.2 = true := by
      intro e he
      rcases mem_insertAt he with rfl | he
      · exact ⟨ht, hr⟩
      · exact h2 e he
    exact ⟨sorted_insertAt h1, hb, length_le_of_below (sorted_insertAt h1) fun e he => (hb e he).1⟩
  · exact ⟨h.rdq.1, h.rdq.2.1, fun hcl => by simp [hc] at hcl⟩

theorem Sound.unbindTag {s : State} (h : Sound s) (t : Nat) : Sound (unbindTag t s) := by
  refine { h with tags := ?_, rdq := ?_ }
  · obtain ⟨h1, h2, h3⟩ := h.tags
    exact ⟨sorted_removeAt h1, fun e he => h2 e (mem_removeAt he), le_trans (length_removeAt_le _ _) h3⟩
  · refine ⟨h.rdq.1, h.rdq.2.1, fun hcl => ?_⟩
    have := h.rdq.2.2 hcl
    exact ⟨by simp [this.1, removeAt], this.2⟩

theorem Sound.allocate {s s' : State} {r : BitVec 8} {t : Nat} (h : Sound s) (ha : allocate r s = some (t, s'))
    (hr : legalRequester s.cfg r = true) (hc : s.closed = false) : Sound s' := by
  obtain ⟨ht, _, rfl | rfl⟩ := allocate_eq_some ha
  · exact h.bindTag ht hr hc
  · rcases nextDraw_cases s with ⟨ds, hd⟩ | hd
    · rw [hd]
      have h2 : Sound { s with inp := { s.inp with draw := ds } } :=
        h.of_same rfl rfl rfl rfl rfl rfl rfl rfl rfl rfl rfl rfl rfl
      exact h2.bindTag ht hr hc
    · rw [hd]
      have h2 : Sound { s with freeCtr := s.freeCtr + 1 } :=
        h.of_same rfl rfl rfl rfl rfl rfl rfl rfl rfl rfl rfl rfl rfl
      exact h2.bindTag ht hr hc

theorem legalXfer_iff {c : Config} {x : BitVec 8} : legalXfer c x = true ↔ x.toNat < c.nXfer := by simp [legalXfer]

theorem Sound.setQueue {s : State} (h : Sound s) {x : BitVec 8} {q : List Beat} (hx : legalXfer s.cfg x = true)
    (hq : q.length ≤ s.cfg.fifoDepth) (hc : s.closed = false) : Sound (setQueue x q s) := by
  obtain ⟨h1, h2, h3⟩ := h.queues
  refine { h with queues := ?_, rdq := ?_ }
  · unfold QueuesOk
    simp only [setQueue_fifo, setQueue_cfg, setQueue_drained]
    split
    · exact ⟨sorted_removeAt h1, fun e he => h2 e (mem_removeAt he), h3⟩
    · rename_i hne
      refine ⟨sorted_insertAt h1, fun e he => ?_, h3⟩
      rcases mem_insertAt he with rfl | he
      · exact ⟨legalXfer_iff.1 hx, by cases q <;> simp_all, hq⟩
      · exact h2 e he
  · exact ⟨h.rdq.1, h.rdq.2.1, fun hcl => by simp [hc] at hcl⟩

theorem Sound.markDrained {s : State} (h : Sound s) {x : BitVec 8} (hx : legalXfer s.cfg x = true) : Sound (markDrained x s) := by
  obtain ⟨h1, h2, h3, h4⟩ := h.queues
  refine { h with queues := ⟨h1, h2, sorted_insertAt h3, fun e he => ?_⟩ }
  rcases mem_insertAt he with rfl | he
  · exact legalXfer_iff.1 hx
  · exact h4 e he

/-- A listed queue is within the depth. -/
theorem Sound.queue_le {s : State} (h : Sound s) (x : BitVec 8) : (queueOf s x).length ≤ s.cfg.fifoDepth := by
  unfold queueOf
  cases hl : lookup s.fifo x.toNat with
  | none => simp
  | some q => exact (h.queues.2.1 _ (mem_of_lookup hl)).2.2

theorem Sound.drive {s : State} (h : Sound s) (p : DrivePayload) : Sound (drive p s) := by
  refine { h with config := ?_, pools := ?_, tags := ?_, queues := ?_, pm := ?_, cm := ?_, rdq := ?_, rot := ?_, sigs := ?_, storage := ?_ }
  · simpa using h.config
  · simpa [PoolsOk] using h.pools
  · simpa [TagsOk, tagPool, liveTags] using h.tags
  · simpa [QueuesOk] using h.queues
  · simpa [PmOk] using h.pm
  · simpa [CmOk] using h.cm
  · simpa [RdqOk] using h.rdq
  · simpa [RotOk] using h.rot
  · obtain ⟨a, b, c, d⟩ := h.sigs
    cases p
    · exact ⟨⟨le_refl _, fun _ => rfl⟩, b, c, d⟩
    · exact ⟨a, ⟨le_refl _, fun _ => rfl⟩, c, d⟩
    · exact ⟨a, b, ⟨le_refl _, fun _ => rfl⟩, d⟩
    · exact ⟨a, b, c, ⟨le_refl _, fun _ => rfl⟩⟩
  · simpa [StorageOk] using h.storage

theorem Sound.memWrite {s : State} (h : Sound s) (addr : BitVec 64) (bs : List Byte) : Sound (memWrite addr bs s) :=
  { h with storage := ⟨memoryWf_writeBytes h.storage.1 addr bs, h.storage.2⟩ }

theorem Sound.regWrite {s : State} (h : Sound s) (off v : Word) : Sound (regWrite off v s) :=
  { h with storage := ⟨h.storage.1, registersWf_insertAt h.storage.2 off v⟩ }

theorem Sound.applyPokes {s : State} (h : Sound s) : Sound (applyPokes s) :=
  { h with storage := ⟨memoryWf_pokes h.storage.1 _, registersWf_pokes h.storage.2 _⟩ }

end Sys2Proof.Machine
end

