-- ==== Sys2Proof/Laws/Within.lean ====
section
/-! SUPPORT. What everything a tick runs between its start and its end keeps, said once: `Within`, a relation each operation, machine
step and phase stands in, and which composes. -/

namespace Sys2Proof.Machine

/-- One signal over part of a tick: untouched, or driven, from a state in which it could be. -/
def SignalWithin (sig : Signal) (s t : State) : Prop :=
  (sigCount t.sigs sig = sigCount s.sigs sig ∧ notDriven t.out.ev sig = notDriven s.out.ev sig) ∨
  (canDrive sig s = true ∧ sigCount t.sigs sig = s.cfg.pulseW ∧ notDriven t.out.ev sig = false)

/-- What one signal holds over part of a tick, and its unit of the tick: untouched, or the unit driven last. -/
def HeldWithin {α : Type} (ev ev' : Option α) (g g' : Sig α) : Prop :=
  (ev' = ev ∧ g'.payload = g.payload) ∨ ∃ p, ev' = some p ∧ g'.payload = ⟨true, p⟩

theorem HeldWithin.refl {α : Type} (ev : Option α) (g : Sig α) : HeldWithin ev ev g g := .inl ⟨rfl, rfl⟩

theorem HeldWithin.trans {α : Type} {e e' e'' : Option α} {g g' g'' : Sig α} (h1 : HeldWithin e e' g g')
    (h2 : HeldWithin e' e'' g' g'') : HeldWithin e e'' g g'' := by
  rcases h2 with ⟨a, b⟩ | h2
  · rcases h1 with ⟨c, d⟩ | ⟨p, c, d⟩
    · exact .inl ⟨a.trans c, b.trans d⟩
    · exact .inr ⟨p, a.trans c, b.trans d⟩
  · exact .inr h2

/-- What the four signals hold over part of a tick. -/
def AllHeldWithin (s t : State) : Prop :=
  HeldWithin s.out.ev.cmd t.out.ev.cmd s.sigs.cmd t.sigs.cmd ∧
  HeldWithin s.out.ev.cmdData t.out.ev.cmdData s.sigs.cmdData t.sigs.cmdData ∧
  HeldWithin s.out.ev.resp t.out.ev.resp s.sigs.resp t.sigs.resp ∧
  HeldWithin s.out.ev.respData t.out.ev.respData s.sigs.respData t.sigs.respData

theorem AllHeldWithin.of_same {s t : State} (hsigs : t.sigs = s.sigs) (hev : t.out.ev = s.out.ev) : AllHeldWithin s t := by
  unfold AllHeldWithin; rw [hsigs, hev]; exact ⟨.refl _ _, .refl _ _, .refl _ _, .refl _ _⟩

theorem AllHeldWithin.trans {s t u : State} (h1 : AllHeldWithin s t) (h2 : AllHeldWithin t u) : AllHeldWithin s u :=
  ⟨h1.1.trans h2.1, h1.2.1.trans h2.2.1, h1.2.2.1.trans h2.2.2.1, h1.2.2.2.trans h2.2.2.2⟩

/-- A drive holds its unit on its signal and leaves the others. -/
theorem drive_held (p : DrivePayload) (s : State) : AllHeldWithin s (drive p s) := by
  cases p with
  | cmd r => exact ⟨.inr ⟨r, rfl, rfl⟩, .refl _ _, .refl _ _, .refl _ _⟩
  | cmdData r => exact ⟨.refl _ _, .inr ⟨r, rfl, rfl⟩, .refl _ _, .refl _ _⟩
  | resp r => exact ⟨.refl _ _, .refl _ _, .inr ⟨r, rfl, rfl⟩, .refl _ _⟩
  | respData r => exact ⟨.refl _ _, .refl _ _, .refl _ _, .inr ⟨r, rfl, rfl⟩⟩

/-- What any part of a tick keeps. -/
structure Within (s t : State) : Prop where
  cfg : t.cfg = s.cfg
  closed : t.closed = s.closed
  cycle : t.cycle = s.cycle
  pending : t.pending = s.pending
  lc : t.lc = s.lc
  inp : { t.inp with draw := s.inp.draw } = s.inp
  diag : ∃ ds, t.diag = s.diag ++ ds ∧ t.out.diag = s.out.diag ++ ds ∧ ∀ d ∈ ds, d.cycle = s.cycle
  pools : ∀ k, ((s.pools.get k).negotiated = true →
      (t.pools.get k).initial = (s.pools.get k).initial ∧ (t.pools.get k).negotiated = true) ∧
    ((s.pools.get k).avail.toNat ≤ (s.pools.get k).initial.toNat →
      (t.pools.get k).avail.toNat ≤ (t.pools.get k).initial.toNat)
  sigs : ∀ sig, SignalWithin sig s t
  held : AllHeldWithin s t
  snap : t.out.snap = s.out.snap

theorem SignalWithin.refl (sig : Signal) (s : State) : SignalWithin sig s s := .inl ⟨rfl, rfl⟩

theorem SignalWithin.trans {sig : Signal} {s t u : State} (hcfg : t.cfg = s.cfg) (h1 : SignalWithin sig s t)
    (h2 : SignalWithin sig t u) : SignalWithin sig s u := by
  rcases h1 with ⟨a, b⟩ | ⟨a, b, c⟩
  · rcases h2 with ⟨d, e⟩ | ⟨d, e, f⟩
    · exact .inl ⟨d.trans a, e.trans b⟩
    · refine .inr ⟨?_, by rw [e, hcfg], f⟩
      simpa [canDrive, a, b, hcfg] using d
  · rcases h2 with ⟨d, e⟩ | ⟨d, _, _⟩
    · exact .inr ⟨a, d.trans b, e.trans c⟩
    · simp [canDrive, c] at d

/-- The part of `Within` about the inputs holds of any state with the same inputs. -/
theorem Within.of_same {s t : State} (hcfg : t.cfg = s.cfg) (hclosed : t.closed = s.closed) (hcycle : t.cycle = s.cycle)
    (hpending : t.pending = s.pending) (hlc : t.lc = s.lc) (hinp : t.inp = s.inp) (hdiag : t.diag = s.diag)
    (hodiag : t.out.diag = s.out.diag) (hpools : t.pools = s.pools) (hsigs : t.sigs = s.sigs) (hev : t.out.ev = s.out.ev)
    (hsnap : t.out.snap = s.out.snap) : Within s t :=
  { cfg := hcfg, closed := hclosed, cycle := hcycle, pending := hpending, lc := hlc, inp := by rw [hinp],
    diag := ⟨[], by simp [hdiag], by simp [hodiag], by simp⟩, pools := fun k => by rw [hpools]; simp,
    sigs := fun sig => .inl ⟨by rw [hsigs], by rw [hev]⟩, held := .of_same hsigs hev, snap := hsnap }

theorem Within.refl (s : State) : Within s s := .of_same rfl rfl rfl rfl rfl rfl rfl rfl rfl rfl rfl rfl

theorem Within.trans {s t u : State} (h1 : Within s t) (h2 : Within t u) : Within s u := by
  refine {
    cfg := h2.cfg.trans h1.cfg, closed := h2.closed.trans h1.closed, cycle := h2.cycle.trans h1.cycle,
    pending := h2.pending.trans h1.pending, lc := h2.lc.trans h1.lc, inp := ?_, diag := ?_, pools := fun k => ?_,
    sigs := fun sig => (h1.sigs sig).trans h1.cfg (h2.sigs sig), held := h1.held.trans h2.held, snap := h2.snap.trans h1.snap }
  · have a := h1.inp
    have b := h2.inp
    rw [← a]
    conv_lhs => rw [← a]
    rw [← b]
  · obtain ⟨ds, a, b, c⟩ := h1.diag
    obtain ⟨es, d, e, f⟩ := h2.diag
    refine ⟨ds ++ es, by rw [d, a, List.append_assoc], by rw [e, b, List.append_assoc], fun x hx => ?_⟩
    rcases List.mem_append.1 hx with hx | hx
    · exact c x hx
    · rw [f x hx, h1.cycle]
  · refine ⟨fun hn => ?_, fun ha => (h2.pools k).2 ((h1.pools k).2 ha)⟩
    obtain ⟨a, b⟩ := (h1.pools k).1 hn
    obtain ⟨c, d⟩ := (h2.pools k).1 b
    exact ⟨c.trans a, d⟩

theorem logFault_within (k : FaultKind) (op : OpName) (s : State) : Within s (logFault k op s) :=
  { Within.refl s with diag := ⟨[⟨s.cycle, op, k⟩], rfl, rfl, by simp⟩ }

theorem giveResult_within (r : Result) (s : State) : Within s (giveResult r s) :=
  .of_same rfl rfl rfl rfl rfl rfl rfl rfl rfl rfl rfl rfl

theorem noteAccess_within (a : EnvAccess) (s : State) : Within s (noteAccess a s) :=
  .of_same rfl rfl rfl rfl rfl rfl rfl rfl rfl rfl rfl rfl

/-- A change of one pool's `avail` that stays in range. -/
theorem setAvail_within (s : State) (k : CreditKind) (n : BitVec 8)
    (hn : (s.pools.get k).avail.toNat ≤ (s.pools.get k).initial.toNat → n.toNat ≤ (s.pools.get k).initial.toNat) :
    Within s { s with pools := s.pools.set k { s.pools.get k with avail := n } } := by
  refine { Within.refl s with pools := fun j => ?_ }
  by_cases hj : j = k
  · subst hj; simpa using hn
  · simp [Four.get_set_ne _ hj]

theorem takeCredit_within {k : CreditKind} {s : State} (h : hasCredit k s = true) : Within s (takeCredit k s) := by
  refine setAvail_within s k _ fun ha => ?_
  rw [hasCredit_iff] at h
  have := (s.pools.get k).avail.isLt
  bv_omega

theorem addCredit_within {k : CreditKind} {s : State} (h : canReturn k s = true) : Within s (addCredit k s) := by
  refine setAvail_within s k _ fun ha => ?_
  rw [canReturn_iff] at h
  have := (s.pools.get k).initial.isLt
  bv_omega

theorem setPool_within {k : CreditKind} {s : State} (h : (s.pools.get k).negotiated = false) (n : BitVec 8) :
    Within s (setPool k n s) := by
  refine { Within.refl s with pools := fun j => ?_ }
  by_cases hj : j = k
  · subst hj; simp [h]
  · simp [Four.get_set_ne _ hj]

theorem drive_within {p : DrivePayload} {s : State} (h : canDrive p.signal s = true) : Within s (drive p s) := by
  refine {
    cfg := by simp, closed := by simp, cycle := by simp, pending := by simp, lc := by simp, inp := by simp,
    diag := ⟨[], by cases p <;> simp [drive], by cases p <;> simp [drive], by simp⟩, pools := fun k => by simp, sigs := fun sig => ?_,
    held := drive_held p s, snap := by cases p <;> rfl }
  by_cases hs : sig = p.signal
  · subst hs
    exact .inr ⟨h, sigCount_drive_self p s, by cases p <;> rfl⟩
  · exact .inl ⟨sigCount_drive_ne hs s, by cases p <;> cases sig <;> first | rfl | exact absurd rfl hs⟩

/-- An allocation keeps everything but the bindings, the draws left and the model's counter. -/
theorem allocate_within {r : BitVec 8} {s t : State} {n : Nat} (h : allocate r s = some (n, t)) : Within s t := by
  have hd : Within s (nextDraw s).2 := by
    rcases nextDraw_cases s with ⟨ds, hd⟩ | hd
    · rw [hd]; exact { Within.refl s with }
    · rw [hd]; exact { Within.refl s with }
  rcases (allocate_eq_some h).2.2 with rfl | rfl
  · exact .of_same rfl rfl rfl rfl rfl rfl rfl rfl rfl rfl rfl rfl
  · exact hd.trans (.of_same rfl rfl rfl rfl rfl rfl rfl rfl rfl rfl rfl rfl)

theorem dequeue_within (x : BitVec 8) (m : Nat) (s : State) : Within s (dequeue x m s) := by
  unfold dequeue
  split
  · exact .of_same rfl rfl rfl rfl rfl rfl rfl rfl rfl rfl rfl rfl
  · exact .refl s

end Sys2Proof.Machine
end

