-- ==== Sys2Proof/Laws/Phases.lean ====
section
/-! SUPPORT. Every instruction, machine step and phase of a tick answers a next state and stays `Within` the tick. -/

namespace Sys2Proof.Machine

/-! ### Instructions -/

/-- Every instruction answers a next state, which stays within the tick. -/
theorem exec_next (i : Instr) (s : State) : ∃ t, exec i s = .next t ∧ Within s t := by
  cases i with
  | nop => exact ⟨_, rfl, giveResult_within _ _⟩
  | crNegotiate k l p =>
    simp only [exec, execCrNegotiate]
    split
    · exact ⟨_, rfl, (logFault_within _ _ s).trans (giveResult_within _ _)⟩
    · rename_i h
      exact ⟨_, rfl, (setPool_within (by simpa using h) _).trans (giveResult_within _ _)⟩
  | crTryIssue k =>
    simp only [exec, execCrTryIssue]
    split
    · rename_i h; exact ⟨_, rfl, (takeCredit_within h).trans (giveResult_within _ _)⟩
    · exact ⟨_, rfl, giveResult_within _ _⟩
  | crReturn k =>
    simp only [exec, execCrReturn]
    split
    · rename_i h; exact ⟨_, rfl, (addCredit_within h).trans (giveResult_within _ _)⟩
    · exact ⟨_, rfl, (logFault_within _ _ s).trans (giveResult_within _ _)⟩
  | crRead k => exact ⟨_, rfl, giveResult_within _ _⟩
  | tgAllocate r =>
    simp only [exec, execTgAllocate]
    split
    · split
      · rename_i h; exact ⟨_, rfl, (allocate_within h).trans (giveResult_within _ _)⟩
      · exact ⟨_, rfl, (logFault_within _ _ s).trans (giveResult_within _ _)⟩
    · exact ⟨_, rfl, (logFault_within _ _ s).trans (giveResult_within _ _)⟩
  | tgResolve g =>
    simp only [exec, execTgResolve]
    split
    · exact ⟨_, rfl, giveResult_within _ _⟩
    · exact ⟨_, rfl, (logFault_within _ _ s).trans (giveResult_within _ _)⟩
  | tgRelease g =>
    simp only [exec, execTgRelease]
    split
    · exact ⟨_, rfl, .of_same rfl rfl rfl rfl rfl rfl rfl rfl rfl rfl rfl rfl⟩
    · exact ⟨_, rfl, (logFault_within _ _ s).trans (giveResult_within _ _)⟩
  | dfEnqueue x n data =>
    simp only [exec, execDfEnqueue]
    split
    · split
      · exact ⟨_, rfl, (logFault_within _ _ s).trans (giveResult_within _ _)⟩
      · split
        · exact ⟨_, rfl, giveResult_within _ _⟩
        · split
          · exact ⟨_, rfl, (logFault_within _ _ s).trans (giveResult_within _ _)⟩
          · exact ⟨_, rfl, .of_same rfl rfl rfl rfl rfl rfl rfl rfl rfl rfl rfl rfl⟩
    · exact ⟨_, rfl, (logFault_within _ _ s).trans (giveResult_within _ _)⟩
  | dfDrain x n =>
    simp only [exec, execDfDrain]
    split
    · refine ⟨_, rfl, Within.trans ?_ (giveResult_within _ _)⟩
      split
      · exact (dequeue_within _ _ s).trans (logFault_within _ _ _)
      · exact dequeue_within _ _ s
    · exact ⟨_, rfl, (logFault_within _ _ s).trans (giveResult_within _ _)⟩
  | dfStream k x =>
    simp only [exec, execDfStream]
    split
    · split
      · exact ⟨_, rfl, (logFault_within _ _ s).trans (giveResult_within _ _)⟩
      · split
        · rename_i h1
          split
          · rename_i h2
            refine ⟨_, rfl, ((takeCredit_within h2).trans (dequeue_within x 1 _)).trans
              (Within.trans (drive_within ?_) (giveResult_within _ _))⟩
            rw [dataPayload_signal, canDrive_congr ?_ ?_ ?_, h1]
            all_goals (unfold dequeue; split <;> rfl)
          · exact ⟨_, rfl, giveResult_within _ _⟩
        · exact ⟨_, rfl, giveResult_within _ _⟩
    · exact ⟨_, rfl, (logFault_within _ _ s).trans (giveResult_within _ _)⟩
  | dfCount x =>
    simp only [exec, execDfCount]
    split
    · exact ⟨_, rfl, giveResult_within _ _⟩
    · exact ⟨_, rfl, (logFault_within _ _ s).trans (giveResult_within _ _)⟩
  | btDrive p =>
    simp only [exec, execBtDrive]
    split
    · rename_i h; exact ⟨_, rfl, (drive_within h).trans (giveResult_within _ _)⟩
    · exact ⟨_, rfl, giveResult_within _ _⟩
  | btRead g => exact ⟨_, rfl, giveResult_within _ _⟩
  | prRdMem ea tag pl =>
    simp only [exec, execPrRdMem]
    split
    · exact ⟨_, rfl, logFault_within _ _ _⟩
    · exact ⟨_, rfl, .of_same rfl rfl rfl rfl rfl rfl rfl rfl rfl rfl rfl rfl⟩
  | prWrMem ea tag pl =>
    simp only [exec, execPrWrMem]
    split
    · exact ⟨_, rfl, logFault_within _ _ _⟩
    · exact ⟨_, rfl, .of_same rfl rfl rfl rfl rfl rfl rfl rfl rfl rfl rfl rfl⟩
  | configRead pa tag pl =>
    simp only [exec, execConfigRead]
    split
    · exact ⟨_, rfl, logFault_within _ _ _⟩
    · exact ⟨_, rfl, .of_same rfl rfl rfl rfl rfl rfl rfl rfl rfl rfl rfl rfl⟩
  | configWrite pa tag pl =>
    simp only [exec, execConfigWrite]
    split
    · exact ⟨_, rfl, logFault_within _ _ _⟩
    · exact ⟨_, rfl, .of_same rfl rfl rfl rfl rfl rfl rfl rfl rfl rfl rfl rfl⟩

theorem exec_within {i : Instr} {s t : State} (h : exec i s = .next t) : Within s t := by
  obtain ⟨u, hu, hw⟩ := exec_next i s
  rw [h] at hu
  cases hu
  exact hw

/-! ### Phase 3 -/

theorem runRequest_next (q : Request) (s : State) : ∃ t, runRequest q s = .next t ∧ Within s t := by
  unfold runRequest
  split
  · exact exec_next _ s
  · exact ⟨_, rfl, (logFault_within _ _ s).trans (giveResult_within _ _)⟩

theorem runRequests_next (qs : List Request) (s : State) : ∃ t, runRequests qs s = .next t ∧ Within s t := by
  induction qs generalizing s with
  | nil => exact ⟨s, rfl, .refl s⟩
  | cons q qs ih =>
    obtain ⟨t, ht, hw⟩ := runRequest_next q s
    obtain ⟨u, hu, hv⟩ := ih t
    exact ⟨u, by rw [runRequests, ht, andThen_next, hu], hw.trans hv⟩

/-! ### Phase 4 -/

theorem router_within (s : State) : Within s (router s) := by
  have h1 : Within s (routeResponse s) := by
    unfold routeResponse
    split
    · dsimp only
      split
      · split
        · exact .of_same rfl rfl rfl rfl rfl rfl rfl rfl rfl rfl rfl rfl
        · exact .of_same rfl rfl rfl rfl rfl rfl rfl rfl rfl rfl rfl rfl
      · exact logFault_within _ _ s
    · exact .refl s
  refine h1.trans (?_ : Within _ (passResponseData (routeResponse s)))
  unfold passResponseData
  split
  · exact .of_same rfl rfl rfl rfl rfl rfl rfl rfl rfl rfl rfl rfl
  · exact .refl _

/-! ### Phase 5 -/

theorem canEmit_iff (data : Bool) (s : State) :
    canEmit data s = true ↔ canDrive .respV s = true ∧ hasCredit .resp s = true ∧
      (data = true → canDrive .respDataV s = true ∧ hasCredit .respData s = true) := by
  cases data <;> simp [canEmit, and_assoc]

theorem sendResponse_within {p : RespRec} {b : Option Beat} {s : State} (h : canEmit b.isSome s = true) :
    Within s (sendResponse p b s) := by
  rw [canEmit_iff] at h
  obtain ⟨h1, h2, h3⟩ := h
  have w1 : Within s (drive (.resp p) (takeCredit .resp s)) := (takeCredit_within h2).trans (drive_within h1)
  cases b with
  | none => exact w1
  | some b =>
    obtain ⟨h4, h5⟩ := h3 rfl
    have h6 : hasCredit .respData (drive (.resp p) (takeCredit .resp s)) = true := h5
    exact w1.trans ((takeCredit_within h6).trans (drive_within (p := .respData { bad := false, data := b }) h4))

theorem retryPm_within (s : State) : Within s (retryPm s) := by
  unfold retryPm
  have h : Within s { s with pm := { s.pm with retry := s.pm.retry + 1 } } :=
    .of_same rfl rfl rfl rfl rfl rfl rfl rfl rfl rfl rfl rfl
  dsimp only
  split
  · exact h.trans ((logFault_within _ _ _).trans (.of_same rfl rfl rfl rfl rfl rfl rfl rfl rfl rfl rfl rfl))
  · exact h

theorem retryCm_within (r : CmResp) (s : State) : Within s (retryCm r s) := by
  unfold retryCm
  have h : Within s { s with cm := { s.cm with retry := s.cm.retry + 1 } } :=
    .of_same rfl rfl rfl rfl rfl rfl rfl rfl rfl rfl rfl rfl
  dsimp only
  split
  · exact h.trans ((logFault_within _ _ _).trans (.of_same rfl rfl rfl rfl rfl rfl rfl rfl rfl rfl rfl rfl))
  · exact h

theorem emitPm_within (s : State) : Within s (emitPm s) := by
  unfold emitPm
  split
  · split
    · rename_i h
      exact (sendResponse_within h).trans (.of_same rfl rfl rfl rfl rfl rfl rfl rfl rfl rfl rfl rfl)
    · exact retryPm_within s
  · exact .refl s
  · exact .refl s

theorem emitCm_within (s : State) : Within s (emitCm s) := by
  unfold emitCm
  split
  · split
    · rename_i h
      exact (sendResponse_within h).trans (.of_same rfl rfl rfl rfl rfl rfl rfl rfl rfl rfl rfl rfl)
    · exact retryCm_within _ s
  · exact .refl s

theorem emitResponses_within (s : State) : Within s (emitResponses s) := by
  unfold emitResponses
  split
  · exact (emitPm_within s).trans (emitCm_within _)
  · exact (emitCm_within s).trans (emitPm_within _)

theorem dispatchData_within (s : State) : Within s (dispatchData s) := by
  unfold dispatchData
  split
  · split
    · exact .of_same rfl rfl rfl rfl rfl rfl rfl rfl rfl rfl rfl rfl
    · exact logFault_within _ _ s
  · exact .refl s

theorem stepPm_within (d : Option MachineId) (s : State) : Within s (stepPm d s) := by
  unfold stepPm
  split
  · split
    · unfold pmData
      dsimp only
      split
      · exact (logFault_within _ _ s).trans (.of_same rfl rfl rfl rfl rfl rfl rfl rfl rfl rfl rfl rfl)
      · exact .of_same rfl rfl rfl rfl rfl rfl rfl rfl rfl rfl rfl rfl
    · unfold pmWait
      have h : Within s { s with pm := { s.pm with wait := s.pm.wait + 1 } } :=
        .of_same rfl rfl rfl rfl rfl rfl rfl rfl rfl rfl rfl rfl
      dsimp only
      split
      · exact h.trans ((logFault_within _ _ _).trans (.of_same rfl rfl rfl rfl rfl rfl rfl rfl rfl rfl rfl rfl))
      · exact h
  · exact .refl s
  · exact .refl s

theorem stepCm_within (d : Option MachineId) (s : State) : Within s (stepCm d s) := by
  unfold stepCm
  split
  · split
    · unfold cmData
      dsimp only
      split
      · exact (logFault_within _ _ s).trans (.of_same rfl rfl rfl rfl rfl rfl rfl rfl rfl rfl rfl rfl)
      · split
        · exact .of_same rfl rfl rfl rfl rfl rfl rfl rfl rfl rfl rfl rfl
        · exact .of_same rfl rfl rfl rfl rfl rfl rfl rfl rfl rfl rfl rfl
    · unfold cmWait
      have h : Within s { s with cm := { s.cm with wait := s.cm.wait + 1 } } :=
        .of_same rfl rfl rfl rfl rfl rfl rfl rfl rfl rfl rfl rfl
      dsimp only
      split
      · exact h.trans ((logFault_within _ _ _).trans (.of_same rfl rfl rfl rfl rfl rfl rfl rfl rfl rfl rfl rfl))
      · exact h
  · exact .refl s

theorem commandUnit_next (s : State) : ∃ t, commandUnit s = .next t ∧ Within s t := by
  unfold commandUnit
  split
  · split
    · exact exec_next _ s
    · exact ⟨_, rfl, logFault_within _ _ s⟩
  · exact ⟨s, rfl, .refl s⟩

theorem configUnit_next (s : State) : ∃ t, configUnit s = .next t ∧ Within s t := by
  unfold configUnit
  split
  · split
    · exact exec_next _ s
    · exact ⟨_, rfl, logFault_within _ _ s⟩
  · exact ⟨s, rfl, .refl s⟩

theorem beforeCommand_within (s : State) : Within s (beforeCommand s) :=
  (emitResponses_within s).trans ((dispatchData_within _).trans (stepPm_within _ _))

/-- The four parts of phase 5, each answering a next state. -/
theorem sequencer_next (s : State) :
    ∃ u t, commandUnit (beforeCommand s) = .next u ∧ configUnit (stepCm (tickDelivery s) u) = .next t ∧
      sequencer s = .next t ∧ Within s t := by
  obtain ⟨u, hu, hw⟩ := commandUnit_next (beforeCommand s)
  obtain ⟨t, ht, hv⟩ := configUnit_next (stepCm (tickDelivery s) u)
  exact ⟨u, t, hu, ht, by rw [sequencer, hu, andThen_next, ht],
    (beforeCommand_within s).trans (hw.trans ((stepCm_within _ u).trans hv))⟩

/-! ### Phases 6 and 8 -/

theorem grant_within (c : Nat) (s : State) : Within s (grant c s) := by
  unfold grant
  split
  · rename_i h
    simp only [canGrant, Bool.and_eq_true] at h
    split
    · rename_i n t ha
      have w1 : Within s t := (takeCredit_within h.1.1).trans (allocate_within ha)
      refine w1.trans (Within.trans (drive_within ?_) (.of_same rfl rfl rfl rfl rfl rfl rfl rfl rfl rfl rfl rfl))
      have ht : t.sigs = s.sigs ∧ t.out.ev = s.out.ev ∧ t.cfg = s.cfg := by
        rcases (allocate_eq_some ha).2.2 with rfl | rfl
        · exact ⟨rfl, rfl, rfl⟩
        · rcases nextDraw_cases (takeCredit .cmd s) with ⟨ds, hd⟩ | hd
          · rw [hd]; exact ⟨rfl, rfl, rfl⟩
          · rw [hd]; exact ⟨rfl, rfl, rfl⟩
      exact (canDrive_congr ht.2.1 ht.1 ht.2.2 .cmdV).trans h.1.2
    · exact .refl s
  · exact .refl s

theorem arbiter_within (s : State) : Within s (arbiter s) := by
  have h1 : Within s (updateMembership s) := .of_same rfl rfl rfl rfl rfl rfl rfl rfl rfl rfl rfl rfl
  refine h1.trans (?_ : Within _ (grantStep (updateMembership s)))
  unfold grantStep
  split
  · split
    · exact grant_within _ _
    · exact .refl _
  all_goals exact .refl _

theorem inboundReturn_within (k : CreditKind) (s : State) : Within s (inboundReturn k s) := by
  unfold inboundReturn
  split
  · split
    · rename_i h; exact addCredit_within h
    · exact logFault_within _ _ s
  · exact .refl s

theorem creditReturns_within (s : State) : Within s (creditReturns s) :=
  (inboundReturn_within _ s).trans ((inboundReturn_within _ _).trans ((inboundReturn_within _ _).trans (inboundReturn_within _ _)))

/-! ### The whole tick -/

/-- A tick that yields a snapshot: the states at the ends of its phases, each within the tick. -/
theorem fullTick_next (s : State) :
    ∃ u v, runRequests s.inp.req (beginTick s) = .next u ∧ Within (beginTick s) u ∧
      sequencer (router u) = .next v ∧ Within (router u) v ∧ fullTick s = .next (endTick v) := by
  obtain ⟨u, hu, hw⟩ := runRequests_next s.inp.req (beginTick s)
  obtain ⟨_, v, _, _, hv, hx⟩ := sequencer_next (router u)
  exact ⟨u, v, hu, hw, hv, hx, by rw [fullTick, hu, andThen_next, afterRequests, hv, andThen_next]⟩

end Sys2Proof.Machine
end

