-- ==== Sys2Proof/Laws/Tick.lean ====
section
/-! SUPPORT. The two ends of a tick, said once: what the start of a step and of a tick leave, what its end leaves, and the four ways a step
can go. -/

namespace Sys2Proof.Machine

/-! ### The start of a step -/

@[simp] theorem takeInput_cfg (s : State) : (takeInput s).cfg = s.cfg := rfl
@[simp] theorem takeInput_pools (s : State) : (takeInput s).pools = s.pools := rfl
@[simp] theorem takeInput_tags (s : State) : (takeInput s).tags = s.tags := rfl
@[simp] theorem takeInput_fifo (s : State) : (takeInput s).fifo = s.fifo := rfl
@[simp] theorem takeInput_drained (s : State) : (takeInput s).drained = s.drained := rfl
@[simp] theorem takeInput_pm (s : State) : (takeInput s).pm = s.pm := rfl
@[simp] theorem takeInput_cm (s : State) : (takeInput s).cm = s.cm := rfl
@[simp] theorem takeInput_rdq (s : State) : (takeInput s).rdq = s.rdq := rfl
@[simp] theorem takeInput_lc (s : State) : (takeInput s).lc = s.lc := rfl
@[simp] theorem takeInput_rot (s : State) : (takeInput s).rot = s.rot := rfl
@[simp] theorem takeInput_sigs (s : State) : (takeInput s).sigs = s.sigs := rfl
@[simp] theorem takeInput_cycle (s : State) : (takeInput s).cycle = s.cycle := rfl
@[simp] theorem takeInput_diag (s : State) : (takeInput s).diag = s.diag := rfl
@[simp] theorem takeInput_closed (s : State) : (takeInput s).closed = s.closed := rfl
@[simp] theorem takeInput_inp (s : State) : (takeInput s).inp = nextInput s := rfl
@[simp] theorem takeInput_out (s : State) : (takeInput s).out = Outputs.none := rfl

theorem takeInput_sound {s : State} (h : Sound s) : Sound (takeInput s) :=
  Sound.applyPokes (s := { s with inp := nextInput s, pending := s.pending.tail, out := .none })
    (h.of_same rfl rfl rfl rfl rfl rfl rfl rfl rfl rfl rfl rfl rfl)

/-! ### The start of a tick -/

/-- The records of the X/Z check: one for each flagged interface. -/
def xzRecords (s : State) : List Diag :=
  List.replicate
    ([s.inp.xz.cmd, s.inp.xz.cmdData, s.inp.xz.resp, s.inp.xz.respData, s.inp.xz.cfg, s.inp.xz.ret].count true)
    { cycle := s.cycle, op := .xz, kind := .xzViolation }

theorem xzRecords_cycle (s : State) : ∀ d ∈ xzRecords s, d.cycle = s.cycle := by
  intro d hd
  rw [List.eq_of_mem_replicate hd]

/-- Everything the start of a tick does. -/
theorem beginTick_eq (s : State) :
    beginTick s = { s with
      drained := [], inp := cleanInput s.inp, diag := s.diag ++ xzRecords s,
      out := { Outputs.none with diag := xzRecords s } } := by
  unfold beginTick xzCheck logXz xzRecords
  dsimp only [tickStart]
  rcases s.inp.xz with ⟨_ | _, _ | _, _ | _, _ | _, _ | _, _ | _⟩ <;>
    simp [logFault, Outputs.none, List.replicate]

theorem beginTick_sound {s : State} (h : Sound s) : Sound (beginTick s) := by
  rw [beginTick_eq]
  have hq := h.queues
  exact { config := h.config, pools := h.pools, tags := h.tags, queues := ⟨hq.1, hq.2.1, rfl, by simp⟩, pm := h.pm, cm := h.cm,
          rdq := h.rdq, rot := h.rot, sigs := h.sigs, storage := h.storage }

/-! ### The end of a tick -/

theorem sigCount_countDownAll (g : Sigs) (sig : Signal) : sigCount (countDownAll g) sig = sigCount g sig - 1 := by
  cases sig <;> rfl

theorem closeTick_sound {s : State} (h : Sound s) : Sound (closeTick s) := by
  obtain ⟨a, b, c, d⟩ := h.sigs
  exact { config := h.config, pools := h.pools, tags := h.tags, queues := h.queues, pm := h.pm, cm := h.cm, rdq := h.rdq,
          rot := h.rot, storage := h.storage,
          sigs := ⟨⟨(Nat.sub_le _ _).trans a.1, fun hc => a.2 (lt_of_lt_of_le hc (Nat.sub_le _ _))⟩,
            ⟨(Nat.sub_le _ _).trans b.1, fun hc => b.2 (lt_of_lt_of_le hc (Nat.sub_le _ _))⟩,
            ⟨(Nat.sub_le _ _).trans c.1, fun hc => c.2 (lt_of_lt_of_le hc (Nat.sub_le _ _))⟩,
            ⟨(Nat.sub_le _ _).trans d.1, fun hc => d.2 (lt_of_lt_of_le hc (Nat.sub_le _ _))⟩⟩ }

/-! ### The four ways a step can go -/

theorem step_eq_refused {s : State} (h : configOk s.cfg = false) : step s = .refused .invalidConfiguration := by
  simp [step, h]

theorem step_of_rst {s : State} (h : configOk s.cfg = true) (hr : (nextInput s).rst = true) :
    step s = .next (newSession (takeInput s)) := by
  simp [step, tick, h, hr]

theorem step_of_closed {s : State} (h : configOk s.cfg = true) (hr : (nextInput s).rst = false) (hc : s.closed = true) :
    step s = .next (takeInput s) := by
  simp [step, tick, h, hr, hc]

theorem step_of_lost {s : State} (h : configOk s.cfg = true) (hr : (nextInput s).rst = false) (hc : s.closed = false)
    (hl : losesSession (nextInput s) = true) : step s = .next (closeSession (takeInput s)) := by
  simp [step, tick, h, hr, hc, hl]

theorem yieldsSnapshot_iff (s : State) :
    yieldsSnapshot s = true ↔
      configOk s.cfg = true ∧ (nextInput s).rst = false ∧ s.closed = false ∧ losesSession (nextInput s) = false := by
  simp [yieldsSnapshot, and_assoc]

theorem step_of_yields {s : State} (h : yieldsSnapshot s = true) : step s = fullTick (takeInput s) := by
  obtain ⟨h1, h2, h3, h4⟩ := (yieldsSnapshot_iff s).1 h
  simp [step, tick, h1, h2, h3, h4]

/-- Every step that answers a next state goes one of four ways. -/
theorem step_cases {s t : State} (h : step s = .next t) :
    configOk s.cfg = true ∧
    (((nextInput s).rst = true ∧ t = newSession (takeInput s)) ∨
     ((nextInput s).rst = false ∧ s.closed = true ∧ t = takeInput s) ∨
     ((nextInput s).rst = false ∧ s.closed = false ∧ losesSession (nextInput s) = true ∧ t = closeSession (takeInput s)) ∨
     (yieldsSnapshot s = true ∧ fullTick (takeInput s) = .next t)) := by
  by_cases h1 : configOk s.cfg = true
  · refine ⟨h1, ?_⟩
    by_cases h2 : (nextInput s).rst = true
    · rw [step_of_rst h1 h2] at h; cases h; exact .inl ⟨h2, rfl⟩
    · rw [Bool.not_eq_true] at h2
      by_cases h3 : s.closed = true
      · rw [step_of_closed h1 h2 h3] at h; cases h; exact .inr (.inl ⟨h2, h3, rfl⟩)
      · rw [Bool.not_eq_true] at h3
        by_cases h4 : losesSession (nextInput s) = true
        · rw [step_of_lost h1 h2 h3 h4] at h; cases h; exact .inr (.inr (.inl ⟨h2, h3, h4, rfl⟩))
        · rw [Bool.not_eq_true] at h4
          have hy := (yieldsSnapshot_iff s).2 ⟨h1, h2, h3, h4⟩
          exact .inr (.inr (.inr ⟨hy, by rw [← step_of_yields hy, h]⟩))
  · rw [step_eq_refused (by simpa using h1)] at h; cases h

/-- A step that yields a snapshot: the state its arbiter leaves, then the last three phases. -/
theorem step_yields {s t : State} (hy : yieldsSnapshot s = true) (h : step s = .next t) :
    ∃ u v, runRequests (nextInput s).req (beginTick (takeInput s)) = .next u ∧ sequencer (router u) = .next v ∧
      Within (beginTick (takeInput s)) u ∧ Within u v ∧ Within v (arbiter v) ∧
      Within (lifecycleStep (arbiter v)) (creditReturns (lifecycleStep (arbiter v))) ∧
      t = closeTick (creditReturns (lifecycleStep (arbiter v))) := by
  obtain ⟨u, v, hu, hw, hv, hx, hf⟩ := fullTick_next (takeInput s)
  rw [step_of_yields hy, hf] at h
  cases h
  exact ⟨u, v, hu, hv, hw, (router_within u).trans hx, arbiter_within v, creditReturns_within _, rfl⟩

end Sys2Proof.Machine
end

