-- ==== Sys2Proof/Laws/Frames.lean ====
section
/-! SUPPORT. Frames, said once: what a request that only answers leaves as it was, what a command unit can change, and what taking a
credit, removing packets, allocating a tag, merging a register's lane and the phases of a tick do. -/

namespace Sys2Proof.Machine

/-- A request that only gives a result. -/
theorem answer_frame {s t : State} (r : Result) (h : t = giveResult r s) : RequestFrame s t ∧ KeepsPools s t ∧ KeepsTags s t ∧
    KeepsQueues s t ∧ KeepsSignals s t ∧ NotLogged s t ∧ Answered r s t := by
  subst h
  exact ⟨⟨⟨rfl, rfl, rfl, rfl, rfl, rfl, rfl, rfl, rfl, rfl⟩, ⟨rfl, rfl, rfl, rfl⟩, fun _ => rfl, fun _ => rfl, rfl⟩,
      fun _ => rfl, ⟨fun _ => rfl, rfl, rfl⟩, ⟨fun _ => rfl, fun _ => rfl⟩, ⟨rfl, rfl⟩, ⟨rfl, rfl⟩, rfl⟩

/-- A request that logs one record and gives a result. -/
theorem raise_frame {s t : State} (r : Result) (k : FaultKind) (op : OpName) (h : t = giveResult r (logFault k op s)) :
    RequestFrame s t ∧ KeepsPools s t ∧ KeepsTags s t ∧ KeepsQueues s t ∧ KeepsSignals s t ∧ Logged k op s t ∧
    Answered r s t := by
  subst h
  exact ⟨⟨⟨rfl, rfl, rfl, rfl, rfl, rfl, rfl, rfl, rfl, rfl⟩, ⟨rfl, rfl, rfl, rfl⟩, fun _ => rfl, fun _ => rfl, rfl⟩,
      fun _ => rfl, ⟨fun _ => rfl, rfl, rfl⟩, ⟨fun _ => rfl, fun _ => rfl⟩, ⟨rfl, rfl⟩, ⟨rfl, rfl⟩, rfl⟩

/-- A change of the machines, their queue, the records and the accesses is within a command's frame. -/
theorem commandFrame_of {s t : State} (h : ∃ pm cm rdq rc d od ac, t = { s with
    pm := pm, cm := cm, rdq := rdq, diag := d,
    out := { s.out with rdReqCount := rc, diag := od, accesses := ac } }) : CommandFrame s t := by
  obtain ⟨pm, cm, rdq, rc, d, od, ac, rfl⟩ := h
  exact ⟨⟨rfl, rfl, rfl, rfl, rfl, rfl, rfl, rfl, rfl, rfl⟩, fun _ => rfl, ⟨fun _ => rfl, rfl, rfl⟩, ⟨fun _ => rfl,
      fun _ => rfl⟩, ⟨rfl, rfl⟩, rfl, fun _ => rfl, fun _ => rfl⟩

/-- Taking a credit that is there. -/
theorem tookCredit_takeCredit {k : CreditKind} {s : State} (h : hasCredit k s = true) : TookCredit k s (takeCredit k s) := by
  have := takeCredit_avail h
  rw [hasCredit_iff] at h
  refine ⟨by omega, ?_, ?_, fun j hj => takeCredit_get_ne hj s⟩ <;> simp

/-- Removing packets touches the queues and the drained marks alone. -/
theorem dequeue_fields (x : BitVec 8) (m : Nat) (s : State) : ∃ f d, (dequeue x m s) = { s with fifo := f, drained := d } := by
  unfold dequeue; split
  · exact ⟨_, _, rfl⟩
  · exact ⟨_, _, rfl⟩

/-- Everything removing packets does. -/
theorem dequeue_spec {x : BitVec 8} {m : Nat} {s : State} (hs : Store.sorted s.fifo = true) :
    queueOf (dequeue x m s) x = (queueOf s x).drop m ∧ (∀ y, y ≠ x → queueOf (dequeue x m s) y = queueOf s y ∧
    isDrained (dequeue x m s) y = isDrained s y) ∧ (isDrained (dequeue x m s) x = true ↔ isDrained s x = true ∨ 0 < m) := by
  unfold dequeue
  split
  · rename_i h
    have e : ∀ y, queueOf (markDrained x (setQueue x ((queueOf s x).drop m) s)) y = queueOf (setQueue x ((queueOf s x).drop m) s) y := fun _ => rfl
    refine ⟨by rw [e]; exact queueOf_setQueue hs x _, fun y hy => ⟨by rw [e]; exact lookup_setQueue_ne hy _ s, ?_⟩, ?_⟩
    · unfold isDrained; rw [markDrained_drained, lookup_insertAt_ne]; · rfl
      · exact fun e => hy (BitVec.eq_of_toNat_eq e)
    · simp [isDrained_markDrained, h]
  · rename_i h; have : m = 0 := by omega
    subst this; simp

/-- An allocation with a free tag. -/
theorem allocate_spec {r : BitVec 8} {s : State} (h : freeTags s ≠ []) : ∃ n t, allocate r s = some (n, t) ∧ n < tagPool s ∧
    lookup s.tags n = none ∧ (s.cfg.allocPolicy = .lowest → ∀ m < n, lookup s.tags m ≠ none) ∧
    (t = bindTag n r s ∨ t = bindTag n r (nextDraw s).2) := by
  cases ha : allocate r s with
  | none => exact absurd (allocate_eq_none.1 ha) h
  | some p =>
    obtain ⟨n, t⟩ := p
    obtain ⟨h1, h2, h3⟩ := allocate_eq_some ha
    refine ⟨n, t, rfl, h1, h2, fun hp m hm hl => ?_, h3⟩
    unfold allocate at ha
    split at ha
    · cases ha
    · rename_i u us hf
      rw [hp] at ha
      simp only [Option.some.injEq, Prod.mk.injEq] at ha
      obtain ⟨rfl, _⟩ := ha
      have hmem : m ∈ freeTags s := mem_freeTags.2 ⟨by omega, hl⟩
      have hpw : (freeTags s).Pairwise (· < ·) := List.pairwise_lt_range.filter _
      rw [hf] at hmem hpw
      rcases List.mem_cons.1 hmem with rfl | hmem
      · omega
      · have := (List.pairwise_cons.1 hpw).1 m hmem; omega

/-- Moving a context to the back of a rotation it is in once. -/
theorem moveToBack_append (pre post : List Nat) (c : Nat) (hn : (pre ++ c :: post).Nodup) :
    moveToBack c (pre ++ c :: post) = pre ++ post ++ [c] := by
  unfold moveToBack
  obtain ⟨h1, h2, h3⟩ := List.nodup_append.1 hn
  have e1 : pre.filter (fun e => decide (e ≠ c)) = pre := List.filter_eq_self.2 fun a ha => by simpa using h3 a ha c (by simp)
  have e2 : post.filter (fun e => decide (e ≠ c)) = post := List.filter_eq_self.2 fun a ha => by
    have := (List.nodup_cons.1 h2).1
    simp only [ne_eq, decide_eq_true_eq]; rintro rfl; exact this ha
  rw [List.filter_append, e1, List.filter_cons_of_neg (by simp), e2]

/-- Byte `j` of the word a configuration write leaves. -/
theorem mergedWord_byte (old : Word) (lane : Nat) (bs : List Byte) (hl : lane + bs.length ≤ 4) (j : Nat) (hj : j < 4) :
    (mergedWord old lane bs).toNat / 256 ^ j % 256 = if lane ≤ j ∧
        j < lane + bs.length then (bs.getD (j - lane) 0).toNat else old.toNat / 256 ^ j % 256 := by
  unfold mergedWord
  split
  · rename_i h4
    have := leValue_lt bs
    rw [BitVec.toNat_ofNat, Nat.mod_eq_of_lt (a := leValue bs) (by rw [h4] at this; simpa using this),
        leValue_byte _ _ (by omega)]
    have h0 : lane = 0 := by omega
    subst h0; simp [h4, hj]
  · have hlen : (overlayBytes (leBytes 4 old.toNat) lane bs).length = 4 := by simp
    have := leValue_lt (overlayBytes (leBytes 4 old.toNat) lane bs)
    rw [BitVec.toNat_ofNat, Nat.mod_eq_of_lt (a := leValue _) (by rw [hlen] at this; simpa using this),
        leValue_byte _ _ (by rw [hlen]; exact hj)]
    simp only [overlayBytes, length_leBytes]
    rw [List.getD_eq_getElem _ _ (by simpa using hj)]
    simp only [List.getElem_map, List.getElem_range]
    split
    · rfl
    · rw [getD_leBytes _ _ _ hj]

end Sys2Proof.Machine
end

