-- ==== Sys2Proof/Laws/Later.lean ====
section
/-! SUPPORT. What follows the requests of a tick, said once: the later phases give no result, negotiate no pool and put no credit into an
empty one before phase 8; the parts of phase 8; the results of the requests. -/

namespace Sys2Proof.Machine

/-- What the phases between the requests and phase 8 keep. -/
structure Later (s t : State) : Prop where
  res : t.out.res = s.out.res
  pools : ∀ k, (t.pools.get k).initial = (s.pools.get k).initial ∧
    (t.pools.get k).negotiated = (s.pools.get k).negotiated ∧
    ((s.pools.get k).avail = 0 → (t.pools.get k).avail = 0)

theorem Later.refl (s : State) : Later s s := ⟨rfl, fun _ => ⟨rfl, rfl, id⟩⟩

theorem Later.of_same {s t : State} (h : t.out.res = s.out.res) (hp : t.pools = s.pools) : Later s t := ⟨h,
    fun k => by rw [hp]; exact ⟨rfl, rfl, id⟩⟩

theorem Later.trans {s t u : State} (a : Later s t) (b : Later t u) : Later s u :=
  ⟨b.res.trans a.res, fun k => ⟨(b.pools k).1.trans (a.pools k).1, (b.pools k).2.1.trans (a.pools k).2.1,
      fun h => (b.pools k).2.2 ((a.pools k).2.2 h)⟩⟩

theorem Later.take {k : CreditKind} {s : State} (h : hasCredit k s = true) : Later s (takeCredit k s) := by
  refine ⟨rfl, fun j => ?_⟩
  by_cases hj : j = k
  · subst hj
    rw [hasCredit_iff] at h
    simp only [takeCredit_pools, Four.get_set_self, true_and]
    intro h0; rw [h0] at h; simp at h
  · simp [Four.get_set_ne _ hj]

theorem Later.drive (p : DrivePayload) (s : State) : Later s (drive p s) := by cases p <;> exact .of_same rfl rfl

theorem Later.sendResponse {p : RespRec} {b : Bool} {o : Option Beat} {s : State} (h : canEmit b s = true) (hb : b = o.isSome) :
    Later s (sendResponse p o s) := by
  subst hb
  rw [canEmit_iff] at h
  obtain ⟨h1, h2, h3⟩ := h
  have w1 : Later s (Machine.drive (.resp p) (takeCredit .resp s)) := (Later.take h2).trans (Later.drive _ _)
  cases o with
  | none => exact w1
  | some b =>
    obtain ⟨h4, h5⟩ := h3 rfl
    have h6 : hasCredit .respData (Machine.drive (.resp p) (takeCredit .resp s)) = true := h5
    exact w1.trans ((Later.take h6).trans (Later.drive (.respData { bad := false, data := b }) _))

theorem emitPm_later (s : State) : Later s (emitPm s) := by
  unfold emitPm
  split
  · split
    · rename_i h; exact (Later.sendResponse h rfl).trans (.of_same rfl rfl)
    · unfold retryPm; dsimp only; split <;> exact .of_same rfl rfl
  all_goals exact .refl s

theorem emitCm_later (s : State) : Later s (emitCm s) := by
  unfold emitCm
  split
  · split
    · rename_i h; exact (Later.sendResponse h rfl).trans (.of_same rfl rfl)
    · unfold retryCm; dsimp only; split <;> exact .of_same rfl rfl
  all_goals exact .refl s

theorem beforeCommand_later (s : State) : Later s (beforeCommand s) := by
  unfold beforeCommand
  dsimp only
  have h1 : Later s (emitResponses s) := by
    unfold emitResponses; split
    · exact (emitPm_later _).trans (emitCm_later _)
    · exact (emitCm_later _).trans (emitPm_later _)
  refine h1.trans (Later.trans (t := dispatchData (emitResponses s)) ?_ ?_)
  · unfold dispatchData; split
    · split <;> exact .of_same rfl rfl
    · exact .refl _
  · unfold stepPm; split
    · split
      · unfold pmData; dsimp only; split <;> exact .of_same rfl rfl
      · unfold pmWait; dsimp only; split <;> exact .of_same rfl rfl
    all_goals exact .refl _

theorem stepCm_later (d : Option MachineId) (s : State) : Later s (stepCm d s) := by
  unfold stepCm; split
  · split
    · unfold cmData; dsimp only; split
      · exact .of_same rfl rfl
      · split <;> exact .of_same rfl rfl
    · unfold cmWait; dsimp only; split <;> exact .of_same rfl rfl
  all_goals exact .refl _

theorem commandUnit_later {s t : State} (h : commandUnit s = .next t) : Later s t := by
  unfold commandUnit at h
  split at h
  · unfold decodeCommand at h
    split at h
    · rename_i i hi
      split at hi <;> cases hi
      · simp only [exec, execPrRdMem] at h; split at h <;> cases h <;> exact .of_same rfl rfl
      · simp only [exec, execPrWrMem] at h; split at h <;> cases h <;> exact .of_same rfl rfl
    · cases h; exact .of_same rfl rfl
  · cases h; exact .refl _

theorem configUnit_later {s t : State} (h : configUnit s = .next t) : Later s t := by
  unfold configUnit at h
  split at h
  · unfold decodeConfig at h
    split at h
    · rename_i i hi
      split at hi <;> cases hi
      · simp only [exec, execConfigRead] at h; split at h <;> cases h <;> exact .of_same rfl rfl
      · simp only [exec, execConfigWrite] at h; split at h <;> cases h <;> exact .of_same rfl rfl
    · cases h; exact .of_same rfl rfl
  · cases h; exact .refl _

theorem router_later (s : State) : Later s (router s) := by
  unfold router
  refine Later.trans (t := routeResponse s) ?_ ?_
  · unfold routeResponse; split
    · dsimp only; split
      · split <;> exact .of_same rfl rfl
      · exact .of_same rfl rfl
    · exact .refl _
  · unfold passResponseData; split <;> exact .of_same rfl rfl

theorem sequencer_later {s t : State} (h : sequencer s = .next t) : Later s t := by
  obtain ⟨u, t', h1, h2, h3, _⟩ := sequencer_next s
  rw [h3] at h; cases h
  exact (beforeCommand_later s).trans ((commandUnit_later h1).trans ((stepCm_later _ _).trans (configUnit_later h2)))
/-- An allocation touches no pool and no output. -/
theorem allocate_same {r : BitVec 8} {s t : State} {n : Nat} (h : allocate r s = some (n, t)) : t.pools = s.pools ∧
    t.out = s.out := by
  rcases (allocate_eq_some h).2.2 with rfl | rfl
  · exact ⟨rfl, rfl⟩
  · rcases nextDraw_cases s with ⟨ds, hd⟩ | hd <;> rw [hd] <;> exact ⟨rfl, rfl⟩

theorem arbiter_later (s : State) : Later s (arbiter s) := by
  unfold arbiter
  refine Later.trans (t := updateMembership s) (.of_same rfl rfl) ?_
  unfold grantStep; split
  · split
    · unfold grant; split
      · rename_i h
        simp only [canGrant, Bool.and_eq_true] at h
        split
        · rename_i n t ha
          have := allocate_same ha
          exact (Later.take h.1.1).trans ((Later.of_same (by rw [this.2]) this.1).trans ((Later.drive _ _).trans (.of_same rfl rfl)))
        · exact .refl _
      · exact .refl _
    · exact .refl _
  all_goals exact .refl _

/-- What one inbound flag does to a pool. -/
theorem inboundReturn_get (k j : CreditKind) (s : State) : (inboundReturn k s).pools.get j = if j = k ∧ s.inp.ret.get k = true ∧
    canReturn k s = true then { s.pools.get k with avail := (s.pools.get k).avail + 1 } else s.pools.get j := by
  unfold inboundReturn
  by_cases h1 : s.inp.ret.get k = true
  · by_cases h2 : canReturn k s = true
    · by_cases hj : j = k
      · subst hj; simp [h1, h2]
      · simp [h1, h2, hj, Four.get_set_ne _ hj]
    · simp [h1, h2]
  · simp [h1]
/-- What one inbound flag does not touch. -/
theorem inboundReturn_same (k : CreditKind) (s : State) : (inboundReturn k s).inp = s.inp ∧ (inboundReturn k s).cycle = s.cycle ∧
    (inboundReturn k s).out.res = s.out.res := by
  unfold inboundReturn; split
  · split <;> exact ⟨rfl, rfl, rfl⟩
  · exact ⟨rfl, rfl, rfl⟩
/-- What one inbound flag logs. -/
theorem inboundReturn_diag (k : CreditKind) (s : State) :
    (inboundReturn k s).diag = s.diag ++ if s.inp.ret.get k && decide ((s.pools.get k).initial.toNat ≤ (s.pools.get k).avail.toNat) then [⟨s.cycle, .ret, .excessCreditReturn⟩] else [] := by
  unfold inboundReturn
  have : canReturn k s = !decide ((s.pools.get k).initial.toNat ≤ (s.pools.get k).avail.toNat) := by
    simp [canReturn]; by_cases h : (s.pools.get k).initial.toNat ≤ (s.pools.get k).avail.toNat
    · simp [h]
    · simp [h]; omega
  rw [this]
  by_cases h1 : s.inp.ret.get k = true
  · by_cases h : (s.pools.get k).initial.toNat ≤ (s.pools.get k).avail.toNat
    · simp [h1, h]
    · simp [h1, h]
  · simp [h1]

/-- One request gives one result. -/
theorem runRequest_result {q : Request} {s t : State} (h : runRequest q s = .next t) : ∃ r, t.out.res = s.out.res ++ [r] := by
  unfold runRequest at h
  split at h
  · rename_i i hi
    have notcmd : (∀ a b c, i ≠ .prRdMem a b c) ∧ (∀ a b c, i ≠ .prWrMem a b c) ∧ (∀ a b c, i ≠ .configRead a b c) ∧ (∀ a b c,
        i ≠ .configWrite a b c) := by
      unfold decodeRequest at hi
      dsimp only at hi
      refine ⟨?_, ?_, ?_, ?_⟩ <;> (rintro a b c rfl; revert hi; unfold accept; split <;> (repeat' split) <;> simp)
    cases i with
    | prRdMem a b c => exact absurd rfl (notcmd.1 a b c)
    | prWrMem a b c => exact absurd rfl (notcmd.2.1 a b c)
    | configRead a b c => exact absurd rfl (notcmd.2.2.1 a b c)
    | configWrite a b c => exact absurd rfl (notcmd.2.2.2 a b c)
    | nop => simp only [exec, execNop, finish] at h; cases h; exact ⟨_, rfl⟩
    | crNegotiate k l p => simp only [exec, execCrNegotiate] at h; split at h <;> cases h <;> exact ⟨_, rfl⟩
    | crTryIssue k => simp only [exec, execCrTryIssue] at h; split at h <;> cases h <;> exact ⟨_, rfl⟩
    | crReturn k => simp only [exec, execCrReturn] at h; split at h <;> cases h <;> exact ⟨_, rfl⟩
    | crRead k => simp only [exec, execCrRead] at h; cases h; exact ⟨_, rfl⟩
    | tgAllocate r =>
      simp only [exec, execTgAllocate] at h
      split at h
      · split at h
        · rename_i ha; cases h; exact ⟨_, by rw [giveResult_out_res, (allocate_same ha).2]⟩
        · cases h; exact ⟨_, rfl⟩
      · cases h; exact ⟨_, rfl⟩
    | tgResolve g => simp only [exec, execTgResolve] at h; split at h <;> cases h <;> exact ⟨_, rfl⟩
    | tgRelease g => simp only [exec, execTgRelease] at h; split at h <;> cases h <;> exact ⟨_, rfl⟩
    | dfEnqueue x n d => simp only [exec, execDfEnqueue] at h; (repeat' split at h) <;> cases h <;> exact ⟨_, rfl⟩
    | dfDrain x n =>
      simp only [exec, execDfDrain] at h
      split at h
      · cases h
        have : ∀ m s, (dequeue x m s).out = s.out := by intro m s; unfold dequeue; split <;> rfl
        refine ⟨.packets ((queueOf s x).take (min n.toNat (queueOf s x).length)), ?_⟩
        rw [giveResult_out_res]
        congr 1
        split <;> simp [this]
      · cases h; exact ⟨_, rfl⟩
    | dfStream k x =>
      simp only [exec, execDfStream] at h
      (repeat' split at h) <;> cases h
      · exact ⟨_, rfl⟩
      · have : ∀ m s, (dequeue x m s).out = s.out := by intro m s; unfold dequeue; split <;> rfl
        exact ⟨.ok, by rw [giveResult_out_res]; cases k <;> simp [dataPayload, drive, this]⟩
      · exact ⟨_, rfl⟩
      · exact ⟨_, rfl⟩
      · exact ⟨_, rfl⟩
    | dfCount x => simp only [exec, execDfCount] at h; split at h <;> cases h <;> exact ⟨_, rfl⟩
    | btDrive p => simp only [exec, execBtDrive] at h; split at h <;> cases h <;> exact ⟨_, by cases p <;> rfl⟩
    | btRead g => simp only [exec, execBtRead] at h; cases h; exact ⟨_, rfl⟩
  · cases h; exact ⟨_, rfl⟩

/-- A list of requests gives as many results. -/
theorem runRequests_results {qs : List Request} {s t : State} (h : runRequests qs s = .next t) : ∃ rs,
    t.out.res = s.out.res ++ rs ∧ rs.length = qs.length := by
  induction qs generalizing s with
  | nil => cases h; exact ⟨[], by simp, rfl⟩
  | cons q qs ih =>
    rw [runRequests] at h
    obtain ⟨u, h1, h2⟩ := andThen_eq_next h
    obtain ⟨r, hr⟩ := runRequest_result h1
    obtain ⟨rs, hrs, hl⟩ := ih h2
    exact ⟨r :: rs, by rw [hrs, hr]; simp, by simp [hl]⟩

end Sys2Proof.Machine
end

