-- ==== Sys2Proof/Laws/PerInstr.lean ====
section
/-! SUPPORT. Per instruction: what spells it matches its row of the opcode table (30_encoding.md R110, R122, R126). -/

namespace Sys2Proof.Laws.EncodesInRow

/-- The mask and the match of an instruction's row in the opcode table. -/
def row : Instr → Word × Word
  | .nop => (0xFFFFFFFF, 0x00000000)
  | .crNegotiate _ _ _ => (0xFCFF0000, 0x04000000)
  | .crTryIssue _ => (0xFCFFFFFF, 0x08000000)
  | .crReturn _ => (0xFCFFFFFF, 0x0C000000)
  | .crRead _ => (0xFCFFFFFF, 0x10000000)
  | .tgAllocate _ => (0xFF00FFFF, 0x20000000)
  | .tgResolve _ => (0xFFFF0000, 0x24000000)
  | .tgRelease _ => (0xFFFF0000, 0x28000000)
  | .dfEnqueue _ _ _ => (0xFF000000, 0x40000000)
  | .dfDrain _ _ => (0xFF000000, 0x44000000)
  | .dfStream _ _ => (0xFD00FFFF, 0x49000000)
  | .dfCount _ => (0xFF00FFFF, 0x4C000000)
  | .btDrive _ => (0xFCFFFFFF, 0x60000000)
  | .btRead _ => (0xFCFFFFFF, 0x64000000)
  | .prRdMem _ _ _ => (0xFF, 0x28)
  | .prWrMem _ _ _ => (0xFF, 0x86)
  | .configRead _ _ _ => (0xFF, 0xE0)
  | .configWrite _ _ _ => (0xFF, 0xE1)

/-- The word that spells an instruction matches its row of the table. -/
def Statement (i : Instr) : Prop := encodeWord i &&& (row i).1 = (row i).2

/-- A word masked field by field. -/
theorem wordOf_and (o o' : BitVec 6) (k k' : BitVec 2) (a a' : BitVec 8) (b b' : BitVec 16) :
    Machine.wordOf o k a b &&& Machine.wordOf o' k' a' b' = Machine.wordOf (o &&& o') (k &&& k') (a &&& a') (b &&& b') := by
  apply BitVec.eq_of_getLsbD_eq
  intro i _
  simp only [Machine.wordOf, BitVec.getLsbD_and, BitVec.getLsbD_append]
  split_ifs <;> rfl

/-- A row given field by field. -/
theorem of_fields {o : BitVec 6} {k : BitVec 2} {a : BitVec 8} {b : BitVec 16} {mask want : Word} (o' : BitVec 6) (k' : BitVec 2)
    (a' : BitVec 8) (b' : BitVec 16) (hm : mask = Machine.wordOf o' k' a' b')
    (hw : want = Machine.wordOf (o &&& o') (k &&& k') (a &&& a') (b &&& b')) : Machine.wordOf o k a b &&& mask = want := by
  rw [hm, hw, wordOf_and]

theorem nop : Statement .nop := rfl

theorem crNegotiate (k : CreditKind) (l p : BitVec 8) : Statement (.crNegotiate k l p) :=
  of_fields 0x3F 0 0xFF 0 rfl (by simp; rfl)

theorem crTryIssue (k : CreditKind) : Statement (.crTryIssue k) := by cases k <;> rfl

theorem crReturn (k : CreditKind) : Statement (.crReturn k) := by cases k <;> rfl

theorem crRead (k : CreditKind) : Statement (.crRead k) := by cases k <;> rfl

theorem tgAllocate (r : BitVec 8) : Statement (.tgAllocate r) :=
  of_fields 0x3F 3 0 0xFFFF rfl (by simp; rfl)

theorem tgResolve (t : BitVec 16) : Statement (.tgResolve t) :=
  of_fields 0x3F 3 0xFF 0 rfl (by simp; rfl)

theorem tgRelease (t : BitVec 16) : Statement (.tgRelease t) :=
  of_fields 0x3F 3 0xFF 0 rfl (by simp; rfl)

theorem dfEnqueue (x : BitVec 8) (n : BitVec 16) (data : List Beat) : Statement (.dfEnqueue x n data) :=
  of_fields 0x3F 3 0 0 rfl (by simp; rfl)

theorem dfDrain (x : BitVec 8) (n : BitVec 16) : Statement (.dfDrain x n) :=
  of_fields 0x3F 3 0 0 rfl (by simp; rfl)

theorem dfStream (k : DataKind) (x : BitVec 8) : Statement (.dfStream k x) :=
  of_fields 0x3F 1 0 0xFFFF rfl (by cases k <;> simp [Machine.codeOfKind, Machine.kindOfData] <;> rfl)

theorem dfCount (x : BitVec 8) : Statement (.dfCount x) :=
  of_fields 0x3F 3 0 0xFFFF rfl (by simp; rfl)

theorem btDrive (p : DrivePayload) : Statement (.btDrive p) :=
  of_fields 0x3F 0 0xFF 0xFFFF rfl (by simp; rfl)

theorem btRead (sig : Signal) : Statement (.btRead sig) := by cases sig <;> rfl

theorem prRdMem (ea : BitVec 64) (tag : BitVec 16) (pl : BitVec 3) : Statement (.prRdMem ea tag pl) :=
  (by decide : (0x28 : Word) &&& 0xFF = 0x28)

theorem prWrMem (ea : BitVec 64) (tag : BitVec 16) (pl : BitVec 3) : Statement (.prWrMem ea tag pl) :=
  (by decide : (0x86 : Word) &&& 0xFF = 0x86)

theorem configRead (pa : BitVec 64) (tag : BitVec 16) (pl : BitVec 3) : Statement (.configRead pa tag pl) :=
  (by decide : (0xE0 : Word) &&& 0xFF = 0xE0)

theorem configWrite (pa : BitVec 64) (tag : BitVec 16) (pl : BitVec 3) : Statement (.configWrite pa tag pl) :=
  (by decide : (0xE1 : Word) &&& 0xFF = 0xE1)

end Sys2Proof.Laws.EncodesInRow
end

