-- ==== Sys2Proof/Laws/Storage.lean ====
section
/-! SUPPORT. Which parts of a tick touch the environment's storage and the machines' commands, said once per operation and phase. -/

namespace Sys2Proof.Machine

/-- The storage, the machines, the order queue and the data requests of the tick are the same. -/
def SameStorage (s t : State) : Prop :=
  t.mem = s.mem ∧ t.regs = s.regs ∧ t.pm = s.pm ∧ t.cm = s.cm ∧ t.rdq = s.rdq ∧ t.out.rdReqCount = s.out.rdReqCount

theorem allocate_machines {r : BitVec 8} {s t : State} {n : Nat} (h : allocate r s = some (n, t)) : SameStorage s t := by
  rcases (allocate_eq_some h).2.2 with rfl | rfl
  · exact ⟨rfl, rfl, rfl, rfl, rfl, rfl⟩
  · rcases nextDraw_cases s with ⟨ds, hd⟩ | hd <;> rw [hd] <;> exact ⟨rfl, rfl, rfl, rfl, rfl, rfl⟩

/-- A request-port operation touches no storage and no machine. -/
theorem exec_request_storage {q : Request} {i : Instr} {s t : State} (hd : decodeRequest s.cfg q = .ok i)
    (h1 : exec i s = .next t) : SameStorage s t := by
  cases i with
  | tgAllocate r => 
    simp only [exec, execTgAllocate] at h1; split at h1
    · split at h1
      · rename_i n u ha; cases h1; exact (allocate_machines ha : SameStorage s u)
      · cases h1; exact ⟨rfl, rfl, rfl, rfl, rfl, rfl⟩
    · cases h1; exact ⟨rfl, rfl, rfl, rfl, rfl, rfl⟩
  | nop => cases h1; exact ⟨rfl, rfl, rfl, rfl, rfl, rfl⟩
  | crNegotiate k l p => simp only [exec, execCrNegotiate] at h1; split at h1 <;> cases h1 <;> exact ⟨rfl, rfl, rfl, rfl, rfl, rfl⟩
  | crTryIssue k => simp only [exec, execCrTryIssue] at h1; split at h1 <;> cases h1 <;> exact ⟨rfl, rfl, rfl, rfl, rfl, rfl⟩
  | crReturn k => simp only [exec, execCrReturn] at h1; split at h1 <;> cases h1 <;> exact ⟨rfl, rfl, rfl, rfl, rfl, rfl⟩
  | crRead k => cases h1; exact ⟨rfl, rfl, rfl, rfl, rfl, rfl⟩
  | tgResolve g => simp only [exec, execTgResolve] at h1; split at h1 <;> cases h1 <;> exact ⟨rfl, rfl, rfl, rfl, rfl, rfl⟩
  | tgRelease g => simp only [exec, execTgRelease] at h1; split at h1 <;> cases h1 <;> exact ⟨rfl, rfl, rfl, rfl, rfl, rfl⟩
  | dfEnqueue x n d => simp only [exec, execDfEnqueue] at h1; (repeat' split at h1) <;> cases h1 <;> exact ⟨rfl, rfl, rfl, rfl, rfl,
      rfl⟩
  | dfDrain x n =>
    simp only [exec, execDfDrain] at h1
    split at h1
    · cases h1
      obtain ⟨f, d, hf⟩ := dequeue_fields x (min n.toNat (queueOf s x).length) s
      rw [hf]
      split <;> exact ⟨rfl, rfl, rfl, rfl, rfl, rfl⟩
    · cases h1; exact ⟨rfl, rfl, rfl, rfl, rfl, rfl⟩
  | dfStream k x =>
    simp only [exec, execDfStream] at h1
    obtain ⟨f, d, hf⟩ := dequeue_fields x 1 (takeCredit (kindOfData k) s)
    rw [hf] at h1
    (repeat' split at h1) <;> cases h1 <;> first | exact ⟨rfl, rfl, rfl, rfl, rfl, rfl⟩ | (cases k <;> exact ⟨rfl, rfl, rfl, rfl, rfl, rfl⟩)
  | dfCount x => simp only [exec, execDfCount] at h1; split at h1 <;> cases h1 <;> exact ⟨rfl, rfl, rfl, rfl, rfl, rfl⟩
  | btDrive p =>
    simp only [exec, execBtDrive] at h1
    split at h1 <;> cases h1
    · cases p <;> exact ⟨rfl, rfl, rfl, rfl, rfl, rfl⟩
    · exact ⟨rfl, rfl, rfl, rfl, rfl, rfl⟩
  | btRead g => cases h1; exact ⟨rfl, rfl, rfl, rfl, rfl, rfl⟩
  | _ => 
    exfalso
    unfold decodeRequest accept at hd
    dsimp only at hd
    repeat' split at hd
    all_goals cases hd

theorem SameStorage.trans {s t u : State} (a : SameStorage s t) (b : SameStorage t u) : SameStorage s u :=
  ⟨b.1.trans a.1, b.2.1.trans a.2.1, b.2.2.1.trans a.2.2.1, b.2.2.2.1.trans a.2.2.2.1, b.2.2.2.2.1.trans a.2.2.2.2.1,
    b.2.2.2.2.2.trans a.2.2.2.2.2⟩

theorem runRequests_storage : ∀ (qs : List Request) (s t : State), runRequests qs s = .next t → SameStorage s t := by
  intro qs
  induction qs with
  | nil => intro s t h; cases h; exact ⟨rfl, rfl, rfl, rfl, rfl, rfl⟩
  | cons q qs ih =>
    intro s t h
    obtain ⟨u, hu, hv⟩ := andThen_eq_next h
    refine SameStorage.trans ?_ (ih _ _ hv)
    unfold runRequest at hu
    split at hu
    · exact exec_request_storage ‹_› hu
    · cases hu; exact ⟨rfl, rfl, rfl, rfl, rfl, rfl⟩

theorem router_storage (s : State) : SameStorage s (router s) := by
  unfold router
  refine SameStorage.trans (t := routeResponse s) ?_ ?_
  · unfold routeResponse; split
    · dsimp only; split
      · split <;> exact ⟨rfl, rfl, rfl, rfl, rfl, rfl⟩
      · exact ⟨rfl, rfl, rfl, rfl, rfl, rfl⟩
    · exact ⟨rfl, rfl, rfl, rfl, rfl, rfl⟩
  · unfold passResponseData; split <;> exact ⟨rfl, rfl, rfl, rfl, rfl, rfl⟩

theorem emitPm_storage (s : State) : (emitPm s).mem = s.mem ∧ (emitPm s).regs = s.regs ∧ (emitPm s).rdq = s.rdq ∧
    (emitPm s).pm.cmd = s.pm.cmd ∧ (emitPm s).cm = s.cm ∧ ((emitPm s).pm.state = .awaitingData → s.pm.state = .awaitingData) ∧
    (emitPm s).inp = s.inp := by
  unfold emitPm; split
  · split
    · cases hb : pmBeat s <;> refine ⟨rfl, rfl, rfl, rfl, rfl, ?_, rfl⟩ <;> simp
    · unfold retryPm; dsimp only; split
      · refine ⟨rfl, rfl, rfl, rfl, rfl, ?_, rfl⟩; simp
      · exact ⟨rfl, rfl, rfl, rfl, rfl, id, rfl⟩
  all_goals exact ⟨rfl, rfl, rfl, rfl, rfl, id, rfl⟩

theorem emitCm_storage (s : State) : (emitCm s).mem = s.mem ∧ (emitCm s).regs = s.regs ∧ (emitCm s).rdq = s.rdq ∧
    (emitCm s).pm = s.pm ∧ (emitCm s).cm.cmd = s.cm.cmd ∧ (emitCm s).cm.state = s.cm.state ∧ (emitCm s).inp = s.inp := by
  unfold emitCm; split
  · rename_i r hr
    split
    · cases hb : r.beat <;> exact ⟨rfl, rfl, rfl, rfl, rfl, rfl, rfl⟩
    · unfold retryCm; dsimp only; split
      · exact ⟨rfl, rfl, rfl, rfl, rfl, rfl, rfl⟩
      · exact ⟨rfl, rfl, rfl, rfl, rfl, rfl, rfl⟩
  all_goals exact ⟨rfl, rfl, rfl, rfl, rfl, rfl, rfl⟩

theorem emitResponses_storage (s : State) : (emitResponses s).mem = s.mem ∧ (emitResponses s).regs = s.regs ∧
    (emitResponses s).rdq = s.rdq ∧ (emitResponses s).pm.cmd = s.pm.cmd ∧ (emitResponses s).cm.cmd = s.cm.cmd ∧
    (emitResponses s).cm.state = s.cm.state ∧ ((emitResponses s).pm.state = .awaitingData → s.pm.state = .awaitingData) ∧
    (emitResponses s).inp = s.inp := by
  unfold emitResponses; split
  · obtain ⟨a1, a2, a3, a4, a5, a6, a7⟩ := emitPm_storage s
    obtain ⟨b1, b2, b3, b4, b5, b6, b7⟩ := emitCm_storage (emitPm s)
    exact ⟨b1.trans a1, b2.trans a2, b3.trans a3, by rw [b4, a4], by rw [b5, a5], by rw [b6, a5],
        fun h => a6 (by rw [b4] at h; exact h), b7.trans a7⟩
  · obtain ⟨a1, a2, a3, a4, a5, a6, a7⟩ := emitPm_storage (emitCm s)
    obtain ⟨b1, b2, b3, b4, b5, b6, b7⟩ := emitCm_storage s
    exact ⟨a1.trans b1, a2.trans b2, a3.trans b3, by rw [a4, b4], by rw [a5, b5], by rw [a5, b6],
        fun h => by have := a6 h; rw [b4] at this; exact this, a7.trans b7⟩

theorem arbiter_storage (s : State) : (arbiter s).mem = s.mem ∧ (arbiter s).regs = s.regs := by
  unfold arbiter grantStep; split
  · split
    · unfold grant; split
      · split
        · rename_i n t ha
          have := allocate_machines ha
          exact ⟨this.1, this.2.1⟩
        · exact ⟨rfl, rfl⟩
      · exact ⟨rfl, rfl⟩
    · exact ⟨rfl, rfl⟩
  all_goals exact ⟨rfl, rfl⟩

theorem creditReturns_storage (s : State) : (creditReturns s).mem = s.mem ∧ (creditReturns s).regs = s.regs := by
  have one : ∀ k s, (inboundReturn k s).mem = s.mem ∧ (inboundReturn k s).regs = s.regs := by
    intro k s; unfold inboundReturn; split
    · split <;> exact ⟨rfl, rfl⟩
    · exact ⟨rfl, rfl⟩
  unfold creditReturns
  simp [one]

theorem commandUnit_storage {s t : State} (h : commandUnit s = .next t) : t.mem = s.mem ∧ t.regs = s.regs ∧ t.cm = s.cm ∧
    t.inp = s.inp := by
  unfold commandUnit at h
  split at h
  · unfold decodeCommand at h
    split at h
    · rename_i i hi
      split at hi <;> cases hi
      · simp only [exec, execPrRdMem] at h; split at h <;> cases h <;> exact ⟨rfl, rfl, rfl, rfl⟩
      · simp only [exec, execPrWrMem] at h; split at h <;> cases h <;> exact ⟨rfl, rfl, rfl, rfl⟩
    · cases h; exact ⟨rfl, rfl, rfl, rfl⟩
  · cases h; exact ⟨rfl, rfl, rfl, rfl⟩

theorem configUnit_storage {s t : State} (h : configUnit s = .next t) : t.mem = s.mem ∧ t.regs = s.regs := by
  unfold configUnit at h
  split at h
  · unfold decodeConfig at h
    split at h
    · rename_i i hi
      split at hi <;> cases hi
      · simp only [exec, execConfigRead] at h; split at h <;> cases h <;> exact ⟨rfl, rfl⟩
      · simp only [exec, execConfigWrite] at h; split at h <;> cases h <;> exact ⟨rfl, rfl⟩
    · cases h; exact ⟨rfl, rfl⟩
  · cases h; exact ⟨rfl, rfl⟩

theorem stepPm_storage (d : Option MachineId) (s : State) : (stepPm d s).regs = s.regs ∧ (stepPm d s).cm = s.cm ∧
    (stepPm d s).inp = s.inp ∧ ((stepPm d s).mem = s.mem ∨ (d = some .pm ∧ s.pm.state = .awaitingData ∧
    s.inp.cmdData.body.bad = false ∧
    (stepPm d s).mem = writeBytes s.pm.cmd.addr (extractBytes s.inp.cmdData.body.data s.pm.cmd.off.toNat s.pm.cmd.len) s.mem)) := by
  unfold stepPm; split
  · split
    · unfold pmData; dsimp only; split
      · exact ⟨rfl, rfl, rfl, .inl rfl⟩
      · rename_i hb; exact ⟨rfl, rfl, rfl, .inr ⟨‹_›, ‹_›, by simpa using hb, rfl⟩⟩
    · unfold pmWait; dsimp only; split <;> exact ⟨rfl, rfl, rfl, .inl rfl⟩
  all_goals exact ⟨rfl, rfl, rfl, .inl rfl⟩

theorem stepCm_storage (d : Option MachineId) (s : State) : (stepCm d s).mem = s.mem ∧
    ((stepCm d s).regs = s.regs ∨ (d = some .cm ∧ s.cm.state = .awaitingConfigData ∧ s.inp.cmdData.body.bad = false ∧ ∃ v,
    (stepCm d s).regs = insertAt (regOffset s.cm.cmd.pa).toNat v s.regs)) := by
  unfold stepCm; split
  · split
    · unfold cmData; dsimp only; split
      · exact ⟨rfl, .inl rfl⟩
      · rename_i hb; split
        · exact ⟨rfl, .inr ⟨‹_›, ‹_›, by simpa using hb, _, rfl⟩⟩
        · exact ⟨rfl, .inr ⟨‹_›, ‹_›, by simpa using hb, _, rfl⟩⟩
    · unfold cmWait; dsimp only; split <;> exact ⟨rfl, .inl rfl⟩
  all_goals exact ⟨rfl, .inl rfl⟩

theorem dispatchData_storage (s : State) : (dispatchData s).mem = s.mem ∧ (dispatchData s).regs = s.regs ∧
    (dispatchData s).pm = s.pm ∧ (dispatchData s).cm = s.cm ∧ (dispatchData s).inp = s.inp := by
  unfold dispatchData; split
  · split <;> exact ⟨rfl, rfl, rfl, rfl, rfl⟩
  · exact ⟨rfl, rfl, rfl, rfl, rfl⟩

end Sys2Proof.Machine
end

