-- ==== Sys2Proof/Laws/Snapshot.lean ====
section
/-! SUPPORT. What stands behind a snapshot, said once: the data requests a tick can issue, when a signal can be driven, what an interface and
its held payload show, and what a unit of phase 5 runs. -/

namespace Sys2Proof.Machine

/-! ### Data requests of a tick (43_command_sequencer.md R237) -/

theorem emitPm_rdReqCount (s : State) : (emitPm s).out.rdReqCount = s.out.rdReqCount := by
  unfold emitPm; split
  · split
    · cases hb : pmBeat s <;> rfl
    · unfold retryPm; dsimp only; split <;> rfl
  all_goals rfl

theorem emitCm_rdReqCount (s : State) : (emitCm s).out.rdReqCount = s.out.rdReqCount := by
  unfold emitCm; split
  · rename_i r hr
    split
    · cases hb : r.beat <;> rfl
    · unfold retryCm; dsimp only; split <;> rfl
  · rfl

theorem emitResponses_rdReqCount (s : State) : (emitResponses s).out.rdReqCount = s.out.rdReqCount := by
  unfold emitResponses; split
  · rw [emitCm_rdReqCount, emitPm_rdReqCount]
  · rw [emitPm_rdReqCount, emitCm_rdReqCount]

theorem dispatchData_rdReqCount (s : State) : (dispatchData s).out.rdReqCount = s.out.rdReqCount := by
  unfold dispatchData; split
  · split <;> rfl
  · rfl

theorem stepPm_rdReqCount (d : Option MachineId) (s : State) : (stepPm d s).out.rdReqCount = s.out.rdReqCount := by
  unfold stepPm; split
  · split
    · unfold pmData; dsimp only; split <;> rfl
    · unfold pmWait; dsimp only; split <;> rfl
  all_goals rfl

theorem stepCm_rdReqCount (d : Option MachineId) (s : State) : (stepCm d s).out.rdReqCount = s.out.rdReqCount := by
  unfold stepCm; split
  · split
    · unfold cmData; dsimp only; split
      · rfl
      · split <;> rfl
    · unfold cmWait; dsimp only; split <;> rfl
  · rfl

/-- A command unit issues one data request at most. -/
theorem commandUnit_rdReqCount {s t : State} (h : commandUnit s = .next t) : t.out.rdReqCount ≤ s.out.rdReqCount + 1 := by
  unfold commandUnit at h
  split at h
  · unfold decodeCommand at h
    split at h
    · rename_i i hi
      split at hi <;> cases hi
      · simp only [exec, execPrRdMem] at h; split at h <;> cases h <;> exact Nat.le_succ _
      · simp only [exec, execPrWrMem] at h; split at h <;> cases h
        · exact Nat.le_succ _
        · exact le_rfl
    · cases h; exact Nat.le_succ _
  · cases h; exact Nat.le_succ _

/-- A configuration unit issues one data request at most. -/
theorem configUnit_rdReqCount {s t : State} (h : configUnit s = .next t) : t.out.rdReqCount ≤ s.out.rdReqCount + 1 := by
  unfold configUnit at h
  split at h
  · unfold decodeConfig at h
    split at h
    · rename_i i hi
      split at hi <;> cases hi
      · simp only [exec, execConfigRead] at h; split at h <;> cases h <;> exact Nat.le_succ _
      · simp only [exec, execConfigWrite] at h; split at h <;> cases h
        · exact Nat.le_succ _
        · exact le_rfl
    · cases h; exact Nat.le_succ _
  · cases h; exact Nat.le_succ _

/-- Phase 5 issues two data requests at most, one per machine. -/
theorem sequencer_rdReqCount {s t : State} (h : sequencer s = .next t) : t.out.rdReqCount ≤ s.out.rdReqCount + 2 := by
  obtain ⟨u, v, h1, h2, h3, _⟩ := sequencer_next s
  rw [h3] at h; cases h
  have hb : (beforeCommand s).out.rdReqCount = s.out.rdReqCount := by
    unfold beforeCommand; dsimp only
    rw [stepPm_rdReqCount, dispatchData_rdReqCount, emitResponses_rdReqCount]
  have a := commandUnit_rdReqCount h1
  have b := configUnit_rdReqCount h2
  rw [hb] at a
  rw [stepCm_rdReqCount] at b
  omega

theorem arbiter_rdReqCount (s : State) : (arbiter s).out.rdReqCount = s.out.rdReqCount := by
  unfold arbiter grantStep; split
  · split
    · unfold grant; split
      · split
        · rename_i n t ha; exact (allocate_machines ha).2.2.2.2.2
        · rfl
      · rfl
    · rfl
  all_goals rfl

theorem creditReturns_rdReqCount (s : State) : (creditReturns s).out.rdReqCount = s.out.rdReqCount := by
  have one : ∀ k s, (inboundReturn k s).out.rdReqCount = s.out.rdReqCount := by
    intro k s; unfold inboundReturn; split
    · split <;> rfl
    · rfl
  unfold creditReturns
  simp [one]

/-! ### What a snapshot shows -/

/-- A signal untouched since the start of the tick, or driven, is shown as it should be. -/
theorem shows_of_held {α : Type} {masked : α → α} {zero : α} {ev : Option α} {before w after : Sig α} (hz : masked zero = zero)
    (hh : HeldWithin none ev before w) (ha : after.payload = w.payload) :
    Shows masked zero ev before after ⟨(unitOf zero ev).valid, masked (unitOf zero ev).body⟩ (decide (0 < w.count))
      ⟨(heldOf zero w).valid, masked (heldOf zero w).body⟩ := by
  refine ⟨by cases ev <;> simp [unitOf, hz], ?_, ?_⟩
  · by_cases h : 0 < w.count <;> simp [heldOf, h, ha, hz]
  · rcases hh with ⟨rfl, h⟩ | ⟨p, rfl, h⟩ <;> rw [ha, h]

/-! ### When a signal can be driven (46_bus_timing.md R341) -/

theorem undriven_iff (e : Events) (sig : Signal) : Undriven e sig ↔ notDriven e sig = true := by
  cases sig <;> simp [Undriven, notDriven]

theorem canDrive_iff (sig : Signal) (s : State) : canDrive sig s = true ↔
    notDriven s.out.ev sig = true ∧ (sigCount s.sigs sig = 0 ∨ s.cfg.pulseRedrive = .reload) := by
  simp [canDrive]

/-! ### Units of phase 5 (43_command_sequencer.md R256) -/

theorem commandUnit_runs {s : State} {f : State → Host.Outcome State Fault Refusal}
    (h : RunsUnit (decodeCommand s.cfg) s.inp.cmd f) : commandUnit s = f s := by
  unfold commandUnit
  rcases h with ⟨hv, rfl⟩ | ⟨hv, i, hi, rfl⟩ | ⟨hv, e, he, rfl⟩
  · simp [hv]
  · simp [hv, hi]
  · simp [hv, he]

theorem configUnit_runs {s : State} {f : State → Host.Outcome State Fault Refusal}
    (h : RunsUnit (decodeConfig s.cfg) s.inp.cfg f) : configUnit s = f s := by
  unfold configUnit
  rcases h with ⟨hv, rfl⟩ | ⟨hv, i, hi, rfl⟩ | ⟨hv, e, he, rfl⟩
  · simp [hv]
  · simp [hv, hi]
  · simp [hv, he]

/-- With the response signal used in the tick, the partial machine's emission is a failed attempt. -/
theorem emitPm_of_driven {s : State} (hs : s.pm.state = .responsePending) (he : s.out.ev.resp ≠ none) : emitPm s = retryPm s := by
  have : canEmit (pmBeat s).isSome s = false := by
    cases h : s.out.ev.resp <;> simp_all [canEmit, canDrive, notDriven]
  simp [emitPm, hs, this]

/-- With the response signal used in the tick, the configuration machine's emission is a failed attempt. -/
theorem emitCm_of_driven {s : State} {r : CmResp} (hs : s.cm.resp = some r) (he : s.out.ev.resp ≠ none) :
    emitCm s = retryCm r s := by
  have : canEmit r.beat.isSome s = false := by
    cases h : s.out.ev.resp <;> simp_all [canEmit, canDrive, notDriven]
  simp [emitCm, hs, this]

/-- A failed attempt counts, and touches no pool and no signal. -/
theorem retryPm_frame (s : State) : (retryPm s).pm.retry = s.pm.retry + 1 ∧ KeepsPools s (retryPm s) ∧ KeepsSignals s (retryPm s) := by
  unfold retryPm; dsimp only; split <;> exact ⟨rfl, fun _ => rfl, rfl, rfl⟩

/-- A failed attempt counts, and touches no pool and no signal. -/
theorem retryCm_frame (r : CmResp) (s : State) :
    (retryCm r s).cm.retry = s.cm.retry + 1 ∧ KeepsPools s (retryCm r s) ∧ KeepsSignals s (retryCm r s) := by
  unfold retryCm; dsimp only; split <;> exact ⟨rfl, fun _ => rfl, rfl, rfl⟩

end Sys2Proof.Machine
end

