-- ==== Sys2Proof/Laws/Soundness.lean ====
section
/-! SUPPORT. Every operation, machine step and phase of a tick keeps a sound state sound. Between the data dispatch and the data phase
of the configuration machine the order queue is read with the beat's machine put back at its head. -/

namespace Sys2Proof.Machine

theorem dequeue_sound {x : BitVec 8} {s : State} (h : Sound s) (hx : legalXfer s.cfg x = true) (hc : s.closed = false) (m : Nat) :
    Sound (dequeue x m s) := by
  unfold dequeue
  split
  · exact (h.setQueue hx ((List.length_drop ▸ Nat.sub_le _ _ : ((queueOf s x).drop m).length ≤ (queueOf s x).length).trans (h.queue_le x)) hc).markDrained hx
  · exact h

/-- A request-port operation keeps a sound state of an open session sound. -/
theorem exec_request_sound {q : Request} {i : Instr} {s t : State} (h : Sound s) (hc : s.closed = false)
    (hd : decodeRequest s.cfg q = .ok i) (ht : exec i s = .next t) : Sound t := by
  cases i with
  | nop => cases ht; exact h.giveResult _
  | crNegotiate k l p =>
    simp only [exec, execCrNegotiate] at ht
    split at ht <;> cases ht
    · exact (h.logFault _ _).giveResult _
    · exact (h.setPool (by simp_all) _).giveResult _
  | crTryIssue k =>
    simp only [exec, execCrTryIssue] at ht
    split at ht <;> cases ht
    · exact (h.takeCredit ‹_›).giveResult _
    · exact h.giveResult _
  | crReturn k =>
    simp only [exec, execCrReturn] at ht
    split at ht <;> cases ht
    · exact (h.addCredit ‹_›).giveResult _
    · exact (h.logFault _ _).giveResult _
  | crRead k => cases ht; exact h.giveResult _
  | tgAllocate r =>
    simp only [exec, execTgAllocate] at ht
    split at ht
    · split at ht <;> cases ht
      · exact (h.allocate ‹_› ‹_› hc).giveResult _
      · exact (h.logFault _ _).giveResult _
    · cases ht; exact (h.logFault _ _).giveResult _
  | tgResolve g =>
    simp only [exec, execTgResolve] at ht
    split at ht <;> cases ht
    · exact h.giveResult _
    · exact (h.logFault _ _).giveResult _
  | tgRelease g =>
    simp only [exec, execTgRelease] at ht
    split at ht <;> cases ht
    · exact (h.unbindTag _).giveResult _
    · exact (h.logFault _ _).giveResult _
  | dfEnqueue x n data =>
    simp only [exec, execDfEnqueue] at ht
    split at ht
    · rename_i hx
      split at ht
      · cases ht; exact (h.logFault _ _).giveResult _
      · split at ht
        · cases ht; exact h.giveResult _
        · split at ht <;> cases ht
          · exact (h.logFault _ _).giveResult _
          · refine (h.setQueue hx ?_ hc).giveResult _
            simp only [List.length_append, length_takeBeats]
            omega
    · cases ht; exact (h.logFault _ _).giveResult _
  | dfDrain x n =>
    simp only [exec, execDfDrain] at ht
    split at ht
    · rename_i hx
      cases ht
      split
      · exact ((dequeue_sound h hx hc _).logFault _ _).giveResult _
      · exact (dequeue_sound h hx hc _).giveResult _
    · cases ht; exact (h.logFault _ _).giveResult _
  | dfStream k x =>
    simp only [exec, execDfStream] at ht
    split at ht
    · rename_i hx
      split at ht
      · cases ht; exact (h.logFault _ _).giveResult _
      · split at ht
        · split at ht <;> cases ht
          · rename_i hk
            exact ((dequeue_sound (h.takeCredit hk) hx hc _).drive _).giveResult _
          · exact h.giveResult _
        · cases ht; exact h.giveResult _
    · cases ht; exact (h.logFault _ _).giveResult _
  | dfCount x =>
    simp only [exec, execDfCount] at ht
    split at ht <;> cases ht
    · exact h.giveResult _
    · exact (h.logFault _ _).giveResult _
  | btDrive p =>
    simp only [exec, execBtDrive] at ht
    split at ht <;> cases ht
    · exact (h.drive p).giveResult _
    · exact h.giveResult _
  | btRead g => cases ht; exact h.giveResult _
  | _ => 
    exfalso
    unfold decodeRequest accept at hd
    dsimp only at hd
    repeat' split at hd
    all_goals cases hd

/-- A state in the middle of phase 5: sound with the beat taken off the order queue put back at its head. -/
def SoundWith (d : Option MachineId) (s : State) : Prop := Sound { s with rdq := d.toList ++ s.rdq }

theorem soundWith_none {s : State} : SoundWith none s ↔ Sound s := Iff.rfl

/-- A change of the partial machine, of the order queue and of nothing else the invariant reads but the storage. -/
theorem SoundWith.setPm {d d' : Option MachineId} {s t : State} (h : SoundWith d s)
    (hcfg : t.cfg = s.cfg) (hpools : t.pools = s.pools) (htags : t.tags = s.tags)
    (hfifo : t.fifo = s.fifo) (hdrained : t.drained = s.drained) (hcm : t.cm = s.cm) (hrot : t.rot = s.rot)
        (hsigs : t.sigs = s.sigs)
    (hclosed : t.closed = s.closed) (hopen : s.closed = false) (hst : StorageOk t) (hpm : PmOk t)
    (hnd : (d'.toList ++ t.rdq).Nodup) (hmp : MachineId.pm ∈ d'.toList ++ t.rdq ↔ t.pm.state = .awaitingData)
    (hmc : MachineId.cm ∈ d'.toList ++ t.rdq ↔ MachineId.cm ∈ d.toList ++ s.rdq) : SoundWith d' t where
  config := by rw [hcfg]; exact h.config
  pools := by have := h.pools; simpa only [PoolsOk, hpools] using this
  tags := by have := h.tags; simpa only [TagsOk, liveTags, tagPool, hcfg, htags, hpools] using this
  queues := by have := h.queues; simpa only [QueuesOk, hcfg, hfifo, hdrained] using this
  pm := hpm
  cm := by have := h.cm; simpa only [CmOk, hcfg, hcm] using this
  rdq := ⟨hnd, fun _ => ⟨hmp, by have := (h.rdq.2.1 hopen).2; simp only [hcm] at this ⊢; rw [hmc]; exact this⟩,
    fun hcl => by simp only [hclosed, hopen] at hcl; cases hcl⟩
  rot := by have := h.rot; simpa only [RotOk, hcfg, hrot] using this
  sigs := by have := h.sigs; simpa only [SigsOk, hcfg, hsigs] using this
  storage := hst

/-- A change of the configuration machine, of the order queue and of nothing else the invariant reads but the storage. -/
theorem SoundWith.setCm {d d' : Option MachineId} {s t : State} (h : SoundWith d s)
    (hcfg : t.cfg = s.cfg) (hpools : t.pools = s.pools) (htags : t.tags = s.tags)
    (hfifo : t.fifo = s.fifo) (hdrained : t.drained = s.drained) (hpm : t.pm = s.pm) (hrot : t.rot = s.rot)
        (hsigs : t.sigs = s.sigs)
    (hclosed : t.closed = s.closed) (hopen : s.closed = false) (hst : StorageOk t) (hcm : CmOk t)
    (hnd : (d'.toList ++ t.rdq).Nodup) (hmc : MachineId.cm ∈ d'.toList ++ t.rdq ↔ t.cm.state = .awaitingConfigData)
    (hmp : MachineId.pm ∈ d'.toList ++ t.rdq ↔ MachineId.pm ∈ d.toList ++ s.rdq) : SoundWith d' t where
  config := by rw [hcfg]; exact h.config
  pools := by have := h.pools; simpa only [PoolsOk, hpools] using this
  tags := by have := h.tags; simpa only [TagsOk, liveTags, tagPool, hcfg, htags, hpools] using this
  queues := by have := h.queues; simpa only [QueuesOk, hcfg, hfifo, hdrained] using this
  pm := by have := h.pm; simpa only [PmOk, hcfg, hpm] using this
  cm := hcm
  rdq := ⟨hnd, fun _ => ⟨by have := (h.rdq.2.1 hopen).1; simp only [hpm] at this ⊢; rw [hmp]; exact this, hmc⟩,
    fun hcl => by simp only [hclosed, hopen] at hcl; cases hcl⟩
  rot := by have := h.rot; simpa only [RotOk, hcfg, hrot] using this
  sigs := by have := h.sigs; simpa only [SigsOk, hcfg, hsigs] using this
  storage := hst

theorem SoundWith.of_same {d : Option MachineId} {s t : State} (h : SoundWith d s) (hcfg : t.cfg = s.cfg)
    (hpools : t.pools = s.pools) (htags : t.tags = s.tags)
    (hfifo : t.fifo = s.fifo) (hdrained : t.drained = s.drained) (hpm : t.pm = s.pm) (hcm : t.cm = s.cm)
    (hrdq : t.rdq = s.rdq) (hrot : t.rot = s.rot) (hsigs : t.sigs = s.sigs) (hclosed : t.closed = s.closed)
    (hmem : t.mem = s.mem) (hregs : t.regs = s.regs) : SoundWith d t :=
  Sound.of_same (s := { s with rdq := d.toList ++ s.rdq }) h hcfg hpools htags hfifo hdrained hpm hcm (by simp [hrdq]) hrot hsigs hclosed hmem hregs

/-- What R8 asks of a configuration. -/
theorem configOk_iff (c : Config) : configOk c = true ↔
    0 < c.pulseW ∧ 0 < c.fifoDepth ∧ 0 < c.dataTimeout ∧ c.nCtx ≤ 240 ∧ c.nXfer ≤ 256 := by
  simp [configOk, and_assoc]

/-- What a partial command that passes its checks satisfies. -/
theorem partialCheck_ok {ea : BitVec 64} {pl : BitVec 3} {s : State} {len : Nat} (h : partialCheck ea pl s = .ok len) :
    s.pm.state = .idle ∧ partialLen s.cfg pl = some len ∧ (beatOffset ea).toNat + len ≤ 64 := by
  unfold partialCheck at h
  split at h
  · split at h
    · split at h <;> cases h
      exact ⟨‹_›, ‹_›, ‹_›⟩
    · cases h
  all_goals cases h

/-- What a configuration command that passes its checks satisfies. -/
theorem configCheck_ok {pa : BitVec 64} {pl : BitVec 3} {s : State} {len : Nat} (h : configCheck pa pl s = .ok len) :
    s.cm.state = .idle ∧ s.cm.resp = none ∧ configLen s.cfg pl = some len ∧ regLane pa + len ≤ 4 := by
  unfold configCheck at h
  split at h
  · split at h
    · split at h <;> cases h
      exact ⟨‹_›, ‹_›, ‹_›, ‹_›⟩
    · cases h
  all_goals cases h

theorem execPrRdMem_sound {d : Option MachineId} {ea : BitVec 64} {tag : BitVec 16} {pl : BitVec 3} {s t : State} (h : SoundWith d s) (hc : s.closed = false)
    (ht : execPrRdMem ea tag pl s = .next t) : SoundWith d t := by
  unfold execPrRdMem at ht
  split at ht <;> cases ht
  · exact h.of_same rfl rfl rfl rfl rfl rfl rfl rfl rfl rfl rfl rfl rfl
  · rename_i len hk
    obtain ⟨h1, h2, h3⟩ := partialCheck_ok hk
    have hr := (h.rdq.2.1 hc).1
    obtain ⟨p1, p2, p3, p4, p5⟩ := h.pm
    refine h.setPm rfl rfl rfl rfl rfl rfl rfl rfl rfl hc h.storage ⟨p1, Nat.zero_le _, by simp, by simp, fun _ => ⟨h2, rfl,
        h3⟩⟩ h.rdq.1 ?_ Iff.rfl
    simp only [h1] at hr ⊢
    simpa using hr

theorem execPrWrMem_sound {d : Option MachineId} {ea : BitVec 64} {tag : BitVec 16} {pl : BitVec 3} {s t : State} (h : SoundWith d s) (hc : s.closed = false)
    (ht : execPrWrMem ea tag pl s = .next t) : SoundWith d t := by
  unfold execPrWrMem at ht
  split at ht <;> cases ht
  · exact h.of_same rfl rfl rfl rfl rfl rfl rfl rfl rfl rfl rfl rfl rfl
  · rename_i len hk
    obtain ⟨h1, h2, h3⟩ := partialCheck_ok hk
    have hr := (h.rdq.2.1 hc).1
    have hn := h.rdq.1
    have hT := (configOk_iff s.cfg).1 h.config
    obtain ⟨p1, p2, p3, p4, p5⟩ := h.pm
    simp only [h1] at hr
    refine h.setPm rfl rfl rfl rfl rfl rfl rfl rfl rfl hc h.storage ⟨Nat.zero_le _, Nat.zero_le _, fun _ => ⟨hT.2.2.1, rfl⟩,
        by simp, fun _ => ⟨h2, rfl, h3⟩⟩ ?_ ?_ ?_
    · have : MachineId.pm ∉ d.toList ++ s.rdq := by simpa using hr
      simp only [requestData, ← List.append_assoc]
      exact List.nodup_append.2 ⟨hn, by simp, fun a ha b hb hab => this (by simp at hb; subst hb; subst hab; exact ha)⟩
    · simp [requestData]
    · simp [requestData]

theorem execConfigRead_sound {ea : BitVec 64} {tag : BitVec 16} {pl : BitVec 3} {s t : State} (h : Sound s)
    (hc : s.closed = false)
    (ht : execConfigRead ea tag pl s = .next t) : Sound t := by
  unfold execConfigRead at ht
  split at ht <;> cases ht
  · exact h.logFault _ _
  · rename_i len hk
    obtain ⟨h1, h2, h3⟩ := configCheck_ok hk
    obtain ⟨p1, p2, p3, p4⟩ := h.cm
    refine soundWith_none.1 ((soundWith_none.2 h).setCm rfl rfl rfl rfl rfl rfl rfl rfl rfl hc h.storage ⟨p1, Nat.zero_le _,
        fun _ => ⟨h1, Nat.zero_le _⟩, ?_⟩ h.rdq.1 (h.rdq.2.1 hc).2 Iff.rfl)
    intro he; simp only [regRead, noteAccess] at he; rw [h1] at he; cases he

theorem execConfigWrite_sound {ea : BitVec 64} {tag : BitVec 16} {pl : BitVec 3} {s t : State} (h : Sound s)
    (hc : s.closed = false)
    (ht : execConfigWrite ea tag pl s = .next t) : Sound t := by
  unfold execConfigWrite at ht
  split at ht <;> cases ht
  · exact h.logFault _ _
  · rename_i len hk
    obtain ⟨h1, h2, h3⟩ := configCheck_ok hk
    obtain ⟨p1, p2, p3, p4⟩ := h.cm
    have hr := (h.rdq.2.1 hc).2
    have hT := (configOk_iff s.cfg).1 h.config
    simp only [h1] at hr
    refine soundWith_none.1 ((soundWith_none.2 h).setCm rfl rfl rfl rfl rfl rfl rfl rfl rfl hc h.storage ⟨Nat.zero_le _, p2, ?_,
        fun _ => ⟨hT.2.2.1, rfl, h3⟩⟩ ?_ ?_ ?_)
    · simp only [requestData]; rw [h2]; simp
    · have : MachineId.cm ∉ s.rdq := by simpa using hr
      show (s.rdq ++ [MachineId.cm]).Nodup
      exact List.nodup_append.2 ⟨h.rdq.1, by simp, fun a ha b hb hab => this (by simp at hb; subst hb; subst hab; exact ha)⟩
    · simp [requestData]
    · simp [requestData]

theorem sendResponse_sound {p : RespRec} {b : Option Beat} {s : State} (h : Sound s) (hk : canEmit b.isSome s = true) :
    Sound (sendResponse p b s) := by
  rw [canEmit_iff] at hk
  obtain ⟨_, h2, h3⟩ := hk
  have w1 : Sound (drive (.resp p) (takeCredit .resp s)) := (h.takeCredit h2).drive _
  cases b with
  | none => exact w1
  | some b =>
    have h6 : hasCredit .respData (drive (.resp p) (takeCredit .resp s)) = true := (h3 rfl).2
    exact (w1.takeCredit h6).drive (.respData { bad := false, data := b })

/-- Sending a response touches pools, signals and the units driven alone. -/
theorem sendResponse_same (p : RespRec) (b : Option Beat) (s : State) :
    (sendResponse p b s).pm = s.pm ∧ (sendResponse p b s).cm = s.cm ∧ (sendResponse p b s).rdq = s.rdq ∧
    (sendResponse p b s).closed = s.closed ∧ (sendResponse p b s).cfg = s.cfg ∧ (sendResponse p b s).mem = s.mem ∧
    (sendResponse p b s).regs = s.regs ∧ (sendResponse p b s).inp = s.inp := by
  cases b <;> exact ⟨rfl, rfl, rfl, rfl, rfl, rfl, rfl, rfl⟩

theorem emitPm_sound {s : State} (h : Sound s) (hc : s.closed = false) : Sound (emitPm s) := by
  have hr := (h.rdq.2.1 hc).1
  unfold emitPm
  split
  · rename_i hs
    simp only [hs] at hr
    split
    · rename_i hk
      have hw := sendResponse_sound (p := pmRecord s) h hk
      obtain ⟨e1, e2, e3, e4, e5, _⟩ := sendResponse_same (pmRecord s) (pmBeat s) s
      obtain ⟨p1, p2, p3, p4, p5⟩ := hw.pm
      refine soundWith_none.1 ((soundWith_none.2 hw).setPm rfl rfl rfl rfl rfl rfl rfl rfl rfl (e4.trans hc) hw.storage ⟨p1, p2,
          by simp, by simp, by simp⟩ hw.rdq.1 ?_ Iff.rfl)
      simp only [Option.toList, List.nil_append, e3]
      simpa using hr
    · unfold retryPm
      obtain ⟨p1, p2, p3, p4, p5⟩ := h.pm
      have p6 := p4 hs
      dsimp only
      split
      · refine soundWith_none.1 ((soundWith_none.2 h).setPm rfl rfl rfl rfl rfl rfl rfl rfl rfl hc h.storage ⟨p1,
          Nat.succ_le_succ p6, by simp, by simp, by simp⟩ h.rdq.1 ?_ Iff.rfl)
        simpa using hr
      · rename_i hle
        refine soundWith_none.1 ((soundWith_none.2 h).setPm rfl rfl rfl rfl rfl rfl rfl rfl rfl hc h.storage ⟨p1,
            Nat.succ_le_succ p6, p3, fun _ => by simpa using hle, p5⟩ h.rdq.1 ?_ Iff.rfl)
        simpa [hs] using hr
  · exact h
  · exact h

theorem emitCm_sound {s : State} (h : Sound s) (hc : s.closed = false) : Sound (emitCm s) := by
  unfold emitCm
  split
  · rename_i r hs
    split
    · rename_i hk
      have hw := sendResponse_sound (p := r.record) h hk
      obtain ⟨e1, e2, e3, e4, e5, _⟩ := sendResponse_same r.record r.beat s
      obtain ⟨p1, p2, p3, p4⟩ := hw.cm
      exact soundWith_none.1 ((soundWith_none.2 hw).setCm rfl rfl rfl rfl rfl rfl rfl rfl rfl (e4.trans hc) hw.storage ⟨p1, p2,
          by simp, p4⟩ hw.rdq.1 (hw.rdq.2.1 (e4.trans hc)).2 Iff.rfl)
    · unfold retryCm
      obtain ⟨p1, p2, p3, p4⟩ := h.cm
      have p6 := p3 (by simp [hs])
      dsimp only
      split
      · exact soundWith_none.1 ((soundWith_none.2 h).setCm rfl rfl rfl rfl rfl rfl rfl rfl rfl hc h.storage ⟨p1,
          Nat.succ_le_succ p6.2, by simp, p4⟩ h.rdq.1 (h.rdq.2.1 hc).2 Iff.rfl)
      · rename_i hle
        exact soundWith_none.1 ((soundWith_none.2 h).setCm rfl rfl rfl rfl rfl rfl rfl rfl rfl hc h.storage ⟨p1,
            Nat.succ_le_succ p6.2, fun _ => ⟨p6.1, by simpa using hle⟩, p4⟩ h.rdq.1 (h.rdq.2.1 hc).2 Iff.rfl)
  · exact h

theorem emitResponses_sound {s : State} (h : Sound s) (hc : s.closed = false) : Sound (emitResponses s) := by
  unfold emitResponses
  split
  · exact emitCm_sound (emitPm_sound h hc) ((emitPm_within s).closed.trans hc)
  · exact emitPm_sound (emitCm_sound h hc) ((emitCm_within s).closed.trans hc)

theorem dispatchData_sound {s : State} (h : Sound s) : SoundWith (delivery s) (dispatchData s) := by
  unfold delivery dispatchData
  split
  · cases hq : s.rdq with
    | nil => exact h.logFault _ _
    | cons m ms =>
      have : ({ { s with rdq := ms } with rdq := (some m).toList ++ ms } : State) = s := by
        cases s; simp_all
      simpa only [SoundWith, List.head?_cons, this] using h
  · exact h

theorem stepPm_sound {d : Option MachineId} {s : State} (h : SoundWith d s) (hc : s.closed = false) :
    SoundWith (d.filter fun m => decide (m ≠ .pm)) (stepPm d s) := by
  have hr := (h.rdq.2.1 hc).1
  have hn := h.rdq.1
  have hst : StorageOk s := h.storage
  obtain ⟨p1, p2, p3, p4, p5⟩ := h.pm
  unfold stepPm
  split
  · rename_i hs
    have p6 := p3 hs
    split
    · rename_i hd
      subst hd
      simp only [Option.toList, List.cons_append, List.nil_append, List.nodup_cons] at hn
      have hd1 : (some MachineId.pm).filter (fun m => decide (m ≠ .pm)) = none := rfl
      rw [hd1]
      unfold pmData
      split
      · refine h.setPm rfl rfl rfl rfl rfl rfl rfl rfl rfl hc hst ⟨p1, p2, by simp, by simp, by simp⟩ ?_ ?_ ?_
        · simpa using hn.2
        · simpa using hn.1
        · simp
      · refine h.setPm rfl rfl rfl rfl rfl rfl rfl rfl rfl hc ⟨memoryWf_writeBytes hst.1 _ _, hst.2⟩ ⟨p1, Nat.zero_le _, by simp,
          fun _ => Nat.zero_le _, fun _ => p5 (by simp [hs])⟩ ?_ ?_ ?_
        · simpa using hn.2
        · simpa using hn.1
        · simp
    · rename_i hd
      have hd2 : d.filter (fun m => decide (m ≠ .pm)) = d := by
        rcases d with _ | m
        · rfl
        · cases m <;> simp_all
      have hd3 : MachineId.pm ∉ d.toList := by
        rcases d with _ | m
        · simp
        · cases m <;> simp_all
      rw [hd2]
      have hT : s.pm.wait < s.cfg.dataTimeout := p6.1
      unfold pmWait
      dsimp only
      split
      · refine h.setPm rfl rfl rfl rfl rfl rfl rfl rfl rfl hc hst ⟨hT, p2, by simp, by simp, by simp⟩ ?_ ?_ ?_
        · exact hn.sublist (List.Sublist.append_left List.filter_sublist _)
        · simpa [cancelRequest] using hd3
        · simp [cancelRequest]
      · rename_i hle
        refine h.setPm rfl rfl rfl rfl rfl rfl rfl rfl rfl hc hst ⟨hT, p2, fun _ => ⟨by simpa using hle, p6.2⟩, p4,
            p5⟩ hn hr Iff.rfl
  all_goals
    rename_i hs
    have hd : d.filter (fun m => decide (m ≠ .pm)) = d := by
      rcases d with _ | m
      · rfl
      · cases m
        · simp [hs] at hr
        · rfl
    rw [hd]; exact h

theorem stepCm_sound {d : Option MachineId} {s : State} (h : SoundWith d s) (hc : s.closed = false) (hd : d ≠ some .pm) :
    Sound (stepCm d s) := by
  have hr := (h.rdq.2.1 hc).2
  have hn := h.rdq.1
  have hst : StorageOk s := h.storage
  obtain ⟨p1, p2, p3, p4⟩ := h.cm
  have hres : s.cm.state = .awaitingConfigData → s.cm.resp = none := fun hs => by
    cases hres : s.cm.resp with
    | none => rfl
    | some r => exact absurd (p3 (by simp [hres])).1 (by simp [hs])
  refine soundWith_none.1 ?_
  unfold stepCm
  split
  · rename_i hs
    have p6 := p4 hs
    split
    · rename_i hd
      subst hd
      simp only [Option.toList, List.cons_append, List.nil_append, List.nodup_cons] at hn
      unfold cmData
      dsimp only
      split
      · refine h.setCm rfl rfl rfl rfl rfl rfl rfl rfl rfl hc hst ⟨p1, p2, by simp [hres hs], by simp⟩ ?_ ?_ ?_
        · simpa using hn.2
        · simpa using hn.1
        · simp
      · split
        all_goals
          refine h.setCm rfl rfl rfl rfl rfl rfl rfl rfl rfl hc ⟨hst.1, registersWf_insertAt hst.2 _ _⟩ ⟨p1, Nat.zero_le _,
              fun _ => ⟨rfl, Nat.zero_le _⟩, by simp⟩ ?_ ?_ ?_
          · simpa using hn.2
          · simpa using hn.1
          · simp
    · rename_i hd'
      have hd3 : d = none := by
        rcases d with _ | m
        · rfl
        · cases m <;> simp_all
      subst hd3
      have hT : s.cm.wait < s.cfg.dataTimeout := p6.1
      unfold cmWait
      dsimp only
      split
      · refine h.setCm rfl rfl rfl rfl rfl rfl rfl rfl rfl hc hst ⟨hT, p2, by simp [hres hs], by simp⟩ ?_ ?_ ?_
        · exact hn.sublist (List.Sublist.append_left List.filter_sublist _)
        · simp [cancelRequest]
        · simp [cancelRequest]
      · rename_i hle
        refine h.setCm rfl rfl rfl rfl rfl rfl rfl rfl rfl hc hst ⟨hT, p2, p3, fun _ => ⟨by simpa using hle, p6.2⟩⟩ hn hr Iff.rfl
  · rename_i hs
    have : d = none := by
      rcases d with _ | m
      · rfl
      · cases m
        · exact absurd rfl hd
        · simp [hs] at hr
    subst this; exact h

theorem commandUnit_sound {d : Option MachineId} {s t : State} (h : SoundWith d s) (hc : s.closed = false)
    (ht : commandUnit s = .next t) : SoundWith d t := by
  unfold commandUnit at ht
  split at ht
  · unfold decodeCommand at ht
    split at ht
    · rename_i i hi
      split at hi <;> cases hi
      · exact execPrRdMem_sound h hc ht
      · exact execPrWrMem_sound h hc ht
    · cases ht; exact h.of_same rfl rfl rfl rfl rfl rfl rfl rfl rfl rfl rfl rfl rfl
  · cases ht; exact h

theorem configUnit_sound {s t : State} (h : Sound s) (hc : s.closed = false) (ht : configUnit s = .next t) : Sound t := by
  unfold configUnit at ht
  split at ht
  · unfold decodeConfig at ht
    split at ht
    · rename_i i hi
      split at hi <;> cases hi
      · exact execConfigRead_sound h hc ht
      · exact execConfigWrite_sound h hc ht
    · cases ht; exact h.logFault _ _
  · cases ht; exact h

theorem sequencer_sound {s t : State} (h : Sound s) (hc : s.closed = false) (ht : sequencer s = .next t) : Sound t := by
  obtain ⟨u, t', hu, hv, hs, _⟩ := sequencer_next s
  rw [hs] at ht; cases ht
  have c1 : (emitResponses s).closed = false := (emitResponses_within s).closed.trans hc
  have c2 := (dispatchData_within (emitResponses s)).closed.trans c1
  have hb : SoundWith ((tickDelivery s).filter fun m => decide (m ≠ .pm)) (beforeCommand s) :=
    stepPm_sound (dispatchData_sound (emitResponses_sound h hc)) c2
  have c3 : (beforeCommand s).closed = false := (beforeCommand_within s).closed.trans hc
  have hcu := commandUnit_sound hb c3 hu
  obtain ⟨u', hu', hw⟩ := commandUnit_next (beforeCommand s)
  rw [hu] at hu'; cases hu'
  have c4 := hw.closed.trans c3
  have hcm : Sound (stepCm (tickDelivery s) u) := by
    have hne : ∀ d : Option MachineId, d.filter (fun m => decide (m ≠ .pm)) ≠ some .pm := by
      intro d; rcases d with _ | m
      · simp
      · cases m <;> decide
    have hf := stepCm_sound hcu c4 (hne _)
    rcases hd : tickDelivery s with _ | m
    · rw [hd] at hf; exact hf
    · cases m
      · rw [hd] at hf
        have : stepCm (some .pm) u = stepCm none u := by unfold stepCm; simp
        rw [this]; exact hf
      · rw [hd] at hf; exact hf
  exact configUnit_sound hcm ((stepCm_within _ u).closed.trans c4) hv

theorem router_sound {s : State} (h : Sound s) : Sound (router s) := by
  have h1 : Sound (routeResponse s) := by
    unfold routeResponse
    split
    · dsimp only
      split
      · have h2 : ∀ o, Sound { s with out := o } := fun o => h.of_same rfl rfl rfl rfl rfl rfl rfl rfl rfl rfl rfl rfl rfl
        split
        · exact (h2 _).unbindTag _
        · exact h2 _
      · exact h.logFault _ _
    · exact h
  show Sound (passResponseData (routeResponse s))
  unfold passResponseData
  split
  · exact h1.of_same rfl rfl rfl rfl rfl rfl rfl rfl rfl rfl rfl rfl rfl
  · exact h1

theorem mem_activeSet {c : Config} {i : TickInput} {n : Nat} : n ∈ activeSet c i ↔ n < c.nCtx ∧ i.ctxActive.getLsbD n = true := by
  simp [activeSet]

theorem activeSet_nodup (c : Config) (i : TickInput) : (activeSet c i).Nodup := List.nodup_range.filter _

theorem updateMembership_sound {s : State} (h : Sound s) : Sound (updateMembership s) := by
  refine { h with rot := ⟨?_, ?_⟩ }
  · refine List.nodup_append.2 ⟨h.rot.1.filter _, (activeSet_nodup _ _).filter _, ?_⟩
    intro a ha b hb hab
    subst hab
    simp only [List.mem_filter, decide_eq_true_eq] at ha hb
    exact hb.2 ha.1
  · intro c hc
    simp only [updateMembership, updatedRotation, List.mem_append, List.mem_filter, decide_eq_true_eq] at hc
    rcases hc with hc | hc
    · exact (mem_activeSet.1 hc.2).1
    · exact (mem_activeSet.1 hc.1).1

theorem grantStep_sound {s : State} (h : Sound s) (hc : s.closed = false) : Sound (grantStep s) := by
  unfold grantStep
  split
  · split
    · rename_i c hcand
      have hm : c ∈ s.rot := List.mem_of_find?_eq_some hcand
      have hlt := h.rot.2 c hm
      unfold grant
      split
      · rename_i hk
        simp only [canGrant, Bool.and_eq_true] at hk
        split
        · rename_i n t ha
          have h240 := ((configOk_iff s.cfg).1 h.config).2.2.2.1
          have hleg : legalRequester s.cfg (BitVec.ofNat 8 c) = true := by
            simp only [legalRequester, BitVec.toNat_ofNat, Bool.or_eq_true, decide_eq_true_eq]
            left; rw [Nat.mod_eq_of_lt (by omega)]; exact hlt
          have ht : Sound t := (h.takeCredit hk.1.1).allocate ha hleg hc
          have hd := ht.drive (.cmd (outboundCmd (offeredParams s.inp c) n))
          refine { hd with rot := ⟨?_, ?_⟩ }
          · refine List.nodup_append.2 ⟨hd.rot.1.filter _, by simp, ?_⟩
            intro a ha b hb hab
            simp at ha hb; subst hb; exact ha.2 hab
          · have htr : t.rot = s.rot ∧ t.cfg = s.cfg := by
              rcases (allocate_eq_some ha).2.2 with rfl | rfl
              · exact ⟨rfl, rfl⟩
              · rcases nextDraw_cases (takeCredit .cmd s) with ⟨ds, hd⟩ | hd <;> rw [hd] <;> exact ⟨rfl, rfl⟩
            intro e he
            simp only [moveToBack, List.mem_append, List.mem_filter, List.mem_singleton] at he
            rcases he with he | rfl
            · exact hd.rot.2 e he.1
            · simp only [drive_cfg, htr.2]; exact hlt
        · exact h
      · exact h
    · exact h
  all_goals exact h

theorem creditReturns_sound {s : State} (h : Sound s) : Sound (creditReturns s) := by
  have one : ∀ (k : CreditKind) {s : State}, Sound s → Sound (inboundReturn k s) := by
    intro k s h
    unfold inboundReturn
    split
    · split
      · exact h.addCredit ‹_›
      · exact h.logFault _ _
    · exact h
  exact one _ (one _ (one _ (one _ h)))

theorem runRequests_sound {qs : List Request} {s t : State} (h : Sound s) (hc : s.closed = false)
    (ht : runRequests qs s = .next t) : Sound t := by
  induction qs generalizing s with
  | nil => cases ht; exact h
  | cons q qs ih =>
    obtain ⟨u, hu, hv⟩ := andThen_eq_next ht
    obtain ⟨u', hu', hw⟩ := runRequest_next q s
    rw [hu] at hu'; cases hu'
    refine ih ?_ (hw.closed.trans hc) hv
    unfold runRequest at hu
    split at hu
    · exact exec_request_sound h hc ‹_› hu
    · cases hu; exact (h.logFault _ _).giveResult _

theorem closeSession_sound {s : State} (h : Sound s) : Sound (closeSession s) := by
  have h1 : ∀ s, Sound s → Sound { s with tags := [], fifo := [], rdq := [], closed := true } := fun s h =>
    { config := h.config, pools := h.pools, tags := ⟨rfl, by simp, Nat.zero_le _⟩, queues := ⟨rfl, by simp, h.queues.2.2⟩,
        pm := h.pm, cm := h.cm,
      rdq := ⟨List.nodup_nil, by simp, fun _ => ⟨rfl, rfl, rfl⟩⟩, rot := h.rot, sigs := h.sigs, storage := h.storage }
  unfold closeSession
  dsimp only
  split
  · exact h1 _ (h.logFault _ _)
  · exact h1 _ h

/-- A new session over sound storage is sound. -/
theorem newSession_sound {s : State} (hc : configOk s.cfg = true) (hs : StorageOk s) : Sound (newSession s) := by
  refine ⟨hc, ?_, ?_, ?_, ?_, ?_, ?_, ?_, ?_, hs⟩
  · intro k; cases k <;> exact ⟨le_refl _, fun _ => rfl⟩
  · exact ⟨rfl, by simp [newSession, State.reset], Nat.zero_le _⟩
  · exact ⟨rfl, by simp [newSession, State.reset], rfl, by simp [newSession, State.reset]⟩
  · exact ⟨Nat.zero_le _, Nat.zero_le _, by simp [newSession, State.reset, Pm.reset], by simp [newSession, State.reset,
      Pm.reset], by simp [newSession, State.reset, Pm.reset]⟩
  · exact ⟨Nat.zero_le _, Nat.zero_le _, by simp [newSession, State.reset, Cm.reset], by simp [newSession, State.reset, Cm.reset]⟩
  · exact ⟨List.nodup_nil, by simp [newSession, State.reset, Pm.reset, Cm.reset], fun _ => ⟨rfl, rfl, rfl⟩⟩
  · exact ⟨List.nodup_nil, by simp [newSession, State.reset]⟩
  · exact ⟨⟨Nat.zero_le _, by simp [newSession, State.reset, Sigs.reset]⟩, ⟨Nat.zero_le _, by simp [newSession, State.reset,
      Sigs.reset]⟩, ⟨Nat.zero_le _, by simp [newSession, State.reset, Sigs.reset]⟩, ⟨Nat.zero_le _, by simp [newSession,
      State.reset, Sigs.reset]⟩⟩

end Sys2Proof.Machine
end

