-- ==== Sys2Proof/Tests/Slice0.lean ====
section
/-! SUPPORT. Small tests on values worked out by the spec (95_test_vectors.md, named in each comment) and a witness for the hypotheses of
each statement. -/

namespace Sys2Proof.Tests

open Sys2Proof Sys2Proof.Machine

/-! ### Helpers -/

/-- A configuration with numbers in the place of the open parameters, as 95_test_vectors.md section 0 takes them. -/
def cfg0 : Config :=
  { defaultConfig with dataTimeout := 4, maxCreditRetry := 3, atagW := 4, streamW := 4, flagsW := 4 }

/-- The reset state under it. -/
def s0 : State := { State.reset with cfg := cfg0 }

/-- The reset state with the four pools negotiated to `n` and `a` credits left in each. -/
def pooled (n a : BitVec 8) : State := { s0 with pools := ⟨⟨n, a, true⟩, ⟨n, a, true⟩, ⟨n, a, true⟩, ⟨n, a, true⟩⟩ }

/-- A state with one tick's inputs pending. -/
def fed (i : TickInput) (s : State) : State := { s with pending := [i] }

/-- A request with a zero operand. -/
def req (w : Word) : Request := ⟨w, .zero⟩

/-- A request-port drive of a zero command record. -/
def driveWord : Request := req 0x60000000

/-- What holds of the next state. -/
def after (o : Host.Outcome State Fault Refusal) (p : State → Bool) : Bool :=
  match o with
  | .next t => p t
  | .fault _ => false
  | .refused _ => false

/-- The results an instruction gives. -/
def gives (i : Instr) (s : State) (rs : List Result) : Bool := after (exec i s) fun t => decide (t.out.res = rs)

/-- The results and the records an instruction gives. -/
def raises (i : Instr) (s : State) (k : FaultKind) (op : OpName) (rs : List Result) : Bool :=
  after (exec i s) fun t => decide (t.out.res = rs) && decide (t.diag = [⟨s.cycle, op, k⟩])

/-- The state after a step, where there is one. -/
def stepped (s : State) : State :=
  match step s with
  | .next t => t
  | .fault _ => s
  | .refused _ => s

/-- A step that yields a snapshot answers a next state. -/
theorem step_stepped {s : State} (h : yieldsSnapshot s = true) : step s = .next (stepped s) := by
  obtain ⟨_, v, _, _, _, _, hf⟩ := fullTick_next (takeInput s)
  have hs := (step_of_yields h).trans hf
  rw [stepped, hs]

/-- A sound state under the test configuration. -/
theorem s0_sound : Sound (newSession s0) := newSession_sound (by decide) ⟨by decide, by decide⟩

/-- A packet of one byte value, as the packets `Pn` of 95_test_vectors.md. -/
def packet (b : Byte) : Beat := Vector.replicate 64 b

/-! ### Well-formedness refuses ill-formed terms -/

/-- 30_encoding.md R123: requester 16 is in neither range. -/
theorem test_wf_requester : WellFormed cfg0 (.tgAllocate 16) = false ∧ WellFormed cfg0 (.tgAllocate 0xEF) = false ∧
    WellFormed cfg0 (.tgAllocate 15) = true ∧ WellFormed cfg0 (.tgAllocate 0xF0) = true := by decide

/-- R123: transfer context 16 is out of range, in each `DF.*` operation. -/
theorem test_wf_xfer : WellFormed cfg0 (.dfDrain 16 1) = false ∧ WellFormed cfg0 (.dfStream .cmdData 16) = false ∧
    WellFormed cfg0 (.dfCount 16) = false ∧ WellFormed cfg0 (.dfEnqueue 16 0 []) = false ∧
    WellFormed cfg0 (.dfCount 15) = true := by decide

/-- R125: a data operand of another length than its word fixes. -/
theorem test_wf_operand : WellFormed cfg0 (.dfEnqueue 2 2 [zeroBeat]) = false ∧
    WellFormed cfg0 (.dfEnqueue 2 1 [zeroBeat]) = true := by decide

/-- R101: a command record with a field wider than its width. -/
theorem test_wf_record : WellFormed cfg0 (.btDrive (.cmd { CmdRec.zero with atag := 16 })) = false ∧
    WellFormed cfg0 (.btDrive (.cmd { CmdRec.zero with streamId := 16 })) = false ∧
    WellFormed cfg0 (.btDrive (.cmd { CmdRec.zero with flags := 16 })) = false ∧
    WellFormed cfg0 (.btDrive (.cmd { CmdRec.zero with atag := 15 })) = true := by decide

/-! ### Decoding words written out by 95_test_vectors.md L2.1, and the table's inbound opcodes -/

theorem test_decode_nop : decodeRequest cfg0 (req 0x00000000) = .ok .nop := by decide
theorem test_decode_crNegotiate : decodeRequest cfg0 (req 0x07000305) = .ok (.crNegotiate .respData 3 5) := by decide
theorem test_decode_crTryIssue : decodeRequest cfg0 (req 0x09000000) = .ok (.crTryIssue .cmdData) := by decide
theorem test_decode_crReturn : decodeRequest cfg0 (req 0x0F000000) = .ok (.crReturn .respData) := by decide
theorem test_decode_crRead : decodeRequest cfg0 (req 0x12000000) = .ok (.crRead .resp) := by decide
theorem test_decode_tgAllocate : decodeRequest cfg0 (req 0x20F30000) = .ok (.tgAllocate 0xF3) := by decide
theorem test_decode_tgResolve : decodeRequest cfg0 (req 0x24001234) = .ok (.tgResolve 0x1234) := by decide
theorem test_decode_tgRelease : decodeRequest cfg0 (req 0x2800FFFF) = .ok (.tgRelease 0xFFFF) := by decide
theorem test_decode_dfEnqueue :
    decodeRequest cfg0 ⟨0x400F0002, { Operand.zero with beats := [zeroBeat, zeroBeat] }⟩ =
      .ok (.dfEnqueue 15 2 [zeroBeat, zeroBeat]) := by decide
theorem test_decode_dfDrain : decodeRequest cfg0 (req 0x4400FFFF) = .ok (.dfDrain 0 65535) := by decide
theorem test_decode_dfStream : decodeRequest cfg0 (req 0x4B0F0000) = .ok (.dfStream .respData 15) := by decide
theorem test_decode_dfCount : decodeRequest cfg0 (req 0x4C070000) = .ok (.dfCount 7) := by decide
theorem test_decode_btDrive : decodeRequest cfg0 (req 0x62000000) = .ok (.btDrive (.resp .zero)) := by decide
theorem test_decode_btRead : decodeRequest cfg0 (req 0x66000000) = .ok (.btRead .respV) := by decide
theorem test_decode_prRdMem :
    decodeCommand cfg0 { CmdRec.zero with opcode := 0x28, ea := 0x3003, tag := 0x21, pl := 0b010 } =
      .ok (.prRdMem 0x3003 0x21 0b010) := by decide
theorem test_decode_prWrMem :
    decodeCommand cfg0 { CmdRec.zero with opcode := 0x86, ea := 0x2004, tag := 7, pl := 0b011 } =
      .ok (.prWrMem 0x2004 7 0b011) := by decide
theorem test_decode_configRead :
    decodeConfig cfg0 { opcode := 0xE0, pa := 0x410, tag := 0x12, pl := 0b010 } = .ok (.configRead 0x410 0x12 0b010) := by decide
theorem test_decode_configWrite :
    decodeConfig cfg0 { opcode := 0xE1, pa := 0x410, tag := 0x11, pl := 0b010 } = .ok (.configWrite 0x410 0x11 0b010) := by decide

/-- 95_test_vectors.md L2.1, the illegal words: a reserved field, an unassigned `OP`, a kind `DF.STREAM` has not, ranges. -/
theorem test_decode_illegal :
    decodeRequest cfg0 (req 0x00000001) = .error .reservedField ∧ decodeRequest cfg0 (req 0x14000000) = .error .unassignedOp ∧
    decodeRequest cfg0 (req 0xFC000000) = .error .unassignedOp ∧ decodeRequest cfg0 (req 0x04010000) = .error .reservedField ∧
    decodeRequest cfg0 (req 0x21000000) = .error .reservedField ∧ decodeRequest cfg0 (req 0x20100000) = .error .requesterRange ∧
    decodeRequest cfg0 (req 0x20EF0000) = .error .requesterRange ∧ decodeRequest cfg0 (req 0x48020000) = .error .streamKind ∧
    decodeRequest cfg0 (req 0x4A020000) = .error .streamKind ∧ decodeRequest cfg0 (req 0x4C100000) = .error .xferRange := by decide

/-- SQ-7, SQ-8: a class of the other interface. -/
theorem test_decode_other_interface :
    decodeCommand cfg0 { CmdRec.zero with opcode := 0xE0 } = .error .unsupportedClass ∧
    decodeConfig cfg0 { CfgRec.zero with opcode := 0x28 } = .error .unsupportedClass := by decide

/-! ### One step of each instruction -/

/-- 30_encoding.md R129. -/
theorem test_nop : gives .nop s0 [.ok] = true := by decide

/-- CR-1, CR-2: `MIN` of the two counts. -/
theorem test_crNegotiate : after (exec (.crNegotiate .cmd 4 2) s0) (fun t => decide (t.pools.cmd = ⟨2, 2, true⟩)) = true ∧
    after (exec (.crNegotiate .cmd 2 4) s0) (fun t => decide (t.pools.cmd = ⟨2, 2, true⟩)) = true := by decide

/-- CR-3. -/
theorem test_crNegotiate_again : raises (.crNegotiate .cmd 9 9) (pooled 2 2) .renegotiateIgnored .crNegotiate
    [.fault .renegotiateIgnored] = true := by decide

/-- CR-6. -/
theorem test_crTryIssue : after (exec (.crTryIssue .resp) (pooled 1 1)) (fun t => decide (t.pools.resp = ⟨1, 0, true⟩)) = true ∧
    gives (.crTryIssue .resp) (pooled 1 0) [.denied] = true := by decide

/-- CR-7, CR-8. -/
theorem test_crReturn : after (exec (.crReturn .cmd) (pooled 1 0)) (fun t => decide (t.pools.cmd = ⟨1, 1, true⟩)) = true ∧
    raises (.crReturn .cmd) (pooled 2 2) .excessCreditReturn .crReturn [.fault .excessCreditReturn] = true := by decide

/-- CR-1: the status word. -/
theorem test_crRead : gives (.crRead .cmd) (pooled 2 2) [.value 0x10202] = true ∧ gives (.crRead .cmd) s0 [.value 0] = true := by decide

/-- TG-1, TG-2: the lowest free tag; no tag. -/
theorem test_tgAllocate : after (exec (.tgAllocate 3) { pooled 2 2 with tags := [(0, 3)] })
      (fun t => decide (t.out.res = [.value 1]) && decide (t.tags = [(0, 3), (1, 3)])) = true ∧
    raises (.tgAllocate 0) s0 .tagPoolExhausted .tgAllocate [.fault .tagPoolExhausted] = true := by decide

/-- TG-3. -/
theorem test_tgResolve : gives (.tgResolve 0) { pooled 2 2 with tags := [(0, 3)] } [.value 3] = true ∧
    raises (.tgResolve 7) { pooled 2 2 with tags := [(0, 3)] } .unknownTag .tgResolve [.fault .unknownTag] = true := by decide

/-- TG-4. -/
theorem test_tgRelease : after (exec (.tgRelease 0) { pooled 2 2 with tags := [(0, 3), (1, 3)] })
      (fun t => decide (t.out.res = [.ok]) && decide (t.tags = [(1, 3)])) = true ∧
    raises (.tgRelease 0) (pooled 2 2) .unknownTag .tgRelease [.fault .unknownTag] = true := by decide

/-- DF-1, and DF-5's conflict. -/
theorem test_dfEnqueue : after (exec (.dfEnqueue 2 2 [packet 0xA0, packet 0xA1]) s0)
      (fun t => decide (queueOf t 2 = [packet 0xA0, packet 0xA1])) = true ∧
    raises (.dfEnqueue 1 1 [packet 0xA2]) { s0 with drained := [(1, ())] } .concurrentFragmentConflict .dfEnqueue
      [.fault .concurrentFragmentConflict] = true := by decide

/-- DF-2: fewer packets than asked for. -/
theorem test_dfDrain : raises (.dfDrain 2 2) { s0 with fifo := [(2, [packet 0xA2])] } .underrunWarning .dfDrain
      [.packets [packet 0xA2]] = true ∧
    after (exec (.dfDrain 2 1) { s0 with fifo := [(2, [packet 0xA0, packet 0xA1])] })
      (fun t => decide (queueOf t 2 = [packet 0xA1]) && isDrained t 2) = true := by decide

/-- DF-10, DF-8. -/
theorem test_dfStream : after (exec (.dfStream .cmdData 0) { pooled 1 1 with fifo := [(0, [packet 0xA0])] })
      (fun t => decide (t.out.ev.cmdData = some ⟨false, packet 0xA0⟩) && decide (t.pools.cmdData = ⟨1, 0, true⟩)) = true ∧
    gives (.dfStream .cmdData 0) { pooled 1 0 with fifo := [(0, [packet 0xA0])] } [.noCredit] = true := by decide

/-- DF-1. -/
theorem test_dfCount : gives (.dfCount 2) { s0 with fifo := [(2, [packet 0xA0, packet 0xA1])] } [.value 2] = true := by decide

/-- BT-2: one drive per signal per tick. -/
theorem test_btDrive : after (exec (.btDrive (.cmd .zero)) s0) (fun t => decide (t.sigs.cmd.count = 2)) = true ∧
    after (exec (.btDrive (.cmd .zero)) s0) (fun t => gives (.btDrive (.cmd .zero)) t [.ok, .busy]) = true := by decide

/-- L1-8: the status word after a drive. -/
theorem test_btRead : after (exec (.btDrive (.cmd .zero)) s0) (fun t => gives (.btRead .cmdV) t [.ok, .value 0x102]) = true ∧
    gives (.btRead .cmdDataV) s0 [.value 0] = true := by decide

/-- L1-4: the bytes of the read land at the byte offset of the address. -/
theorem test_prRdMem : after (exec (.prRdMem 0x3003 0x21 0b010)
      { s0 with mem := [(0x3003, 0x78), (0x3004, 0x56), (0x3005, 0x34), (0x3006, 0x12)] })
    (fun t => decide (extractBytes t.pm.beat 3 4 = [0x78, 0x56, 0x34, 0x12])) = true := by decide

/-- SQ-3, SQ-5: the boundary and the length. -/
theorem test_prRdMem_refused : raises (.prRdMem 0x13C 6 0b011) s0 .beatBoundaryCross .prRdMem [] = true ∧
    raises (.prRdMem 0x100 6 0b100) s0 .badLength .prRdMem [] = true := by decide

/-- SQ-2, tick 0. -/
theorem test_prWrMem : after (exec (.prWrMem 0x2004 7 0b011) s0) (fun t =>
    decide (t.pm.state = .awaitingData) && decide (t.rdq = [.pm]) && decide (t.out.rdReqCount = 1)) = true := by decide

/-- SQ-19, ticks 0 and 1: the data phase stores the beat's byte at `0x200`. -/
theorem test_prWrMem_data : after (exec (.prWrMem 0x200 1 0b000) s0) (fun t => decide (byteAt (stepPm (some .pm)
    { t with inp := { t.inp with cmdData := ⟨true, ⟨false, packet 0x77⟩⟩ } }).mem 0x200 = 0x77)) = true := by decide

/-- SQ-17: byte 1 of register `0x410` in byte 17 of the beat. -/
theorem test_configRead : after (exec (.configRead 0x411 5 0b000) { s0 with regs := [(0x410, 0xAABBCCDD)] }) (fun t =>
    match t.cm.resp with
    | some r => decide (r.beat.map (fun b => beatByte b 17) = some 0xCC)
    | none => false) = true := by decide

/-- SQ-15, SQ-16: the lane and the length. -/
theorem test_configRead_refused : raises (.configRead 0x413 1 0b001) s0 .beatBoundaryCross .configRead [] = true ∧
    raises (.configRead 0x410 1 0b011) s0 .badLength .configRead [] = true := by decide

/-- SQ-14, tick 0. -/
theorem test_configWrite : after (exec (.configWrite 0x412 1 0b001) s0) (fun t =>
    decide (t.cm.state = .awaitingConfigData) && decide (t.rdq = [.cm]) && decide (t.out.rdReqCount = 1)) = true := by decide

/-- SQ-14, tick 1: the lane's bytes are replaced and the others kept. -/
theorem test_configWrite_data : after (exec (.configWrite 0x412 1 0b001) { s0 with regs := [(0x410, 0xAABBCCDD)] })
    (fun t => decide ((stepCm (some .cm) { t with inp := { t.inp with cmdData := ⟨true, ⟨false, insertBytes zeroBeat 18 [0x11, 0x22]⟩⟩ } }).regs =
      [(0x410, 0x2211CCDD)])) = true := by decide

/-! ### The whole tick -/

/-- TK-9: the second request of a tick sees the first. -/
theorem test_tick_requests :
    after (step (fed { TickInput.idle with req := [req 0x04000101, req 0x08000000] } s0))
      (fun t => decide (t.out.res = [.ok, .granted]) && decide (t.cycle = 1)) = true := by decide

/-- CR-9: an inbound return is not seen by the requests of its tick. -/
theorem test_tick_return :
    after (step (fed { TickInput.idle with req := [req 0x08000000], ret := ⟨true, false, false, false⟩ } (pooled 1 0)))
      (fun t => decide (t.out.res = [.denied]) && decide (t.pools.cmd = ⟨1, 1, true⟩)) = true := by decide

/-- AR-1: the grant, its tag, its credit and the turned rotation. -/
theorem test_tick_grant :
    after (step (fed { TickInput.idle with ctxActive := 7, ready := 7, cmdp := [(0, ⟨0x20, 0x1000, 1, 0⟩)] }
        { pooled 4 4 with lc := .running, rot := [0, 1, 2] }))
      (fun t => decide (t.rot = [1, 2, 0]) && decide (t.tags = [(0, 0)]) && decide (t.pools.cmd = ⟨4, 3, true⟩) &&
        decide (t.out.ev.cmd = some { CmdRec.zero with opcode := 0x20, ea := 0x1000, dl := 1 })) = true := by decide

/-- TG-7: the router delivers to the requester and frees the tag of a terminal response. -/
theorem test_tick_route :
    after (step (fed { TickInput.idle with resp := ⟨true, { RespRec.zero with opcode := 0x04 }⟩ } { pooled 2 2 with tags := [(0, 3)] }))
      (fun t => decide (t.out.respOut = some ⟨3, 0x04, 0, 0, 0, 0⟩) && decide (t.tags = []) &&
        decide (t.out.snap.map (fun n => n.ret) = some ⟨false, false, true, false⟩)) = true := by decide

/-! ### Words placed where the next step reads them -/

theorem test_withFetchWord_request : after (step (s0.withFetchWord 32 0x04000402))
    (fun t => decide (t.pools.cmd = ⟨2, 2, true⟩) && decide (t.out.res = [.ok])) = true := by decide

theorem test_withFetchWord_config : after (step (s0.withFetchWord 8 0xE0)) (fun t => t.cm.resp.isSome) = true := by decide

/-! ### Witnesses: for each statement with hypotheses, values that meet them, at the ends of each clause -/

theorem test_witness_DecodeEncodeRoundTrip : cfg0.classify = defaultClassify ∧ WellFormed cfg0 .nop = true ∧
    WellFormed cfg0 (.crNegotiate .respData 255 255) = true ∧ WellFormed cfg0 (.tgAllocate 0xF0) = true ∧
    WellFormed cfg0 (.dfEnqueue 15 1 [zeroBeat]) = true ∧ WellFormed cfg0 (.dfEnqueue 0 0 []) = true ∧
    WellFormed cfg0 (.btDrive (.cmd { CmdRec.zero with flags := 15 })) = true ∧ WellFormed cfg0 (.prRdMem 0 0 7) = true := by decide

theorem test_witness_DecodedRequestSpellsItsWord : decodeRequest cfg0 (req 0x20FF0000) = .ok (.tgAllocate 0xFF) := by decide

theorem test_witness_LegalWordsAreTheTable :
    OperationWord cfg0 0x200F0000 ∧ ¬ OperationWord cfg0 0x20100000 ∧ OperationWord cfg0 0x4C0F0000 ∧
    ¬ OperationWord cfg0 0x4C100000 := by
  refine ⟨?_, ?_, ?_, ?_⟩ <;> simp [OperationWord, cfg0, defaultConfig]

theorem test_witness_IllegalWordChangesNothing :
    ¬ OperationWord s0.cfg (req 0xFC000000).word ∧ ¬ OperationWord s0.cfg (req 0x20EF0000).word := by
  refine ⟨?_, ?_⟩ <;> simp [OperationWord, s0, cfg0, req, defaultConfig]

theorem test_witness_SessionResetStartsAfresh :
    configOk (fed { TickInput.idle with rst := true } (pooled 2 1)).cfg = true ∧
    (nextInput (fed { TickInput.idle with rst := true } (pooled 2 1))).rst = true := by decide

/-- A sound state with a request pending, and the step from it. -/
theorem test_witness_StepKeepsSoundness : ∃ s t, Sound s ∧ step s = .next t ∧ yieldsSnapshot s = true :=
  ⟨fed { TickInput.idle with req := [req 0x04000402] } (newSession s0), _,
    s0_sound.of_same rfl rfl rfl rfl rfl rfl rfl rfl rfl rfl rfl rfl rfl, step_stepped (by decide), by decide⟩

theorem test_witness_PoolCountsStayInRange :
    ∃ s t, (∀ k, (s.pools.get k).avail.toNat ≤ (s.pools.get k).initial.toNat) ∧ step s = .next t :=
  ⟨fed { TickInput.idle with ret := ⟨true, true, true, true⟩ } (pooled 1 1), _, by intro k; cases k <;> decide,
    step_stepped (by decide)⟩

theorem test_witness_StepRunsPhasesInOrder : yieldsSnapshot s0 = true := by decide

theorem test_witness_StepRunsDecodedRequest :
    yieldsSnapshot (fed { TickInput.idle with req := [req 0, req 0x08000000] } s0) = true ∧
    (nextInput (fed { TickInput.idle with req := [req 0, req 0x08000000] } s0)).req = req 0 :: [req 0x08000000] ∧
    decodeRequest cfg0 (req 0) = .ok .nop := by decide

/-- Both units of a tick valid, with the opcodes given. -/
def units (a b : BitVec 8) : State :=
  { s0 with inp := { TickInput.idle with
      cmd := ⟨true, { CmdRec.zero with opcode := a }⟩, cfg := ⟨true, { CfgRec.zero with opcode := b }⟩ } }

/-- A unit that runs beside one that is refused, and a tick with neither. -/
theorem test_witness_SequencerRunsDecodedCommands :
    RunsUnit (decodeCommand cfg0) (units 0x86 0xE1).inp.cmd (exec (.prWrMem 0 0 0)) ∧
    RunsUnit (decodeConfig cfg0) (units 0x86 0xE1).inp.cfg (exec (.configWrite 0 0 0)) ∧
    RunsUnit (decodeConfig cfg0) (units 0x86 0x28).inp.cfg (fun u => .next (logFault .unsupportedCommand .seq u)) ∧
    RunsUnit (decodeCommand cfg0) s0.inp.cmd .next ∧ RunsUnit (decodeConfig cfg0) s0.inp.cfg .next :=
  ⟨.inr (.inl ⟨rfl, _, rfl, rfl⟩), .inr (.inl ⟨rfl, _, rfl, rfl⟩), .inr (.inr ⟨rfl, _, rfl, rfl⟩), .inl ⟨rfl, rfl⟩, .inl ⟨rfl, rfl⟩⟩

theorem test_witness_OtherClassesAreDropped :
    (units 0xE0 0x28).inp.cmd.valid = true ∧ classify cfg0 (units 0xE0 0x28).inp.cmd.body.opcode = .cfgRead ∧
    (units 0xE0 0x28).inp.cfg.valid = true ∧ classify cfg0 (units 0xE0 0x28).inp.cfg.body.opcode = .partialRead ∧
    classify cfg0 0xFF = .other := by decide

theorem test_witness_ClosedSessionTakesNoStep :
    configOk { s0 with closed := true }.cfg = true ∧ { s0 with closed := true }.closed = true ∧
    (nextInput { s0 with closed := true }).rst = false := by decide

theorem test_witness_DisconnectReleasesAndCloses :
    configOk s0.cfg = true ∧ s0.closed = false ∧ (nextInput (fed { TickInput.idle with disconnect := true } s0)).rst = false ∧
    (nextInput (fed { TickInput.idle with disconnect := true } s0)).disconnect = true ∧
    (nextInput (fed { TickInput.idle with tfault := some .error } s0)).tfault ≠ none := by decide

/-- R8 at its bounds: each refused just past the bound, none at the bound. -/
theorem test_witness_StepAnswersUnlessConfigurationRefused :
    configOk { cfg0 with pulseW := 0 } = false ∧ configOk { cfg0 with fifoDepth := 0 } = false ∧
    configOk { cfg0 with dataTimeout := 0 } = false ∧ configOk { cfg0 with nCtx := 241 } = false ∧
    configOk { cfg0 with nXfer := 257 } = false ∧
    configOk { cfg0 with pulseW := 1, fifoDepth := 1, dataTimeout := 1, nCtx := 240, nXfer := 256 } = true := by decide

/-- A tick that yields a snapshot and one that does not, each with its next state. -/
theorem test_witness_SnapshotAdvancesTheCycle :
    (step s0 = .next (stepped s0) ∧ yieldsSnapshot s0 = true) ∧
    ∃ t, step { s0 with closed := true } = .next t ∧ yieldsSnapshot { s0 with closed := true } = false :=
  ⟨⟨step_stepped (by decide), by decide⟩, _, step_of_closed (by decide) (by decide) rfl, by decide⟩

theorem test_witness_DiagnosticsAreAppendOnly : step s0 = .next (stepped s0) ∧ (nextInput s0).rst = false :=
  ⟨step_stepped (by decide), by decide⟩

theorem test_witness_OnlySessionLossCloses : step s0 = .next (stepped s0) := step_stepped (by decide)

theorem test_witness_OneResultPerRequest :
    yieldsSnapshot (fed { TickInput.idle with req := [driveWord, driveWord] } s0) = true ∧
    step (fed { TickInput.idle with req := [driveWord, driveWord] } s0) =
      .next (stepped (fed { TickInput.idle with req := [driveWord, driveWord] } s0)) :=
  ⟨by decide, step_stepped (by decide)⟩

theorem test_witness_StatusReadsWriteNothing : (15 : BitVec 8).toNat < s0.cfg.nXfer ∧ sigCount s0.sigs .cmdV = 0 ∧
    after (exec (.btDrive (.cmd .zero)) s0) (fun t => decide (0 < sigCount t.sigs .cmdV)) = true := by decide

theorem test_witness_NegotiateSetsThePoolOnce : ((pooled 2 2).pools.get .cmd).negotiated = true ∧
    (s0.pools.get .cmd).negotiated = false ∧ s0.cfg.negotiateMode = .min ∧
    { s0 with cfg := { cfg0 with negotiateMode := .peer } }.cfg.negotiateMode = .peer := by decide

theorem test_witness_TryIssueTestsAndDecrements : 0 < ((pooled 1 1).pools.get .resp).avail.toNat ∧
    ((pooled 1 0).pools.get .resp).avail.toNat = 0 := by decide

theorem test_witness_ReturnSaturatesAtInitial :
    ((pooled 2 1).pools.get .cmd).avail.toNat < ((pooled 2 1).pools.get .cmd).initial.toNat ∧
    ((pooled 2 2).pools.get .cmd).initial.toNat ≤ ((pooled 2 2).pools.get .cmd).avail.toNat := by decide

theorem test_witness_NegotiatedPoolIsImmutable :
    (∀ k l p, Instr.crTryIssue .cmd ≠ .crNegotiate k l p) ∧ exec (.crTryIssue .cmd) (pooled 1 0) = .next
      (giveResult .denied (pooled 1 0)) ∧ step (pooled 1 1) = .next (stepped (pooled 1 1)) ∧
    (nextInput (pooled 1 1)).rst = false ∧ ((pooled 1 1).pools.get .cmd).negotiated = true :=
  ⟨by simp, rfl, step_stepped (by decide), by decide, by decide⟩

/-- CR-9 as a witness: an empty negotiated pool, its return flag, and a request for a credit. -/
theorem test_witness_ReturnedCreditIsUsableNextTick :
    ∃ s t, yieldsSnapshot s = true ∧ step s = .next t ∧ (s.pools.get .cmd).avail = 0 ∧ (s.pools.get .cmd).initial ≠ 0 ∧
      (nextInput s).ret.get .cmd = true ∧ (nextInput s).xz.ret = false ∧
      (∀ q ∈ (nextInput s).req, decodeRequest s.cfg q = .ok (.crTryIssue .cmd)) ∧ (nextInput s).req ≠ [] :=
  ⟨fed { TickInput.idle with req := [req 0x08000000], ret := ⟨true, false, false, false⟩ } (pooled 1 0), _, by decide,
    step_stepped (by decide), by decide, by decide, by decide, by decide, by decide, by decide⟩

/-- Both sides of an inbound flag: a return with room and one to a full pool. -/
theorem test_witness_InboundFlagsReturnOneUnitEach :
    after (.next (creditReturns { pooled 1 0 with inp := { TickInput.idle with ret := ⟨true, false, false, false⟩ } }))
      (fun t => decide (t.pools.cmd.avail = 1) && decide (t.diag = [])) = true ∧
    after (.next (creditReturns { pooled 1 1 with inp := { TickInput.idle with ret := ⟨true, false, false, false⟩ } }))
      (fun t => decide (t.pools.cmd.avail = 1) && decide (t.diag = [⟨0, .ret, .excessCreditReturn⟩])) = true := by decide

theorem test_witness_ConsumedUnitsReturnCredits :
    ∃ t n, step s0 = .next t ∧ t.out.snap = some n := ⟨_, _, step_stepped (by decide), rfl⟩

theorem test_witness_AllocateBindsAFreeTag : (15 : BitVec 8).toNat < s0.cfg.nCtx ∧ 0xF0 ≤ (0xF0 : BitVec 8).toNat ∧
    ¬ ((16 : BitVec 8).toNat < s0.cfg.nCtx ∨ 0xF0 ≤ (16 : BitVec 8).toNat) ∧
    ¬ ((0xEF : BitVec 8).toNat < s0.cfg.nCtx ∨ 0xF0 ≤ (0xEF : BitVec 8).toNat) ∧
    (∃ n < tagPool (pooled 1 1), lookup (pooled 1 1).tags n = none) ∧
    (∀ n < tagPool { pooled 1 1 with tags := [(0, 3)] }, lookup { pooled 1 1 with tags := [(0, 3)] }.tags n ≠ none) ∧
    s0.cfg.allocPolicy = .lowest := by decide

theorem test_witness_ResolveGivesTheRequester : lookup { pooled 2 2 with tags := [(0, 3)] }.tags (0 : BitVec 16).toNat = some 3 ∧
    lookup { pooled 2 2 with tags := [(0, 3)] }.tags (0xFFFF : BitVec 16).toNat = none := by decide

theorem test_witness_ReleaseFreesTheTag : Store.sorted { pooled 2 2 with tags := [(0, 3)] }.tags = true ∧
    lookup { pooled 2 2 with tags := [(0, 3)] }.tags (0 : BitVec 16).toNat = some 3 ∧
    lookup { pooled 2 2 with tags := [(0, 3)] }.tags (1 : BitVec 16).toNat = none := by decide

theorem test_witness_ResolveAfterReleaseFails :
    Store.sorted { pooled 2 2 with tags := [(0, 3)] }.tags = true ∧
    (∃ r, lookup { pooled 2 2 with tags := [(0, 3)] }.tags (0 : BitVec 16).toNat = some r) ∧
    ∃ t u, exec (.tgRelease 0) { pooled 2 2 with tags := [(0, 3)] } = .next t ∧
      (∀ i ∈ [Instr.nop, .tgRelease 0], ∀ r, i ≠ .tgAllocate r) ∧ runInstrs [.nop, .tgRelease 0] t = .next u :=
  ⟨by decide, ⟨3, by decide⟩, _, _, rfl, by simp, rfl⟩

/-- A response in the tick, with tag 0. -/
def routing (valid : Bool) (tags : Store (BitVec 8)) : State :=
  { pooled 2 2 with tags := tags, inp := { TickInput.idle with resp := ⟨valid, .zero⟩ } }

theorem test_witness_RouterDeliversByTag :
    Store.sorted (routing true [(0, 3)]).tags = true ∧ (routing true [(0, 3)]).out.respOut = none ∧
    (routing true [(0, 3)]).out.respDataOut = none ∧ (routing true [(0, 3)]).inp.resp.valid = true ∧
    lookup (routing true [(0, 3)]).tags 0 = some 3 ∧ lookup (routing true []).tags 0 = none ∧
    (routing false []).inp.resp.valid = false := by decide

/-- DF-6 as a witness: a queue of 63 takes one packet and not two. -/
theorem test_witness_EnqueueAppendsAllOrNothing :
    [zeroBeat].length = (1 : BitVec 16).toNat ∧ (15 : BitVec 8).toNat < s0.cfg.nXfer ∧
    isDrained { s0 with drained := [(1, ())] } 1 = true ∧ isDrained s0 1 = false ∧
    (queueOf { s0 with fifo := [(0, List.replicate 63 zeroBeat)] } 0).length + (1 : BitVec 16).toNat ≤ s0.cfg.fifoDepth ∧
    s0.cfg.fifoDepth < (queueOf { s0 with fifo := [(0, List.replicate 63 zeroBeat)] } 0).length + (2 : BitVec 16).toNat := by decide

theorem test_witness_DrainRemovesFromTheHead :
    Store.sorted { s0 with fifo := [(2, [zeroBeat])] }.fifo = true ∧ (2 : BitVec 8).toNat < s0.cfg.nXfer ∧
    (queueOf { s0 with fifo := [(2, [zeroBeat])] } 2).length < (2 : BitVec 16).toNat ∧
    (1 : BitVec 16).toNat ≤ (queueOf { s0 with fifo := [(2, [zeroBeat])] } 2).length := by decide

theorem test_witness_StreamSendsTheHeadPacket :
    Store.sorted { pooled 1 1 with fifo := [(0, [zeroBeat])] }.fifo = true ∧ queueOf (pooled 1 1) 0 = [] ∧
    queueOf { pooled 1 1 with fifo := [(0, [zeroBeat])] } 0 = zeroBeat :: [] ∧
    canDrive (signalOfData .cmdData) (pooled 1 1) = true ∧
    canDrive (signalOfData .cmdData) { pooled 1 1 with sigs := { Sigs.reset with cmdData := ⟨1, ⟨true, .zero⟩⟩ } } = false ∧
    0 < ((pooled 1 1).pools.get (kindOfData .cmdData)).avail.toNat ∧
    ((pooled 1 0).pools.get (kindOfData .cmdData)).avail.toNat = 0 := by decide

theorem test_witness_TransferContextOutOfRangeIsIllegal : s0.cfg.nXfer ≤ (16 : BitVec 8).toNat := by decide

theorem test_witness_QueueKeepsOrderAndContents :
    Store.sorted s0.fifo = true ∧ (2 : BitVec 8).toNat < s0.cfg.nXfer ∧ [zeroBeat, zeroBeat].length = (2 : BitVec 16).toNat ∧
    (2 : BitVec 16).toNat ≤ s0.cfg.fifoDepth ∧ queueOf s0 2 = [] ∧ isDrained s0 2 = false ∧
    (([1, 1] : List (BitVec 16)).map BitVec.toNat).sum = (2 : BitVec 16).toNat := by decide

/-- R341: driven in the tick, never again; a running pulse may be restarted under `RELOAD` only. -/
theorem test_canDrive :
    let s := { s0 with sigs := { Sigs.reset with cmd := ⟨1, ⟨true, .zero⟩⟩ } }
    let r := { s with cfg := { cfg0 with pulseRedrive := .reload } }
    canDrive .cmdV s0 = true ∧ canDrive .cmdV s = false ∧ canDrive .respV s = true ∧ canDrive .cmdV r = true ∧
    canDrive .cmdV (drive (.cmd .zero) r) = false := by decide

theorem test_witness_DriveStartsThePulse : WellFormed s0.cfg (.btDrive (.cmd .zero)) = true ∧
    canDrive (DrivePayload.cmd .zero).signal s0 = true ∧
    canDrive (DrivePayload.cmd .zero).signal { s0 with sigs := { Sigs.reset with cmd := ⟨1, ⟨true, .zero⟩⟩ } } = false := by decide

/-- A tick that drives `cmd_v` and one that does not, with a pulse still running. -/
theorem test_witness_LevelFollowsTheCountdown :
    (∃ t n, step (fed { TickInput.idle with req := [driveWord] } s0) = .next t ∧ t.out.snap = some n ∧ sendsUnit n .cmdV = true) ∧
    ∃ t n, step { s0 with sigs := { Sigs.reset with cmd := ⟨1, ⟨true, .zero⟩⟩ } } = .next t ∧ t.out.snap = some n ∧
      sendsUnit n .cmdV = false :=
  ⟨⟨_, _, step_stepped (by decide), rfl, by decide⟩, _, _, step_stepped (by decide), rfl, by decide⟩

/-- L1-8 as a witness: three ticks from a drive. -/
theorem test_witness_PulseLastsTwoTicks : ∃ s t u v a b c, s.cfg.pulseW = 2 ∧ step s = .next t ∧ step t = .next u ∧
    step u = .next v ∧ t.out.snap = some a ∧ u.out.snap = some b ∧ v.out.snap = some c ∧ sendsUnit a .cmdV = true ∧
    sendsUnit b .cmdV = false ∧ sendsUnit c .cmdV = false :=
  ⟨fed { TickInput.idle with req := [driveWord] } s0, stepped (fed { TickInput.idle with req := [driveWord] } s0),
    stepped (stepped (fed { TickInput.idle with req := [driveWord] } s0)), _, _, _, _, rfl, step_stepped (by decide),
    step_stepped (by decide), step_stepped (by decide), rfl, rfl, rfl, by decide, by decide, by decide⟩

/-- The partial commands at each clause: busy, a code without an accepted length, the last offset that fits and the first that does not. -/
theorem test_witness_PartialReadFillsTheBeat : classify s0.cfg 0x28 = .partialRead ∧ s0.pm.state = .idle ∧
    { s0 with pm := { Pm.reset with state := .awaitingData } }.pm.state ≠ .idle ∧ plBytes s0.cfg 0b100 = some 16 ∧
    plBytes s0.cfg 0b111 = none ∧ plBytes s0.cfg 0b011 = some 8 ∧ (0x138 : BitVec 64).toNat % 64 + 8 ≤ 64 ∧
    64 < (0x139 : BitVec 64).toNat % 64 + 8 := by decide

theorem test_witness_PartialWriteAwaitsData : classify s0.cfg 0x86 = .partialWrite ∧ s0.pm.state = .idle ∧
    { s0 with pm := { Pm.reset with state := .responsePending } }.pm.state ≠ .idle ∧ plBytes s0.cfg 0b100 = some 16 ∧
    plBytes s0.cfg 0b000 = some 1 ∧ (0x13F : BitVec 64).toNat % 64 + 1 ≤ 64 ∧ plBytes s0.cfg 0b001 = some 2 ∧
    64 < (0x13F : BitVec 64).toNat % 64 + 2 := by decide

/-- A state whose configuration machine holds a response. -/
def holding (beat : Option Beat) : State := { s0 with cm := { Cm.reset with resp := some ⟨.zero, beat⟩ } }

/-- The configuration commands at each clause, as for the partial ones. -/
theorem test_witness_ConfigReadHoldsTheResponse : classify s0.cfg 0xE0 = .cfgRead ∧ s0.cm.state = .idle ∧ s0.cm.resp = none ∧
    ¬ ((holding none).cm.state = .idle ∧ (holding none).cm.resp = none) ∧ plBytes s0.cfg 0b011 = some 8 ∧
    plBytes s0.cfg 0b001 = some 2 ∧ (0x412 : BitVec 64).toNat % 4 + 2 ≤ 4 ∧ 4 < (0x413 : BitVec 64).toNat % 4 + 2 := by decide

theorem test_witness_ConfigWriteAwaitsData : classify s0.cfg 0xE1 = .cfgWrite ∧ s0.cm.state = .idle ∧ s0.cm.resp = none ∧
    ¬ ({ s0 with cm := { Cm.reset with state := .awaitingConfigData } }.cm.state = .idle ∧
      { s0 with cm := { Cm.reset with state := .awaitingConfigData } }.cm.resp = none) ∧ plBytes s0.cfg 0b100 = some 16 ∧
    plBytes s0.cfg 0b010 = some 4 ∧ (0x410 : BitVec 64).toNat % 4 + 4 ≤ 4 ∧ 4 < (0x411 : BitVec 64).toNat % 4 + 4 := by decide

/-- A partial machine with its response pending. -/
def pendingPm (n a : BitVec 8) (dir : AccessDir) (retry : Nat) : State :=
  { pooled n a with pm := { Pm.reset with state := .responsePending, cmd := { Pm.reset.cmd with dir := dir }, retry := retry } }

/-- Both machines with a response and one credit of each kind: under either priority the first emission uses the signal. -/
theorem test_witness_SequencerRunsDecodedCommands_priority :
    let s := { pendingPm 1 1 .write 0 with cm := (holding none).cm }
    let t := { s with cfg := { cfg0 with respPriority := .configFirst } }
    s.cfg.respPriority = .partialFirst ∧ s.cm.resp = some ⟨.zero, none⟩ ∧ (emitPm s).out.ev.resp ≠ none ∧
    t.cfg.respPriority = .configFirst ∧ t.pm.state = .responsePending ∧ (emitCm t).out.ev.resp ≠ none ∧
    s0.pm.state ≠ .responsePending ∧ s0.cm.resp = none ∧ s0.pm.state ≠ .awaitingData ∧ s0.cm.state ≠ .awaitingConfigData := by
  decide

/-- The partial machine's emission at each clause: the last retry within the bound and the first past it. -/
theorem test_witness_PartialResponseLeavesWholeOrNotAtAll :
    (pendingPm 1 1 .read 0).pm.state = .responsePending ∧ canEmit true (pendingPm 1 1 .read 0) = true ∧
    canEmit false (pendingPm 1 1 .write 0) = true ∧ canEmit false (pendingPm 1 0 .write 0) = false ∧
    (pendingPm 1 0 .read 2).pm.retry + 1 ≤ s0.cfg.maxCreditRetry ∧ s0.cfg.maxCreditRetry < (pendingPm 1 0 .read 3).pm.retry + 1 := by
  decide

theorem test_witness_ConfigResponseLeavesWholeOrNotAtAll :
    (holding none).cm.resp = some ⟨.zero, none⟩ ∧ (holding (some zeroBeat)).cm.resp = some ⟨.zero, some zeroBeat⟩ ∧
    canEmit true { pooled 1 1 with cm := (holding (some zeroBeat)).cm } = true ∧ canEmit false (holding none) = false ∧
    2 + 1 ≤ s0.cfg.maxCreditRetry ∧ s0.cfg.maxCreditRetry < 3 + 1 := by decide

/-- A tick with a data beat and an order queue. -/
def beating (valid : Bool) (q : List MachineId) : State :=
  { s0 with rdq := q, inp := { TickInput.idle with cmdData := ⟨valid, .zero⟩ } }

theorem test_witness_BeatGoesToTheOldestRequest :
    (beating true [.pm, .cm]).inp.cmdData.valid = true ∧ (beating true [.pm, .cm]).rdq = .pm :: [.cm] ∧
    (beating true []).rdq = [] ∧ (beating false [.pm]).inp.cmdData.valid = false := by decide

/-- A partial machine that waits for its beat, its window at the end of the beat. -/
def waitingPm (wait : Nat) (d : DataRec) : State :=
  { s0 with
    rdq := [.pm]
    pm := { Pm.reset with
      state := .awaitingData, cmd := { dir := .write, addr := 0x138, tag := 7, pl := 0b011, len := 8, off := 56 }, wait := wait }
    inp := { TickInput.idle with cmdData := ⟨true, d⟩ } }

theorem test_witness_PartialWriteStoresTheWindow :
    (waitingPm 0 .zero).pm.state = .awaitingData ∧ (waitingPm 0 .zero).pm.cmd.off.toNat + (waitingPm 0 .zero).pm.cmd.len ≤ 64 ∧
    (waitingPm 0 .zero).inp.cmdData.body.bad = false ∧ (waitingPm 0 ⟨true, zeroBeat⟩).inp.cmdData.body.bad = true := by decide

/-- A configuration machine that waits for its beat. -/
def waitingCm (wait : Nat) (d : DataRec) : State :=
  { s0 with
    rdq := [.cm]
    cm := { Cm.reset with
      state := .awaitingConfigData, cmd := { dir := .write, pa := 0x412, tag := 1, pl := 0b001, len := 2 }, wait := wait }
    inp := { TickInput.idle with cmdData := ⟨true, d⟩ } }

theorem test_witness_ConfigWriteMergesTheLane :
    (waitingCm 0 .zero).cm.state = .awaitingConfigData ∧
    (waitingCm 0 .zero).cm.cmd.pa.toNat % 4 + (waitingCm 0 .zero).cm.cmd.len ≤ 4 ∧
    (waitingCm 0 .zero).inp.cmdData.body.bad = false ∧ (waitingCm 0 ⟨true, zeroBeat⟩).inp.cmdData.body.bad = true := by decide

/-- The last tick of waiting and the one before it, for both machines. -/
theorem test_witness_WaitingEndsAtTheTimeout :
    (waitingPm 2 .zero).pm.state = .awaitingData ∧ (waitingPm 2 .zero).pm.wait + 1 < s0.cfg.dataTimeout ∧
    s0.cfg.dataTimeout ≤ (waitingPm 3 .zero).pm.wait + 1 ∧ (waitingCm 2 .zero).cm.state = .awaitingConfigData ∧
    (waitingCm 2 .zero).cm.wait + 1 < s0.cfg.dataTimeout ∧ s0.cfg.dataTimeout ≤ (waitingCm 3 .zero).cm.wait + 1 ∧
    (none : Option MachineId) ≠ some .pm ∧ (some MachineId.pm) ≠ some .cm := by decide

theorem test_witness_ConfigWriteThenReadReturnsTheBytes :
    s0.cm.state = .idle ∧ s0.cm.resp = none ∧ plBytes s0.cfg 0b001 = some 2 ∧ (0x412 : BitVec 64).toNat % 4 + 2 ≤ 4 ∧
    after (exec (.configWrite 0x412 1 0b001) s0) (fun w => decide ((waitingCm 0 .zero).cm.cmd = w.cm.cmd)) = true ∧
    (waitingCm 0 .zero).cm.state = .awaitingConfigData ∧ (waitingCm 0 .zero).cfg = s0.cfg ∧
    (waitingCm 0 .zero).inp.cmdData.body.bad = false ∧
    { s0 with regs := (stepCm (some .cm) (waitingCm 0 .zero)).regs }.cm.resp = none := by decide

/-- A sound state whose partial machine waits and whose beat is in the tick. -/
theorem test_witness_StorageChangesOnlyByADataPhase :
    ∃ s t, Sound s ∧ step s = .next t ∧ s.pm.state = .awaitingData ∧ s.rdq.head? = some .pm ∧
      (nextInput s).cmdData.valid = true ∧ (nextInput s).xz.cmdData = false ∧ (nextInput s).cmdData.body.bad = false := by
  have h := s0_sound
  refine ⟨fed { TickInput.idle with cmdData := ⟨true, .zero⟩ } (waitingPm 0 .zero), _, ?_, step_stepped (by decide), rfl, rfl, rfl,
    rfl, rfl⟩
  exact { config := h.config, pools := h.pools, tags := h.tags, queues := h.queues, cm := h.cm, rot := h.rot, sigs := h.sigs,
          storage := h.storage
          pm := ⟨by decide, by decide, fun _ => ⟨by decide, rfl⟩, fun hx => (by cases hx), fun _ => ⟨by decide, by decide, by decide⟩⟩
          rdq := ⟨by decide, fun _ => ⟨by decide, by decide⟩, fun hc => by cases hc⟩ }

/-- LC-2 to LC-4 as witnesses: each lifecycle state with the inputs of its two ways. -/
theorem test_witness_LifecycleTransitions :
    yieldsSnapshot (fed { TickInput.idle with ctxActive := 3, ctxDone := 1 } { s0 with lc := .drainingResponses }) = true ∧
    step (fed { TickInput.idle with ctxActive := 3, ctxDone := 1 } { s0 with lc := .drainingResponses }) =
      .next (stepped (fed { TickInput.idle with ctxActive := 3, ctxDone := 1 } { s0 with lc := .drainingResponses })) ∧
    (∃ c < s0.cfg.nCtx, (3 : BitVec 240).getLsbD c = true ∧ (1 : BitVec 240).getLsbD c = false) ∧
    (∀ c < s0.cfg.nCtx, (3 : BitVec 240).getLsbD c = true → (3 : BitVec 240).getLsbD c = true) ∧
    (∃ c < s0.cfg.nCtx, (0x8000 : BitVec 240).getLsbD c = true) ∧ ∀ c < s0.cfg.nCtx, (0x10000 : BitVec 240).getLsbD c = false :=
  ⟨by decide, step_stepped (by decide), by decide, by decide, by decide, by decide⟩

theorem test_witness_NoGrantOutsideRunning :
    (∃ u v, runRequests s0.inp.req (beginTick s0) = .next u ∧ sequencer (router u) = .next v) ∧ s0.lc ≠ .running :=
  ⟨⟨_, _, rfl, rfl⟩, by decide⟩

theorem test_witness_MembershipKeepsOrder : ({ s0 with rot := [2, 0] } : State).rot.Nodup := by decide

/-- A running block with contexts 0, 1 and 2 in its rotation, some of them ready. -/
def running (pool : State) (ready : BitVec 240) (rot : List Nat) : State :=
  { pool with lc := .running, rot := rot, inp := { TickInput.idle with ctxActive := 7, ready := ready } }

/-- AR-1, AR-2 and AR-6 as witnesses. -/
theorem test_witness_GrantIsAllOrNothing :
    (running (pooled 4 4) 6 [0, 1, 2]).lc = .running ∧ (running (pooled 4 4) 6 [0, 1, 2]).rot.Nodup ∧
    (running (pooled 4 4) 6 [0, 1, 2]).rot = [0] ++ 1 :: [2] ∧
    (∀ p ∈ [0], (running (pooled 4 4) 6 [0, 1, 2]).inp.ready.getLsbD p = false) ∧
    (running (pooled 4 4) 6 [0, 1, 2]).inp.ready.getLsbD 1 = true ∧
    0 < ((running (pooled 4 4) 6 [0, 1, 2]).pools.get .cmd).avail.toNat ∧
    canDrive .cmdV (running (pooled 4 4) 6 [0, 1, 2]) = true ∧
    liveTags (running (pooled 4 4) 6 [0, 1, 2]) < tagPool (running (pooled 4 4) 6 [0, 1, 2]) ∧
    ¬ liveTags (running { pooled 1 1 with tags := [(0, 0xF0)] } 7 [0]) < tagPool (running { pooled 1 1 with tags := [(0, 0xF0)] } 7 [0]) ∧
    (∀ c ∈ [0, 1, 2], (running (pooled 4 4) 0 [0, 1, 2]).inp.ready.getLsbD c = false) := by decide

/-- The run of AR-1 turned over and over: three contexts, one grant at each state. -/
def turns (i : Nat) : State := running (pooled 4 4) 7 (([0, 1, 2] : List Nat).rotate i)

theorem test_witness_GrantsAreRoundRobin :
    (turns 0).rot.length = 3 ∧ 0 < 3 ∧ (turns 0).rot.Nodup ∧ (∀ i, (turns i).lc = .running) ∧
    (∀ i c, c ∈ (turns 0).rot ↔ c < (turns i).cfg.nCtx ∧ (turns i).inp.ctxActive.getLsbD c = true) ∧
    (∀ i, ∀ c ∈ (turns 0).rot, (turns i).inp.ready.getLsbD c = true) ∧
    (∀ i, 0 < ((turns i).pools.get .cmd).avail.toNat ∧ canDrive .cmdV (turns i) = true ∧ liveTags (turns i) < tagPool (turns i)) ∧
    ∀ i, (turns (i + 1)).rot = (arbiter (turns i)).rot := by
  refine ⟨rfl, by decide, by decide, fun _ => rfl, fun i c => ?_, fun i => ?_, fun i => ?_, fun i => ?_⟩
  · constructor
    · intro h
      have : ∀ c ∈ [0, 1, 2], c < 16 ∧ (7 : BitVec 240).getLsbD c = true := by decide
      exact this c h
    · rintro ⟨h, h7⟩
      have : ∀ c < 16, (7 : BitVec 240).getLsbD c = true → c ∈ [0, 1, 2] := by decide
      exact this c h h7
  · show ∀ c ∈ [0, 1, 2], (7 : BitVec 240).getLsbD c = true
    decide
  · exact ⟨by show 0 < 4; decide, rfl, by show 0 < 4; decide⟩
  · have h3 : ∀ j, turns (j % 3) = turns j := fun j => by
      unfold turns; rw [show (3 : Nat) = ([0, 1, 2] : List Nat).length from rfl, List.rotate_mod]
    have key : ∀ j < 3, (turns (j + 1)).rot = (arbiter (turns j)).rot := by decide
    have := key (i % 3) (Nat.mod_lt _ (by decide))
    rw [h3] at this
    rw [← this, ← h3 (i % 3 + 1), ← h3 (i + 1)]
    congr 2
    omega

end Sys2Proof.Tests
end

/-! O17: a step is refused on the configurations R8 excludes and answers a next state on all others. -/

namespace Sys2Proof.Machine

/-- A configuration is refused exactly when one of R8's five bounds is broken. -/
theorem configOk_eq_false_iff (c : Config) : configOk c = false ↔
    c.pulseW = 0 ∨ c.fifoDepth = 0 ∨ c.dataTimeout = 0 ∨ 240 < c.nCtx ∨ 256 < c.nXfer := by
  rw [← Bool.not_eq_true, configOk_iff]
  omega

@[simp] theorem newSession_cfg (s : State) : (newSession s).cfg = s.cfg := rfl

@[simp] theorem closeSession_cfg (s : State) : (closeSession s).cfg = s.cfg := by
  unfold closeSession
  cases s.inp.tfault with
  | none => rfl
  | some f => exact logFault_cfg (transportKind f) .transport s

@[simp] theorem beginTick_cfg (s : State) : (beginTick s).cfg = s.cfg := by rw [beginTick_eq]

@[simp] theorem endTick_cfg (s : State) : (endTick s).cfg = s.cfg :=
  (creditReturns_within (lifecycleStep (arbiter s))).cfg.trans (arbiter_within s).cfg

/-- A tick that reaches phase 9 answers a next state; each of its phases keeps the configuration. -/
theorem fullTick_keeps_cfg (s : State) : ∃ t, fullTick s = .next t ∧ t.cfg = s.cfg := by
  obtain ⟨u, v, -, hrequests, -, hsequencer, hfull⟩ := fullTick_next s
  refine ⟨endTick v, hfull, ?_⟩
  calc (endTick v).cfg = v.cfg := endTick_cfg v
    _ = (router u).cfg := hsequencer.cfg
    _ = u.cfg := (router_within u).cfg
    _ = (beginTick s).cfg := hrequests.cfg
    _ = s.cfg := beginTick_cfg s

/-- A tick answers a next state with the same configuration, whichever of its four ways it goes (R360). -/
theorem tick_keeps_cfg (s : State) : ∃ t, tick s = .next t ∧ t.cfg = s.cfg := by
  unfold tick
  split
  case isTrue => exact ⟨_, rfl, newSession_cfg s⟩
  case isFalse =>
    split
    case isTrue => exact ⟨s, rfl, rfl⟩
    case isFalse =>
      split
      case isTrue => exact ⟨_, rfl, closeSession_cfg s⟩
      case isFalse => exact fullTick_keeps_cfg s

theorem step_eq_tick {s : State} (h : configOk s.cfg = true) : step s = tick (takeInput s) := if_pos h

/-- Settles O17: a broken bound of R8 makes `configOk` false, and a step on any other configuration is a tick, which never
stops a run. -/
theorem stepAnswersUnlessConfigurationRefused : Obligations.StepAnswersUnlessConfigurationRefused := by
  intro s
  rw [← configOk_eq_false_iff, Bool.not_eq_false]
  refine ⟨step_eq_refused, fun hok => ?_⟩
  rw [step_eq_tick hok]
  exact tick_keeps_cfg (takeInput s)

end Sys2Proof.Machine

/-! The step as a whole, said once: a full tick is its start, a part `Within` the tick, and its end. -/

namespace Sys2Proof.Machine

theorem inboundReturn_lifecycleStep (k : CreditKind) (s : State) :
    inboundReturn k (lifecycleStep s) = lifecycleStep (inboundReturn k s) := by
  simp only [inboundReturn, apply_ite lifecycleStep]
  rfl

/-- Phases 7 and 8 commute: the lifecycle reads no pool and no record, the credit returns no lifecycle state. -/
theorem creditReturns_lifecycleStep (s : State) :
    creditReturns (lifecycleStep s) = lifecycleStep (creditReturns s) := by
  simp only [creditReturns, inboundReturn_lifecycleStep]

/-- A full tick ends with the lifecycle step and phase 9; all between its start and them is `Within` the tick. -/
theorem fullTick_within {s t : State} (h : fullTick s = .next t) :
    ∃ w, Within (beginTick s) w ∧ t = closeTick (lifecycleStep w) := by
  obtain ⟨u, v, -, hrequests, -, hsequencer, hfull⟩ := fullTick_next s
  rw [hfull] at h
  cases h
  refine ⟨creditReturns (arbiter v), ?_, congrArg closeTick (creditReturns_lifecycleStep (arbiter v))⟩
  have hafter : Within (router u) (creditReturns (arbiter v)) :=
    hsequencer.trans ((arbiter_within v).trans (creditReturns_within _))
  exact hrequests.trans ((router_within u).trans hafter)

end Sys2Proof.Machine

/-! O9: every phase keeps a sound state of an open session sound, and each of the four ways of a step ends in a sound state. -/

namespace Sys2Proof.Machine

theorem lifecycleStep_sound {s : State} (h : Sound s) : Sound (lifecycleStep s) :=
  h.of_same rfl rfl rfl rfl rfl rfl rfl rfl rfl rfl rfl rfl rfl

theorem arbiter_sound {s : State} (h : Sound s) (hopen : s.closed = false) : Sound (arbiter s) :=
  grantStep_sound (updateMembership_sound h) hopen

theorem endTick_sound {s : State} (h : Sound s) (hopen : s.closed = false) : Sound (endTick s) :=
  closeTick_sound (creditReturns_sound (lifecycleStep_sound (arbiter_sound h hopen)))

@[simp] theorem beginTick_closed (s : State) : (beginTick s).closed = s.closed := by rw [beginTick_eq]

/-- The session stays open up to the phase that needs it so: each phase keeps the closed bit. -/
theorem fullTick_sound {s t : State} (h : Sound s) (hopen : s.closed = false) (ht : fullTick s = .next t) : Sound t := by
  obtain ⟨u, v, hu, hrequests, hv, hsequencer, hfull⟩ := fullTick_next s
  rw [hfull] at ht
  cases ht
  have hbegin : (beginTick s).closed = false := (beginTick_closed s).trans hopen
  have hrouter : (router u).closed = false := ((router_within u).closed.trans hrequests.closed).trans hbegin
  have hsound : Sound u := runRequests_sound (beginTick_sound h) hbegin hu
  exact endTick_sound (sequencer_sound (router_sound hsound) hrouter hv) (hsequencer.closed.trans hrouter)

/-- Settles O9: by the four ways of a step. A new session rests on the storage alone, a closed session changes only the inputs, a
lost one releases what it held, and a full tick keeps soundness phase by phase. -/
theorem stepKeepsSoundness : Obligations.StepKeepsSoundness := by
  intro s t h hstep
  have hin : Sound (takeInput s) := takeInput_sound h
  obtain ⟨hconfig, ⟨-, rfl⟩ | ⟨-, -, rfl⟩ | ⟨-, -, -, rfl⟩ | ⟨hyields, hfull⟩⟩ := step_cases hstep
  · exact newSession_sound hconfig hin.storage
  · exact hin
  · exact closeSession_sound hin
  · obtain ⟨-, -, hopen, -⟩ := (yieldsSnapshot_iff s).1 hyields
    exact fullTick_sound hin hopen hfull

end Sys2Proof.Machine

/-! O10: every step keeps `avail ≤ initial` in every pool. -/

namespace Sys2Proof.Machine

@[simp] theorem newSession_pool (k : CreditKind) (s : State) : (newSession s).pools.get k = Pool.reset := by
  cases k <;> rfl

@[simp] theorem closeSession_pools (s : State) : (closeSession s).pools = s.pools := by
  unfold closeSession
  cases s.inp.tfault with
  | none => rfl
  | some f => exact logFault_pools (transportKind f) .transport s

@[simp] theorem beginTick_pools (s : State) : (beginTick s).pools = s.pools := by rw [beginTick_eq]

theorem Within.avail_le_initial {s t : State} (h : Within s t) (k : CreditKind)
    (hs : (s.pools.get k).avail.toNat ≤ (s.pools.get k).initial.toNat) :
    (t.pools.get k).avail.toNat ≤ (t.pools.get k).initial.toNat :=
  (h.pools k).2 hs

/-- Settles O10: only the part of a full tick that is `Within` it changes a pool, and that part keeps the bound; a new session
has 0 in every count. -/
theorem poolCountsStayInRange : Obligations.PoolCountsStayInRange := by
  intro s t hs hstep k
  obtain ⟨-, ⟨-, rfl⟩ | ⟨-, -, rfl⟩ | ⟨-, -, -, rfl⟩ | ⟨-, hfull⟩⟩ := step_cases hstep
  · simp [Pool.reset]
  · exact hs k
  · simpa using hs k
  · obtain ⟨w, hw, rfl⟩ := fullTick_within hfull
    exact hw.avail_le_initial k (by simpa using hs k)

end Sys2Proof.Machine

/-! O20: no step but a session reset removes or changes a record. -/

namespace Sys2Proof.Machine

/-- The same records, all of the cycle of `s`, are appended to the log and to the tick's output (R57, R402). -/
def AppendsRecords (s t : State) : Prop :=
  ∃ ds, t.diag = s.diag ++ ds ∧ t.out.diag = s.out.diag ++ ds ∧ ∀ d ∈ ds, d.cycle = s.cycle

theorem AppendsRecords.refl (s : State) : AppendsRecords s s := ⟨[], by simp⟩

theorem AppendsRecords.trans {s t u : State} (hst : AppendsRecords s t) (hcycle : t.cycle = s.cycle)
    (htu : AppendsRecords t u) : AppendsRecords s u := by
  obtain ⟨ds, hdiag, hout, hds⟩ := hst
  obtain ⟨es, hdiag', hout', hes⟩ := htu
  refine ⟨ds ++ es, by rw [hdiag', hdiag, List.append_assoc], by rw [hout', hout, List.append_assoc], fun d hd => ?_⟩
  rcases List.mem_append.1 hd with hd | hd
  · exact hds d hd
  · exact (hes d hd).trans hcycle

theorem logFault_appendsRecords (k : FaultKind) (op : OpName) (s : State) : AppendsRecords s (logFault k op s) :=
  (logFault_within k op s).diag

theorem beginTick_appendsRecords {s : State} (h : s.out.diag = []) : AppendsRecords s (beginTick s) := by
  rw [beginTick_eq]
  exact ⟨xzRecords s, rfl, by simp [h], xzRecords_cycle s⟩

@[simp] theorem beginTick_cycle (s : State) : (beginTick s).cycle = s.cycle := by rw [beginTick_eq]

theorem closeSession_appendsRecords (s : State) : AppendsRecords s (closeSession s) := by
  unfold closeSession
  cases s.inp.tfault with
  | none => exact AppendsRecords.refl s
  | some f => exact logFault_appendsRecords (transportKind f) .transport s

theorem fullTick_appendsRecords {s t : State} (hout : s.out.diag = []) (h : fullTick s = .next t) : AppendsRecords s t := by
  obtain ⟨w, hw, rfl⟩ := fullTick_within h
  exact (beginTick_appendsRecords hout).trans (beginTick_cycle s) hw.diag

/-- Settles O20: the three ways of a step other than a session reset only append records, and the tick's output is empty when the
step begins. -/
theorem diagnosticsAreAppendOnly : Obligations.DiagnosticsAreAppendOnly := by
  intro s t hstep hrst
  have happends : AppendsRecords (takeInput s) t := by
    obtain ⟨-, ⟨hreset, -⟩ | ⟨-, -, rfl⟩ | ⟨-, -, -, rfl⟩ | ⟨-, hfull⟩⟩ := step_cases hstep
    · simp [hrst] at hreset
    · exact AppendsRecords.refl _
    · exact closeSession_appendsRecords _
    · exact fullTick_appendsRecords rfl hfull
  obtain ⟨ds, hdiag, hout, hcycle⟩ := happends
  have hds : t.out.diag = ds := by simpa [Outputs.none] using hout
  rw [hds]
  exact ⟨hdiag, hcycle⟩

end Sys2Proof.Machine

/-! O6 and O8: the reset values of R60, and that the state after reset is sound. -/

namespace Sys2Proof.Machine

theorem reset_pool (k : CreditKind) : State.reset.pools.get k = Pool.reset := by cases k <;> rfl

/-- Settles O6: a pool by its kind, the stores by the empty list, every other element by its field. -/
theorem resetValues : Obligations.ResetValues :=
  ⟨reset_pool, fun n => lookup_nil n, fun _ => ⟨rfl, rfl⟩, rfl, rfl, rfl, rfl, rfl, rfl, rfl, rfl, rfl, rfl, rfl, rfl, rfl, rfl,
    rfl, rfl, rfl⟩

theorem defaultConfig_ok : configOk defaultConfig = true := by
  rw [configOk_iff]
  exact ⟨by decide, by decide, Nat.succ_pos _, by decide, by decide⟩

theorem newSession_reset : newSession State.reset = State.reset := rfl

/-- Settles O8: the reset state is a new session over empty storage, under the default configuration, which has a model. -/
theorem resetIsSound : Obligations.ResetIsSound := by
  have hstorage : StorageOk State.reset := ⟨rfl, rfl⟩
  have hsound : Sound (newSession State.reset) := newSession_sound defaultConfig_ok hstorage
  rwa [newSession_reset] at hsound

end Sys2Proof.Machine

/-! O55: over a whole step the environment's storage changes only in the data phases of phase 5. Phase 5 is read part by part, then
the tick around it, which changes no storage, and last the bytes and words themselves. -/

namespace Sys2Proof.Machine

/-! ### What a data phase leaves of the storage -/

/-- Phase 5 delivers a good beat to a machine: it is at the head of the order queue, and the beat is valid and not bad (R236, R238). -/
def GoodBeatFor (m : MachineId) (s : State) : Prop :=
  s.rdq.head? = some m ∧ s.inp.cmdData.valid = true ∧ s.inp.cmdData.body.bad = false

/-- The bytes of the tick's beat in the partial machine's latched window (R239). -/
def windowBytes (s : State) : List Byte :=
  extractBytes s.inp.cmdData.body.data s.pm.cmd.off.toNat s.pm.cmd.len

/-- From `s` to `t` the storage is changed by a data phase or not at all: the memory by the partial machine's (R239), a register by the
configuration machine's (R251). -/
structure WritesByDataPhase (s t : State) : Prop where
  mem : t.mem = s.mem ∨ (s.pm.state = .awaitingData ∧ GoodBeatFor .pm s ∧
    t.mem = writeBytes s.pm.cmd.addr (windowBytes s) s.mem)
  regs : t.regs = s.regs ∨ (s.cm.state = .awaitingConfigData ∧ GoodBeatFor .cm s ∧
    ∃ v, t.regs = insertAt (regOffset s.cm.cmd.pa).toNat v s.regs)

/-- Parts of a tick before the data phases that touch no storage, no machine and no beat can be put in front. -/
theorem WritesByDataPhase.after_same {s w t : State} (h : WritesByDataPhase w t) (hsame : SameStorage s w)
    (hbeat : w.inp.cmdData = s.inp.cmdData) : WritesByDataPhase s t := by
  obtain ⟨hmem, hregs⟩ := h
  obtain ⟨hm, hr, hpm, hcm, hrdq, -⟩ := hsame
  simp only [GoodBeatFor, windowBytes, hm, hpm, hrdq, hbeat] at hmem
  simp only [GoodBeatFor, hr, hcm, hrdq, hbeat] at hregs
  exact ⟨hmem, hregs⟩

/-! ### Phase 5 -/

theorem delivery_eq_some_iff {m : MachineId} {s : State} :
    delivery s = some m ↔ s.inp.cmdData.valid = true ∧ s.rdq.head? = some m := by
  simp [delivery]

/-- Emission leaves the order queue and the inputs, so a delivered beat is valid and its machine at the head when phase 5 begins. -/
theorem goodBeatFor_of_tickDelivery {m : MachineId} {s : State} (h : tickDelivery s = some m)
    (hgood : s.inp.cmdData.body.bad = false) : GoodBeatFor m s := by
  obtain ⟨-, -, hrdq, -, -, -, -, hinp⟩ := emitResponses_storage s
  obtain ⟨hvalid, hhead⟩ := delivery_eq_some_iff.1 h
  exact ⟨hrdq ▸ hhead, hinp ▸ hvalid, hgood⟩

/-- Up to the command unit, phase 5 leaves the registers, the inputs and what the configuration machine waits with. -/
theorem beforeCommand_keeps (s : State) : (beforeCommand s).regs = s.regs ∧ (beforeCommand s).inp = s.inp ∧
    (beforeCommand s).cm.state = s.cm.state ∧ (beforeCommand s).cm.cmd = s.cm.cmd := by
  obtain ⟨-, hregs, -, -, hcmd, hstate, -, hinp⟩ := emitResponses_storage s
  obtain ⟨-, hregs', -, hcm', hinp'⟩ := dispatchData_storage (emitResponses s)
  obtain ⟨hregs'', hcm'', hinp'', -⟩ := stepPm_storage (tickDelivery s) (dispatchData (emitResponses s))
  have hcm : (beforeCommand s).cm = (emitResponses s).cm := hcm''.trans hcm'
  exact ⟨hregs''.trans (hregs'.trans hregs), hinp''.trans (hinp'.trans hinp), by rw [hcm, hstate], by rw [hcm, hcmd]⟩

/-- Up to the command unit, phase 5 writes the memory only in the partial machine's data phase. -/
theorem beforeCommand_mem (s : State) : (beforeCommand s).mem = s.mem ∨ (s.pm.state = .awaitingData ∧ GoodBeatFor .pm s ∧
    (beforeCommand s).mem = writeBytes s.pm.cmd.addr (windowBytes s) s.mem) := by
  obtain ⟨hmem, -, -, hcmd, -, -, hwaits, hinp⟩ := emitResponses_storage s
  obtain ⟨hmem', -, hpm', -, hinp'⟩ := dispatchData_storage (emitResponses s)
  obtain ⟨-, -, -, hsame | ⟨hdelivered, hawaits, hgood, hwritten⟩⟩ :=
    stepPm_storage (tickDelivery s) (dispatchData (emitResponses s))
  · exact .inl (hsame.trans (hmem'.trans hmem))
  · rw [hinp', hinp] at hgood
    rw [hpm'] at hawaits
    rw [hpm', hcmd, hinp', hinp, hmem', hmem] at hwritten
    exact .inr ⟨hwaits hawaits, goodBeatFor_of_tickDelivery hdelivered hgood, hwritten⟩

theorem sequencer_writesByDataPhase {s t : State} (h : sequencer s = .next t) : WritesByDataPhase s t := by
  obtain ⟨u, v, hcommand, hconfig, hsequencer, -⟩ := sequencer_next s
  rw [hsequencer] at h
  cases h
  obtain ⟨hregs, hinp, hstate, hcmd⟩ := beforeCommand_keeps s
  obtain ⟨humem, huregs, hucm, huinp⟩ := commandUnit_storage hcommand
  obtain ⟨hcmem, hcregs⟩ := stepCm_storage (tickDelivery s) u
  obtain ⟨hvmem, hvregs⟩ := configUnit_storage hconfig
  refine ⟨?mem, ?regs⟩
  case mem =>
    rw [hvmem.trans (hcmem.trans humem)]
    exact beforeCommand_mem s
  case regs =>
    rw [hvregs]
    rw [hucm, huinp, huregs, hinp, hregs, hstate, hcmd] at hcregs
    exact hcregs.imp_right fun ⟨hdelivered, hawaits, hgood, hwritten⟩ =>
      ⟨hawaits, goodBeatFor_of_tickDelivery hdelivered hgood, hwritten⟩

/-! ### The tick and the step -/

theorem Within.cmdData {s t : State} (h : Within s t) : t.inp.cmdData = s.inp.cmdData :=
  (congrArg TickInput.cmdData h.inp :)

theorem endTick_storage (s : State) : (endTick s).mem = s.mem ∧ (endTick s).regs = s.regs := by
  obtain ⟨hmem, hregs⟩ := creditReturns_storage (lifecycleStep (arbiter s))
  obtain ⟨hmem', hregs'⟩ := arbiter_storage s
  exact ⟨hmem.trans hmem', hregs.trans hregs'⟩

/-- Of the phases of a full tick, phase 5 alone writes the storage; the requests and the router before it also leave the machines and
the beat. -/
theorem fullTick_writesByDataPhase {s t : State} (h : fullTick s = .next t) : WritesByDataPhase (beginTick s) t := by
  obtain ⟨u, v, hrequests, hwithin, hsequencer, -, hfull⟩ := fullTick_next s
  rw [hfull] at h
  cases h
  obtain ⟨hendMem, hendRegs⟩ := endTick_storage v
  obtain ⟨hmem, hregs⟩ := sequencer_writesByDataPhase hsequencer
  have hphases : WritesByDataPhase (router u) (endTick v) := ⟨by rwa [hendMem], by rwa [hendRegs]⟩
  exact hphases.after_same ((runRequests_storage _ _ _ hrequests).trans (router_storage u))
    (hwithin.trans (router_within u)).cmdData

@[simp] theorem beginTick_mem (s : State) : (beginTick s).mem = s.mem := by rw [beginTick_eq]
@[simp] theorem beginTick_regs (s : State) : (beginTick s).regs = s.regs := by rw [beginTick_eq]
@[simp] theorem beginTick_pm (s : State) : (beginTick s).pm = s.pm := by rw [beginTick_eq]
@[simp] theorem beginTick_cm (s : State) : (beginTick s).cm = s.cm := by rw [beginTick_eq]
@[simp] theorem beginTick_rdq (s : State) : (beginTick s).rdq = s.rdq := by rw [beginTick_eq]
@[simp] theorem beginTick_inp (s : State) : (beginTick s).inp = cleanInput s.inp := by rw [beginTick_eq]

/-- A beat that is good after the X/Z check came valid, unflagged and good with the tick (R364). -/
theorem goodBeatFor_beginTick {m : MachineId} {s : State} (h : GoodBeatFor m (beginTick (takeInput s))) :
    s.rdq.head? = some m ∧ (nextInput s).cmdData.valid = true ∧ (nextInput s).xz.cmdData = false ∧
    (nextInput s).cmdData.body.bad = false := by
  simpa [GoodBeatFor, cleanInput, maskXz, and_assoc] using h

/-- The X/Z check drops a flagged beat's valid flag and leaves its bytes (R364), so the window is of the beat as it came. -/
theorem windowBytes_beginTick (s : State) : windowBytes (beginTick (takeInput s)) =
    extractBytes (nextInput s).cmdData.body.data s.pm.cmd.off.toNat s.pm.cmd.len := by
  simp [windowBytes, cleanInput, maskXz]

theorem closeSession_storage (s : State) : (closeSession s).mem = s.mem ∧ (closeSession s).regs = s.regs := by
  unfold closeSession
  cases s.inp.tfault with
  | none => exact ⟨rfl, rfl⟩
  | some f => exact ⟨logFault_mem (transportKind f) .transport s, logFault_regs (transportKind f) .transport s⟩

/-- A step leaves the storage the tick found, or it is a full tick and a data phase writes it. -/
theorem step_storage {s t : State} (h : step s = .next t) : (t.mem = (takeInput s).mem ∧ t.regs = (takeInput s).regs) ∨
    WritesByDataPhase (beginTick (takeInput s)) t := by
  obtain ⟨-, ⟨-, rfl⟩ | ⟨-, -, rfl⟩ | ⟨-, -, -, rfl⟩ | ⟨-, hfull⟩⟩ := step_cases h
  · exact .inl ⟨rfl, rfl⟩
  · exact .inl ⟨rfl, rfl⟩
  · exact .inl (closeSession_storage _)
  · exact .inr (fullTick_writesByDataPhase hfull)

/-! ### The bytes and words changed -/

/-- A byte that writing a run of bytes changes lies in the run and is the byte of its place. -/
theorem byteAt_writeBytes_changed {m : List Host.Cell} {addr a : BitVec 64} {bs : List Byte} (hlen : bs.length ≤ 2 ^ 64)
    (h : byteAt (writeBytes addr bs m) a ≠ byteAt m a) :
    ∃ i < bs.length, a = addr + BitVec.ofNat 64 i ∧ byteAt (writeBytes addr bs m) a = bs.getD i 0 := by
  by_contra hnone
  refine h (byteAt_writeBytes_outside m addr a bs fun i hi ha => hnone ⟨i, hi, ha, ?_⟩)
  rw [ha]
  exact byteAt_writeBytes_inside m addr bs hlen hi

/-- The word that one register write changes is the one written. -/
theorem wordAt_insertAt_changed {g : Store Word} {off o v : Word} (h : wordAt (insertAt off.toNat v g) o ≠ wordAt g o) :
    o = off := by
  by_contra hne
  exact h (wordAt_insertAt_ne hne g v)

/-- The window of a waiting partial machine is within one beat (R232). -/
theorem Sound.pm_len_le {s : State} (h : Sound s) (hwaits : s.pm.state = .awaitingData) : s.pm.cmd.len ≤ 64 := by
  obtain ⟨-, -, -, -, hcmd⟩ := h.pm
  obtain ⟨-, -, hwindow⟩ := hcmd (by simp [hwaits])
  omega

/-- A byte of memory that a data phase of the next tick changes lies in the latched window and is the beat's byte of that place. -/
theorem WritesByDataPhase.byte_changed {s t : State} (h : WritesByDataPhase (beginTick (takeInput s)) t) (hsound : Sound s)
    {a : BitVec 64} (ha : byteAt t.mem a ≠ byteAt (takeInput s).mem a) :
    s.pm.state = .awaitingData ∧ GoodBeatFor .pm (beginTick (takeInput s)) ∧
    ∃ i < s.pm.cmd.len, a = s.pm.cmd.addr + BitVec.ofNat 64 i ∧
      byteAt t.mem a = beatByte (nextInput s).cmdData.body.data (s.pm.cmd.off.toNat + i) := by
  have hmem := h.mem
  simp only [beginTick_mem, beginTick_pm, takeInput_pm, windowBytes_beginTick] at hmem
  obtain hmem | ⟨hwaits, hbeat, hmem⟩ := hmem
  · exact absurd (by rw [hmem]) ha
  · rw [hmem] at ha ⊢
    have hwindow := hsound.pm_len_le hwaits
    obtain ⟨i, hi, hplace, hbyte⟩ := byteAt_writeBytes_changed (by rw [length_extractBytes]; omega) ha
    rw [length_extractBytes] at hi
    exact ⟨hwaits, hbeat, i, hi, hplace, hbyte.trans (getD_extractBytes _ _ hi)⟩

/-- A register that a data phase of the next tick changes is the one addressed. -/
theorem WritesByDataPhase.word_changed {s t : State} (h : WritesByDataPhase (beginTick (takeInput s)) t) {o : Word}
    (ho : wordAt t.regs o ≠ wordAt (takeInput s).regs o) :
    s.cm.state = .awaitingConfigData ∧ GoodBeatFor .cm (beginTick (takeInput s)) ∧ o = regOffset s.cm.cmd.pa := by
  have hregs := h.regs
  simp only [beginTick_regs, beginTick_cm, takeInput_cm] at hregs
  obtain hregs | ⟨hwaits, hbeat, v, hregs⟩ := hregs
  · exact absurd (by rw [hregs]) ho
  · rw [hregs] at ho
    exact ⟨hwaits, hbeat, wordAt_insertAt_changed ho⟩

/-- Settles O55: a step changes storage in a data phase of a full tick or not at all. -/
theorem storageChangesOnlyByADataPhase : Obligations.StorageChangesOnlyByADataPhase := by
  intro s t hsound hstep
  obtain ⟨hmem, hregs⟩ | hwrites := step_storage hstep
  · exact ⟨fun a ha => absurd (by rw [hmem]) ha, fun o ho => absurd (by rw [hregs]) ho⟩
  · refine ⟨fun a ha => ?memory, fun o ho => ?register⟩
    case memory =>
      obtain ⟨hwaits, hbeat, hbyte⟩ := hwrites.byte_changed hsound ha
      obtain ⟨hhead, hvalid, hflag, hgood⟩ := goodBeatFor_beginTick hbeat
      exact ⟨hwaits, hhead, hvalid, hflag, hgood, hbyte⟩
    case register =>
      obtain ⟨hwaits, hbeat, hoffset⟩ := hwrites.word_changed ho
      obtain ⟨hhead, hvalid, hflag, hgood⟩ := goodBeatFor_beginTick hbeat
      exact ⟨hwaits, hhead, hvalid, hflag, hgood, hoffset⟩

end Sys2Proof.Machine

/-! O1, O2 and O3: a request decodes to an instruction exactly when it spells it. The decoder is inverted once, row by row, and the
table read by division is tied to the fields the decoder extracts. -/

namespace Sys2Proof.Machine

/-! ### Fields as arithmetic (R121) -/

theorem toNat_fieldOp (w : Word) : (fieldOp w).toNat = w.toNat / 2 ^ 26 := by
  rw [fieldOp, BitVec.extractLsb'_toNat, Nat.shiftRight_eq_div_pow]
  omega

theorem toNat_fieldK (w : Word) : (fieldK w).toNat = w.toNat / 2 ^ 24 % 4 := by
  rw [fieldK, BitVec.extractLsb'_toNat, Nat.shiftRight_eq_div_pow]

theorem toNat_fieldA (w : Word) : (fieldA w).toNat = w.toNat / 2 ^ 16 % 256 := by
  rw [fieldA, BitVec.extractLsb'_toNat, Nat.shiftRight_eq_div_pow]

theorem toNat_fieldB (w : Word) : (fieldB w).toNat = w.toNat % 2 ^ 16 := by
  rw [fieldB, BitVec.extractLsb'_toNat, Nat.shiftRight_zero]

/-- Four fields spell a word exactly when they are its fields. `OP` is compared by its number, as the decoder does. -/
theorem wordOf_eq_iff {op : BitVec 6} {k : BitVec 2} {a : BitVec 8} {b : BitVec 16} {w : Word} :
    wordOf op k a b = w ↔ (fieldOp w).toNat = op.toNat ∧ fieldK w = k ∧ fieldA w = a ∧ fieldB w = b := by
  constructor
  · rintro rfl
    simp
  · rintro ⟨hop, rfl, rfl, rfl⟩
    rw [← BitVec.eq_of_toNat_eq hop, wordOf_fields]

/-! ### What spells an instruction -/

/-- The record of the data operand that a `BT.DRIVE` of a signal reads (R345), masked to its widths (R78). -/
def drivenPayload (c : Config) (o : Operand) : Signal → DrivePayload
  | .cmdV => .cmd (maskCmd c o.cmd)
  | .cmdDataV => .cmdData o.data
  | .respV => .resp o.resp
  | .respDataV => .respData o.data

@[simp] theorem drivenPayload_signal (c : Config) (o : Operand) (sig : Signal) : (drivenPayload c o sig).signal = sig := by
  cases sig <;> rfl

theorem wellFormed_drivenPayload (c : Config) (o : Operand) (sig : Signal) :
    WellFormed c (.btDrive (drivenPayload c o sig)) = true := by
  cases sig with
  | cmdV => exact maskCmd_fits c o.cmd
  | cmdDataV => rfl
  | respV => rfl
  | respDataV => rfl

/-- What an instruction takes from the data operand beside its word: an enqueue the beats its count fixes (R125), a drive the record of
its signal (R345), the others nothing; no request is an inbound command (R110). -/
def ReadsOperand (c : Config) (o : Operand) : Instr → Prop
  | .dfEnqueue _ n data => takeBeats n.toNat o.beats = data
  | .btDrive p => drivenPayload c o p.signal = p
  | .prRdMem _ _ _ => False
  | .prWrMem _ _ _ => False
  | .configRead _ _ _ => False
  | .configWrite _ _ _ => False
  | _ => True

/-- A request spells an instruction under a configuration. -/
structure Spells (c : Config) (q : Request) (i : Instr) : Prop where
  wellFormed : WellFormed c i = true
  word : encodeWord i = q.word
  operand : ReadsOperand c q.operand i

/-! ### The decoder inverted -/

@[simp] theorem accept_eq_ok_iff {ok : Bool} {why : Reject} {d : Except Reject Instr} {i : Instr} :
    accept ok why d = .ok i ↔ ok = true ∧ d = .ok i := by
  cases ok <;> simp [accept]

theorem decodeRequest_btDrive {c : Config} {q : Request} (hop : (fieldOp q.word).toNat = 0x18) :
    decodeRequest c q = accept (decide (fieldA q.word = 0) && decide (fieldB q.word = 0)) .reservedField
      (.ok (.btDrive (drivenPayload c q.operand (signalOfCode (fieldK q.word))))) := by
  simp only [decodeRequest, hop]
  rfl

/-- The decoder reads back the fields the encoder wrote: `OP` selects the row, and the row's checks pass. -/
theorem decodeRequest_of_spells {c : Config} {q : Request} {i : Instr} (h : Spells c q i) : decodeRequest c q = .ok i := by
  obtain ⟨w, o⟩ := q
  obtain ⟨hwf, rfl, ho⟩ := h
  cases i with
  | btDrive p =>
    rw [decodeRequest_btDrive (by simp [encodeWord])]
    simpa [encodeWord, ReadsOperand] using ho
  | dfStream k x => cases k <;> simp_all [decodeRequest, encodeWord, WellFormed, codeOfKind, kindOfData]
  | _ => simp_all [decodeRequest, encodeWord, ReadsOperand, WellFormed]

/-- In each row the checks passed are the fields of the word and the ranges of the operands. -/
theorem spells_of_decodeRequest {c : Config} {q : Request} {i : Instr} (h : decodeRequest c q = .ok i) : Spells c q i := by
  simp only [decodeRequest] at h
  split at h <;> simp only [accept_eq_ok_iff, Bool.and_eq_true, decide_eq_true_eq, Except.ok.injEq, reduceCtorEq] at h
  case h_1 hop => -- NOP
    obtain ⟨⟨⟨hk, ha⟩, hb⟩, rfl⟩ := h
    exact ⟨rfl, wordOf_eq_iff.2 ⟨hop, hk, ha, hb⟩, trivial⟩
  case h_2 hop => -- CR.NEGOTIATE
    obtain ⟨ha, rfl⟩ := h
    exact ⟨rfl, wordOf_eq_iff.2 ⟨hop, (codeOfKind_kindOfCode _).symm, ha, (fieldLocal_append_fieldPeer _).symm⟩, trivial⟩
  case h_3 hop | h_4 hop | h_5 hop => -- CR.TRY_ISSUE, CR.RETURN, CR.READ
    obtain ⟨⟨ha, hb⟩, rfl⟩ := h
    exact ⟨rfl, wordOf_eq_iff.2 ⟨hop, (codeOfKind_kindOfCode _).symm, ha, hb⟩, trivial⟩
  case h_6 hop => -- TG.ALLOCATE
    obtain ⟨⟨hk, hb⟩, hr, rfl⟩ := h
    exact ⟨hr, wordOf_eq_iff.2 ⟨hop, hk, rfl, hb⟩, trivial⟩
  case h_7 hop | h_8 hop => -- TG.RESOLVE, TG.RELEASE
    obtain ⟨⟨hk, ha⟩, rfl⟩ := h
    exact ⟨rfl, wordOf_eq_iff.2 ⟨hop, hk, ha, rfl⟩, trivial⟩
  case h_9 hop => -- DF.ENQUEUE
    obtain ⟨hk, hx, rfl⟩ := h
    exact ⟨by simp [WellFormed, hx], wordOf_eq_iff.2 ⟨hop, hk, rfl, rfl⟩, rfl⟩
  case h_10 hop => -- DF.DRAIN
    obtain ⟨hk, hx, rfl⟩ := h
    exact ⟨hx, wordOf_eq_iff.2 ⟨hop, hk, rfl, rfl⟩, trivial⟩
  case h_11 hop => -- DF.STREAM
    obtain ⟨hb, hx, hstream⟩ := h
    split at hstream
    case isTrue hk =>
      cases hstream
      exact ⟨hx, wordOf_eq_iff.2 ⟨hop, hk, rfl, hb⟩, trivial⟩
    case isFalse =>
      split at hstream
      case isTrue hk =>
        cases hstream
        exact ⟨hx, wordOf_eq_iff.2 ⟨hop, hk, rfl, hb⟩, trivial⟩
      case isFalse => cases hstream
  case h_12 hop => -- DF.COUNT
    obtain ⟨⟨hk, hb⟩, hx, rfl⟩ := h
    exact ⟨hx, wordOf_eq_iff.2 ⟨hop, hk, rfl, hb⟩, trivial⟩
  case h_13 hop => -- BT.DRIVE
    obtain ⟨⟨ha, hb⟩, rfl⟩ := h
    change Spells c q (.btDrive (drivenPayload c q.operand (signalOfCode (fieldK q.word))))
    exact ⟨wellFormed_drivenPayload _ _ _, wordOf_eq_iff.2 ⟨hop, by simp, ha, hb⟩, by simp [ReadsOperand]⟩
  case h_14 hop => -- BT.READ
    obtain ⟨⟨ha, hb⟩, rfl⟩ := h
    exact ⟨rfl, wordOf_eq_iff.2 ⟨hop, (codeOfSignal_signalOfCode _).symm, ha, hb⟩, trivial⟩

/-- Settles O2: the inversion of the decoder gives both parts. -/
theorem decodedRequestSpellsItsWord : Obligations.DecodedRequestSpellsItsWord := by
  intro c q i h
  obtain ⟨hwf, hword, -⟩ := spells_of_decodeRequest h
  exact ⟨hwf, hword⟩

/-! ### The round trip -/

/-- A command record that fits its widths is left as it is by the masking of a drive (R78). -/
theorem readsOperand_encodeOperand_btDrive {c : Config} {p : DrivePayload} (h : WellFormed c (.btDrive p) = true) :
    ReadsOperand c (encodeOperand (.btDrive p)) (.btDrive p) := by
  cases p with
  | cmd r => exact congrArg DrivePayload.cmd (of_decide_eq_true h)
  | cmdData r => rfl
  | resp r => rfl
  | respData r => rfl

theorem decodeRequest_encode {c : Config} {i : Instr} (h : WellFormed c i = true) (ho : ReadsOperand c (encodeOperand i) i) :
    decodeRequest c ⟨encodeWord i, encodeOperand i⟩ = .ok i :=
  decodeRequest_of_spells ⟨h, rfl, ho⟩

/-- Settles O1: a request-port operation is spelt by its word and operand, and an inbound command has its opcode's class in the
default table. -/
theorem decodeEncodeRoundTrip : Obligations.DecodeEncodeRoundTrip := by
  intro c i hclassify h
  cases i with
  | prRdMem ea tag pl => simp [decode, encode, decodeCommand, classify, hclassify, defaultClassify]
  | prWrMem ea tag pl => simp [decode, encode, decodeCommand, classify, hclassify, defaultClassify]
  | configRead pa tag pl => simp [decode, encode, decodeConfig, classify, hclassify, defaultClassify]
  | configWrite pa tag pl => simp [decode, encode, decodeConfig, classify, hclassify, defaultClassify]
  | btDrive p => exact decodeRequest_encode h (readsOperand_encodeOperand_btDrive h)
  | dfEnqueue x n data =>
    obtain ⟨-, hlength⟩ := Bool.and_eq_true_iff.1 h
    exact decodeRequest_encode h (takeBeats_of_length (of_decide_eq_true hlength))
  | _ => exact (decodeRequest_encode h trivial :)

/-! ### The rows of the table -/

theorem legalRequester_iff {c : Config} {r : BitVec 8} :
    legalRequester c r = true ↔ r.toNat < c.nCtx ∨ 0xF0 ≤ r.toNat := by
  simp [legalRequester]

/-- The rows read by the decoder's fields and range checks instead of by division. -/
theorem operationWord_iff {c : Config} {w : Word} : OperationWord c w ↔
    (fieldOp w).toNat = 0x00 ∧ fieldK w = 0 ∧ fieldA w = 0 ∧ fieldB w = 0 ∨
    (fieldOp w).toNat = 0x01 ∧ fieldA w = 0 ∨
    ((fieldOp w).toNat = 0x02 ∨ (fieldOp w).toNat = 0x03 ∨ (fieldOp w).toNat = 0x04) ∧ fieldA w = 0 ∧ fieldB w = 0 ∨
    (fieldOp w).toNat = 0x08 ∧ fieldK w = 0 ∧ fieldB w = 0 ∧ legalRequester c (fieldA w) = true ∨
    ((fieldOp w).toNat = 0x09 ∨ (fieldOp w).toNat = 0x0A) ∧ fieldK w = 0 ∧ fieldA w = 0 ∨
    ((fieldOp w).toNat = 0x10 ∨ (fieldOp w).toNat = 0x11) ∧ fieldK w = 0 ∧ legalXfer c (fieldA w) = true ∨
    (fieldOp w).toNat = 0x12 ∧ (fieldK w = 1 ∨ fieldK w = 3) ∧ fieldB w = 0 ∧ legalXfer c (fieldA w) = true ∨
    (fieldOp w).toNat = 0x13 ∧ fieldK w = 0 ∧ fieldB w = 0 ∧ legalXfer c (fieldA w) = true ∨
    ((fieldOp w).toNat = 0x18 ∨ (fieldOp w).toNat = 0x19) ∧ fieldA w = 0 ∧ fieldB w = 0 := by
  simp only [OperationWord, ← toNat_fieldOp, ← toNat_fieldK, ← toNat_fieldA, ← toNat_fieldB, legalXfer_iff,
    legalRequester_iff, ← BitVec.toNat_inj]
  exact Iff.rfl

theorem Spells.operationWord {c : Config} {q : Request} {i : Instr} (h : Spells c q i) : OperationWord c q.word := by
  obtain ⟨hwf, hword, ho⟩ := h
  rw [← hword, operationWord_iff]
  cases i with
  | prRdMem ea tag pl => cases ho
  | prWrMem ea tag pl => cases ho
  | configRead pa tag pl => cases ho
  | configWrite pa tag pl => cases ho
  | tgAllocate r => simpa [encodeWord, WellFormed] using hwf
  | dfEnqueue x n data =>
    obtain ⟨hx, -⟩ := Bool.and_eq_true_iff.1 hwf
    simp [encodeWord, hx]
  | dfDrain x n => simpa [encodeWord, WellFormed] using hwf
  | dfStream k x => cases k <;> simpa [encodeWord, codeOfKind, kindOfData, WellFormed] using hwf
  | dfCount x => simpa [encodeWord, WellFormed] using hwf
  | _ => simp [encodeWord]

/-- A word that matches a row passes that row's checks, and no check of another row is made. -/
theorem decodes_of_operationWord {c : Config} {q : Request} (h : OperationWord c q.word) :
    ∃ i, decodeRequest c q = .ok i := by
  rw [operationWord_iff] at h
  obtain ⟨hop, hk, ha, hb⟩ | ⟨hop, ha⟩ | ⟨hop | hop | hop, ha, hb⟩ | ⟨hop, hk, hb, hr⟩ | ⟨hop | hop, hk, ha⟩ |
    ⟨hop | hop, hk, hx⟩ | ⟨hop, hk | hk, hb, hx⟩ | ⟨hop, hk, hb, hx⟩ | ⟨hop | hop, ha, hb⟩ := h
  all_goals simp [decodeRequest, *]

/-- Settles O3: what a request decodes to is spelt by its word, which then matches the instruction's row; conversely the checks of
the row a word matches all pass. -/
theorem legalWordsAreTheTable : Obligations.LegalWordsAreTheTable :=
  fun _ _ => ⟨fun ⟨_, h⟩ => (spells_of_decodeRequest h).operationWord, decodes_of_operationWord⟩

/-- Settles O5: the decoder evaluated on each word and unit. -/
theorem writtenOutWordsDecode : Obligations.WrittenOutWordsDecode :=
  ⟨rfl, rfl, rfl, rfl, rfl, rfl, rfl, rfl, rfl, rfl, rfl, rfl, rfl, rfl, rfl, rfl⟩

end Sys2Proof.Machine

/-! O4, O23 and O39: the requests that only answer, with a fault or with a status. -/

namespace Sys2Proof.Machine

/-! ### Illegal requests (R123) -/

theorem raiseIllegal_frame (s : State) : ∃ t, raiseIllegal s = .next t ∧ Answered (.fault .illegalRequest) s t ∧
    Logged .illegalRequest .req s t ∧ RequestFrame s t ∧ KeepsPools s t ∧ KeepsTags s t ∧ KeepsQueues s t ∧
    KeepsSignals s t := by
  obtain ⟨hframe, hpools, htags, hqueues, hsignals, hlogged, hanswered⟩ :=
    raise_frame (s := s) (.fault .illegalRequest) .illegalRequest .req rfl
  exact ⟨_, raiseIllegal_eq s, hanswered, hlogged, hframe, hpools, htags, hqueues, hsignals⟩

theorem runRequest_of_not_operationWord {q : Request} {s : State} (h : ¬ OperationWord s.cfg q.word) :
    runRequest q s = raiseIllegal s := by
  unfold runRequest
  split
  case h_1 i hi => exact absurd (spells_of_decodeRequest hi).operationWord h
  case h_2 => rfl

/-- Settles O4: a word that matches no row decodes to nothing, and the request is raised as illegal. -/
theorem illegalWordChangesNothing : Obligations.IllegalWordChangesNothing := by
  intro q s h
  rw [runRequest_of_not_operationWord h]
  exact raiseIllegal_frame s

/-- Settles O39: the range check is the first that each of the four operations makes. -/
theorem transferContextOutOfRangeIsIllegal : Obligations.TransferContextOutOfRangeIsIllegal := by
  intro x n data k i s hx hi
  have hillegal : ¬ legalXfer s.cfg x = true := by rw [legalXfer_iff]; omega
  have hexec : exec i s = raiseIllegal s := by
    obtain rfl | rfl | rfl | rfl := hi
    all_goals exact if_neg hillegal
  rw [hexec]
  exact raiseIllegal_frame s

/-! ### Status words (R145, R346) -/

theorem toNat_append_byte {n : Nat} (v : BitVec n) (b : Byte) : (v ++ b).toNat = v.toNat * 256 + b.toNat := by
  rw [BitVec.toNat_append, ← Nat.shiftLeft_add_eq_or_of_lt b.isLt, Nat.shiftLeft_eq]

theorem creditStatus_toNat (p : Pool) :
    (creditStatus p).toNat = p.negotiated.toNat * 65536 + p.initial.toNat * 256 + p.avail.toNat := by
  rw [creditStatus, BitVec.toNat_setWidth_of_le (by decide)]
  simp only [toNat_append_byte, BitVec.toNat_ofBool]
  omega

theorem signalStatus_toNat (n : Nat) : (signalStatus n).toNat = (if 0 < n then 256 else 0) + n % 256 := by
  rw [signalStatus, BitVec.toNat_setWidth_of_le (by decide)]
  simp only [toNat_append_byte, BitVec.toNat_ofBool, BitVec.toNat_ofNat]
  by_cases h : 0 < n <;> simp [h]

/-- Settles O23: each of the four only gives its result; a status word is read as a number. -/
theorem statusReadsWriteNothing : Obligations.StatusReadsWriteNothing := by
  intro s i r h
  have hexec : exec i s = .next (giveResult r s) := by
    obtain ⟨rfl, rfl⟩ | ⟨k, rfl, rfl⟩ | ⟨x, hx, rfl, rfl⟩ | ⟨g, rfl, rfl⟩ := h
    · rfl
    · rw [← creditStatus_toNat]; rfl
    · exact if_pos (legalXfer_iff.2 hx)
    · rw [← signalStatus_toNat]; rfl
  obtain ⟨hframe, hpools, htags, hqueues, hsignals, hlogged, hanswered⟩ := answer_frame (s := s) r rfl
  exact ⟨_, hexec, hanswered, hlogged, hframe, hpools, htags, hqueues, hsignals⟩

end Sys2Proof.Machine

/-! O24, O25 and O26: the requests of the credit manager that write a pool. -/

namespace Sys2Proof.Machine

/-- A request that changes pools and gives a result touches nothing else. -/
theorem poolRequest_frame (r : Result) (ps : Four Pool) (s : State) :
    RequestFrame s (giveResult r { s with pools := ps }) ∧ KeepsTags s (giveResult r { s with pools := ps }) ∧
    KeepsQueues s (giveResult r { s with pools := ps }) ∧ KeepsSignals s (giveResult r { s with pools := ps }) ∧
    NotLogged s (giveResult r { s with pools := ps }) ∧ Answered r s (giveResult r { s with pools := ps }) := by
  obtain ⟨⟨hsession, hmachines, hstorage⟩, -, htags, hqueues, hsignals, hlogged, hanswered⟩ := answer_frame (s := s) r rfl
  exact ⟨⟨hsession, hmachines, hstorage⟩, htags, hqueues, hsignals, hlogged, hanswered⟩

/-- A negotiation gives the smaller of the two counts, or the peer's (R140). -/
theorem negotiatedCount_spec (c : Config) (l p : BitVec 8) :
    (c.negotiateMode = .min → (negotiatedCount c l p).toNat = min l.toNat p.toNat) ∧
    (c.negotiateMode = .peer → negotiatedCount c l p = p) := by
  constructor
  · intro hmode
    rw [negotiatedCount, hmode]
    dsimp only
    split
    case isTrue hle => exact (Nat.min_eq_left hle).symm
    case isFalse hlt => exact (Nat.min_eq_right (Nat.le_of_not_le hlt)).symm
  · intro hmode
    rw [negotiatedCount, hmode]

theorem setPool_get_ne {k j : CreditKind} (h : j ≠ k) (n : BitVec 8) (s : State) :
    (setPool k n s).pools.get j = s.pools.get j :=
  Four.get_set_ne _ h _

theorem addCredit_get_ne {k j : CreditKind} (h : j ≠ k) (s : State) : (addCredit k s).pools.get j = s.pools.get j :=
  Four.get_set_ne _ h _

/-- A return raises `avail` by one, where the pool is not full. -/
theorem addCredit_avail {k : CreditKind} {s : State} (h : canReturn k s = true) :
    ((addCredit k s).pools.get k).avail.toNat = (s.pools.get k).avail.toNat + 1 := by
  rw [canReturn_iff] at h
  simp only [addCredit_pools, Four.get_set_self]
  have := (s.pools.get k).initial.isLt
  bv_omega

/-- Settles O24: the two branches of the negotiation, one that raises a fault and one that sets the pool. -/
theorem negotiateSetsThePoolOnce : Obligations.NegotiateSetsThePoolOnce := by
  intro k l p o s
  refine ⟨decodeRequest_of_spells ⟨rfl, rfl, trivial⟩, ?_⟩
  cases hn : (s.pools.get k).negotiated with
  | true =>
    obtain ⟨hframe, hpools, htags, hqueues, hsignals, hlogged, hanswered⟩ :=
      raise_frame (s := s) (.fault .renegotiateIgnored) .renegotiateIgnored .crNegotiate rfl
    exact ⟨_, if_pos hn, hframe, htags, hqueues, hsignals, fun j _ => hpools j, fun _ => ⟨hpools k, hanswered, hlogged⟩,
      nofun⟩
  | false =>
    obtain ⟨hframe, htags, hqueues, hsignals, hlogged, hanswered⟩ :=
      poolRequest_frame .ok (setPool k (negotiatedCount s.cfg l p) s).pools s
    have hpool : (setPool k (negotiatedCount s.cfg l p) s).pools.get k =
        ⟨negotiatedCount s.cfg l p, negotiatedCount s.cfg l p, true⟩ := Four.get_set_self _ _ _
    refine ⟨_, if_neg (by simp [hn]), hframe, htags, hqueues, hsignals, fun j hj => setPool_get_ne hj _ s, nofun,
      fun _ => ⟨hanswered, hlogged, ?_⟩⟩
    rw [giveResult_pools, hpool]
    exact ⟨rfl, rfl, negotiatedCount_spec s.cfg l p⟩

/-- Settles O25: with a credit the pool loses it, without one the request only answers. -/
theorem tryIssueTestsAndDecrements : Obligations.TryIssueTestsAndDecrements := by
  intro k o s
  refine ⟨decodeRequest_of_spells ⟨rfl, rfl, trivial⟩, ?_⟩
  by_cases hcredit : hasCredit k s = true
  · obtain ⟨hframe, htags, hqueues, hsignals, hlogged, hanswered⟩ :=
      poolRequest_frame .granted (takeCredit k s).pools s
    refine ⟨_, if_pos hcredit, hframe, htags, hqueues, hsignals, hlogged,
      fun _ => ⟨hanswered, tookCredit_takeCredit hcredit⟩, fun hzero => ?_⟩
    rw [hasCredit_iff] at hcredit
    omega
  · obtain ⟨hframe, hpools, htags, hqueues, hsignals, hlogged, hanswered⟩ := answer_frame (s := s) .denied rfl
    exact ⟨_, if_neg hcredit, hframe, htags, hqueues, hsignals, hlogged,
      fun hpos => absurd ((hasCredit_iff k s).2 hpos) hcredit, fun _ => ⟨hanswered, hpools⟩⟩

/-- Settles O26: below `initial` the pool gains a credit, at `initial` the request raises a fault. -/
theorem returnSaturatesAtInitial : Obligations.ReturnSaturatesAtInitial := by
  intro k o s
  refine ⟨decodeRequest_of_spells ⟨rfl, rfl, trivial⟩, ?_⟩
  by_cases hroom : canReturn k s = true
  · obtain ⟨hframe, htags, hqueues, hsignals, hlogged, hanswered⟩ := poolRequest_frame .ok (addCredit k s).pools s
    refine ⟨_, if_pos hroom, hframe, htags, hqueues, hsignals, fun j hj => addCredit_get_ne hj s, ?_, ?_,
      fun _ => ⟨hanswered, hlogged, addCredit_avail hroom⟩, fun hfull => ?_⟩
    · simp
    · simp
    · rw [canReturn_iff] at hroom
      omega
  · obtain ⟨hframe, hpools, htags, hqueues, hsignals, hlogged, hanswered⟩ :=
      raise_frame (s := s) (.fault .excessCreditReturn) .excessCreditReturn .crReturn rfl
    exact ⟨_, if_neg hroom, hframe, htags, hqueues, hsignals, fun j _ => hpools j, congrArg Pool.initial (hpools k),
      congrArg Pool.negotiated (hpools k), fun hlt => absurd ((canReturn_iff k s).2 hlt) hroom,
      fun _ => ⟨hanswered, hlogged, congrArg Pool.avail (hpools k)⟩⟩

end Sys2Proof.Machine

/-! O29: phase 8 in closed form. Each flag reads its own pool alone, so the four flags act on the pools the phase finds. -/

namespace Sys2Proof.Machine

/-- The pool of a kind after its inbound flag (R144). -/
def creditedPool (s : State) (k : CreditKind) : Pool :=
  if s.inp.ret.get k = true ∧ (s.pools.get k).avail.toNat < (s.pools.get k).initial.toNat
  then { s.pools.get k with avail := (s.pools.get k).avail + 1 } else s.pools.get k

/-- The records of the flags among the kinds `ks` that are set for a full pool. -/
def excessRecords (s : State) (ks : List CreditKind) : List Diag :=
  (ks.filter fun k => s.inp.ret.get k && decide ((s.pools.get k).initial.toNat ≤ (s.pools.get k).avail.toNat)).map
    fun _ => ⟨s.cycle, .ret, .excessCreditReturn⟩

theorem excessRecords_cons (s : State) (k : CreditKind) (ks : List CreditKind) :
    excessRecords s (k :: ks) = excessRecords s [k] ++ excessRecords s ks := by
  simp only [excessRecords, ← List.map_append, ← List.filter_append, List.singleton_append]

theorem Four.set_get {α : Type} (f : Four α) (k : CreditKind) : f.set k (f.get k) = f := by cases k <;> rfl

/-- One inbound flag credits its pool, or logs one record where the pool is full. -/
theorem inboundReturn_eq (k : CreditKind) (s : State) :
    inboundReturn k s = { s with
      pools := s.pools.set k (creditedPool s k), diag := s.diag ++ excessRecords s [k],
      out := { s.out with diag := s.out.diag ++ excessRecords s [k] } } := by
  unfold inboundReturn
  split
  case isTrue hflag =>
    split
    case isTrue hroom =>
      rw [canReturn_iff] at hroom
      simp [creditedPool, excessRecords, addCredit, hflag, hroom]
    case isFalse hfull =>
      rw [canReturn_iff] at hfull
      simp [creditedPool, excessRecords, logFault, hflag, hfull, Nat.le_of_not_lt hfull, Four.set_get]
  case isFalse hflag => simp [creditedPool, excessRecords, hflag, Four.set_get]

/-- Everything phase 8 does. -/
theorem creditReturns_eq (s : State) :
    creditReturns s = { s with
      pools := ⟨creditedPool s .cmd, creditedPool s .cmdData, creditedPool s .resp, creditedPool s .respData⟩
      diag := s.diag ++ excessRecords s [.cmd, .cmdData, .resp, .respData]
      out := { s.out with diag := s.out.diag ++ excessRecords s [.cmd, .cmdData, .resp, .respData] } } := by
  simp only [creditReturns, inboundReturn_eq, excessRecords_cons s _ (_ :: _), ← List.append_assoc]
  rfl

theorem creditReturns_pool (s : State) (k : CreditKind) : (creditReturns s).pools.get k = creditedPool s k := by
  rw [creditReturns_eq]
  cases k <;> rfl

@[simp] theorem creditReturns_res (s : State) : (creditReturns s).out.res = s.out.res := by rw [creditReturns_eq]

/-- A flag set for an empty pool that can hold a credit gives it one. -/
theorem creditedPool_of_empty {s : State} {k : CreditKind} (hflag : s.inp.ret.get k = true)
    (hempty : (s.pools.get k).avail = 0) (hroom : (s.pools.get k).initial ≠ 0) : (creditedPool s k).avail = 1 := by
  have hlt : (s.pools.get k).avail.toNat < (s.pools.get k).initial.toNat := by bv_omega
  rw [creditedPool, if_pos ⟨hflag, hlt⟩]
  simp [hempty]

/-- Settles O29: read off the closed form of phase 8. -/
theorem inboundFlagsReturnOneUnitEach : Obligations.InboundFlagsReturnOneUnitEach := by
  intro s
  refine ⟨creditReturns_pool s, ?_⟩
  rw [creditReturns_eq]
  exact ⟨rfl, rfl, rfl, ⟨rfl, rfl, rfl, rfl, rfl, rfl, rfl, rfl, rfl, rfl⟩, ⟨rfl, rfl, rfl, rfl⟩,
    ⟨fun _ => rfl, fun _ => rfl, rfl⟩, ⟨fun _ => rfl, rfl, rfl⟩, ⟨fun _ => rfl, fun _ => rfl⟩, rfl, rfl⟩

end Sys2Proof.Machine

/-! O27, O28 and O30: the pools over a whole step. What an instruction can make of the pools is said once, then carried through the
requests of a tick and the phases that follow them. -/

namespace Sys2Proof.Machine

/-! ### Instructions -/

/-- What an instruction can make of the pools of `s`: leave them, negotiate one, take a credit or return one (R140 to R143). -/
inductive PoolChange (s : State) : Instr → Four Pool → Prop
  | keep (i : Instr) : PoolChange s i s.pools
  | negotiate (k : CreditKind) (l p : BitVec 8) (h : (s.pools.get k).negotiated = false) :
      PoolChange s (.crNegotiate k l p) (setPool k (negotiatedCount s.cfg l p) s).pools
  | take (i : Instr) (k : CreditKind) (h : hasCredit k s = true) : PoolChange s i (takeCredit k s).pools
  | give (k : CreditKind) (h : canReturn k s = true) : PoolChange s (.crReturn k) (addCredit k s).pools

theorem PoolChange.of_eq {s t : State} {i : Instr} (h : t.pools = s.pools) : PoolChange s i t.pools := h ▸ .keep i

@[simp] theorem dequeue_pools (x : BitVec 8) (m : Nat) (s : State) : (dequeue x m s).pools = s.pools := by
  obtain ⟨f, d, h⟩ := dequeue_fields x m s
  rw [h]

theorem exec_poolChange {i : Instr} {s t : State} (h : exec i s = .next t) : PoolChange s i t.pools := by
  cases i with
  | crNegotiate k l p =>
    simp only [exec, execCrNegotiate] at h
    split at h <;> cases h
    next => exact .keep _
    next hn => exact .negotiate k l p (by simpa using hn)
  | crTryIssue k =>
    simp only [exec, execCrTryIssue] at h
    split at h <;> cases h
    next hcredit => exact .take _ k hcredit
    next => exact .keep _
  | crReturn k =>
    simp only [exec, execCrReturn] at h
    split at h <;> cases h
    next hroom => exact .give k hroom
    next => exact .keep _
  | dfStream k x =>
    simp only [exec, execDfStream] at h
    (repeat' split at h) <;> cases h
    case h_2.isTrue.isTrue.refl hcredit =>
      rw [giveResult_pools, drive_pools, dequeue_pools]
      exact .take _ (kindOfData k) hcredit
    all_goals exact .keep _
  | tgAllocate r =>
    simp only [exec, execTgAllocate] at h
    (repeat' split at h) <;> cases h
    next ha => exact .of_eq (allocate_same ha).1
    all_goals exact .keep _
  | dfDrain x n =>
    simp only [exec, execDfDrain] at h
    split at h <;> cases h
    next => exact .of_eq (by rw [giveResult_pools]; split <;> simp)
    next => exact .keep _
  | btDrive p =>
    simp only [exec, execBtDrive] at h
    split at h <;> cases h
    next => exact .of_eq (drive_pools p s)
    next => exact .keep _
  | dfEnqueue x n data =>
    simp only [exec, execDfEnqueue] at h
    (repeat' split at h) <;> cases h <;> exact .keep _
  | nop | crRead k | btRead g => cases h; exact .keep _
  | tgResolve n | tgRelease n | dfCount x =>
    simp only [exec, execTgResolve, execTgRelease, execDfCount] at h
    split at h <;> cases h <;> exact .keep _
  | prRdMem ea tag pl | prWrMem ea tag pl | configRead ea tag pl | configWrite ea tag pl =>
    simp only [exec, execPrRdMem, execPrWrMem, execConfigRead, execConfigWrite] at h
    split at h <;> cases h <;> exact .keep _

/-- From `s` to `t` the initial count and the negotiated mark of a pool are kept (R141). -/
def KeepsCounts (k : CreditKind) (s t : State) : Prop :=
  (t.pools.get k).initial = (s.pools.get k).initial ∧ (t.pools.get k).negotiated = (s.pools.get k).negotiated

theorem KeepsCounts.of_pool_eq {k : CreditKind} {s t : State} (h : t.pools.get k = s.pools.get k) : KeepsCounts k s t :=
  ⟨congrArg Pool.initial h, congrArg Pool.negotiated h⟩

theorem KeepsCounts.trans {k : CreditKind} {s t u : State} (hst : KeepsCounts k s t) (htu : KeepsCounts k t u) :
    KeepsCounts k s u :=
  ⟨htu.1.trans hst.1, htu.2.trans hst.2⟩

/-- A change of one pool's `avail` keeps the counts of every pool. -/
theorem setAvail_keepsCounts (k j : CreditKind) (n : BitVec 8) (s : State) :
    KeepsCounts k s { s with pools := s.pools.set j { s.pools.get j with avail := n } } := by
  by_cases hj : k = j
  · subst hj
    simp [KeepsCounts]
  · exact .of_pool_eq (Four.get_set_ne _ hj _)

/-- Only a negotiation of a pool not yet negotiated changes what `KeepsCounts` keeps. -/
theorem exec_keepsCounts {i : Instr} {k : CreditKind} {s t : State} (h : exec i s = .next t)
    (hi : (s.pools.get k).negotiated = true ∨ ∀ l p, i ≠ .crNegotiate k l p) : KeepsCounts k s t := by
  unfold KeepsCounts
  generalize hps : t.pools = ps
  cases hps ▸ exec_poolChange h with
  | keep => exact ⟨rfl, rfl⟩
  | negotiate j l p hn =>
    have hj : k ≠ j := by
      rintro rfl
      rcases hi with hi | hi
      · simp [hn] at hi
      · exact hi l p rfl
    rw [setPool_get_ne hj]
    exact ⟨rfl, rfl⟩
  | take _ j => exact setAvail_keepsCounts k j _ s
  | give j => exact setAvail_keepsCounts k j _ s

/-- An empty pool stays empty but for a return or a negotiation of its kind. -/
theorem exec_keepsEmpty {i : Instr} {k : CreditKind} {s t : State} (h : exec i s = .next t)
    (hempty : (s.pools.get k).avail = 0) (hreturn : i ≠ .crReturn k) (hnegotiate : ∀ l p, i ≠ .crNegotiate k l p) :
    (t.pools.get k).avail = 0 := by
  generalize hps : t.pools = ps
  cases hps ▸ exec_poolChange h with
  | keep => exact hempty
  | negotiate j l p =>
    have hj : k ≠ j := by rintro rfl; exact hnegotiate l p rfl
    rw [setPool_get_ne hj, hempty]
  | take _ j hcredit =>
    have hj : k ≠ j := by rintro rfl; simp [hasCredit_iff, hempty] at hcredit
    rw [takeCredit_get_ne hj, hempty]
  | give j =>
    have hj : k ≠ j := by rintro rfl; exact hreturn rfl
    rw [addCredit_get_ne hj, hempty]

/-! ### The requests of a tick (R366) -/

theorem runRequest_within {q : Request} {s t : State} (h : runRequest q s = .next t) : Within s t := by
  obtain ⟨u, hu, hwithin⟩ := runRequest_next q s
  cases h.symm.trans hu
  exact hwithin

/-- A request performs what it decodes to, or leaves the pools. -/
theorem runRequest_cases {q : Request} {s t : State} (h : runRequest q s = .next t) :
    (∃ i, decodeRequest s.cfg q = .ok i ∧ exec i s = .next t) ∨ t.pools = s.pools := by
  unfold runRequest at h
  split at h
  case h_1 i hi => exact .inl ⟨i, hi, h⟩
  case h_2 => cases h; exact .inr rfl

theorem runRequest_keepsCounts {q : Request} {k : CreditKind} {s t : State} (h : runRequest q s = .next t)
    (hq : (s.pools.get k).negotiated = true ∨ ∀ l p, decodeRequest s.cfg q ≠ .ok (.crNegotiate k l p)) :
    KeepsCounts k s t := by
  obtain ⟨i, hi, hexec⟩ | hpools := runRequest_cases h
  · exact exec_keepsCounts hexec (hq.imp_right fun hne l p he => hne l p (he ▸ hi))
  · exact .of_pool_eq (by rw [hpools])

theorem runRequests_keepsCounts {qs : List Request} {k : CreditKind} {s t : State} (h : runRequests qs s = .next t)
    (hqs : (s.pools.get k).negotiated = true ∨ ∀ q ∈ qs, ∀ l p, decodeRequest s.cfg q ≠ .ok (.crNegotiate k l p)) :
    KeepsCounts k s t := by
  induction qs generalizing s with
  | nil => cases h; exact .of_pool_eq rfl
  | cons q qs ih =>
    obtain ⟨u, hu, ht⟩ := andThen_eq_next h
    have hfirst : KeepsCounts k s u := runRequest_keepsCounts hu (hqs.imp_right fun hne => hne q List.mem_cons_self)
    refine hfirst.trans (ih ht ?_)
    rw [(runRequest_within hu).cfg, hfirst.2]
    exact hqs.imp_right fun hne r hr => hne r (List.mem_cons_of_mem q hr)

/-- The request neither returns a credit of a kind nor negotiates its pool. -/
def AddsNoCredit (c : Config) (k : CreditKind) (q : Request) : Prop :=
  decodeRequest c q ≠ .ok (.crReturn k) ∧ ∀ l p, decodeRequest c q ≠ .ok (.crNegotiate k l p)

theorem runRequest_keepsEmpty {q : Request} {k : CreditKind} {s t : State} (h : runRequest q s = .next t)
    (hempty : (s.pools.get k).avail = 0) (hq : AddsNoCredit s.cfg k q) : (t.pools.get k).avail = 0 := by
  obtain ⟨i, hi, hexec⟩ | hpools := runRequest_cases h
  · exact exec_keepsEmpty hexec hempty (fun he => hq.1 (he ▸ hi)) fun l p he => hq.2 l p (he ▸ hi)
  · rw [hpools, hempty]

/-- `CR.TRY_ISSUE` on an empty pool answers `FALSE` (R142). -/
theorem runRequest_denied {q : Request} {k : CreditKind} {s t : State} (h : runRequest q s = .next t)
    (hempty : (s.pools.get k).avail = 0) (hq : decodeRequest s.cfg q = .ok (.crTryIssue k)) :
    t.out.res = s.out.res ++ [.denied] := by
  have hcredit : ¬ hasCredit k s = true := by simp [hasCredit_iff, hempty]
  have hrun : runRequest q s = .next (giveResult .denied s) := by
    rw [runRequest, hq]
    exact if_neg hcredit
  cases hrun.symm.trans h
  rfl

/-- With an empty pool and requests that add no credit to it, it stays empty and every `CR.TRY_ISSUE` of its kind answers `FALSE`. -/
theorem runRequests_denied {qs : List Request} {k : CreditKind} {s t : State} (h : runRequests qs s = .next t)
    (hempty : (s.pools.get k).avail = 0) (hqs : ∀ q ∈ qs, AddsNoCredit s.cfg k q) :
    (t.pools.get k).avail = 0 ∧ ∃ rs, t.out.res = s.out.res ++ rs ∧
      ∀ (n : Nat) q, qs[n]? = some q → decodeRequest s.cfg q = .ok (.crTryIssue k) → rs[n]? = some Result.denied := by
  induction qs generalizing s with
  | nil => cases h; exact ⟨hempty, [], by simp, by simp⟩
  | cons q qs ih =>
    obtain ⟨u, hu, ht⟩ := andThen_eq_next h
    have hcfg : u.cfg = s.cfg := (runRequest_within hu).cfg
    have hempty' : (u.pools.get k).avail = 0 := runRequest_keepsEmpty hu hempty (hqs q List.mem_cons_self)
    obtain ⟨r, hr⟩ := runRequest_result hu
    obtain ⟨hlast, rs, hrs, hdenied⟩ := ih ht hempty' fun r hr => hcfg ▸ hqs r (List.mem_cons_of_mem q hr)
    rw [hcfg] at hdenied
    refine ⟨hlast, r :: rs, by rw [hrs, hr, List.append_assoc, List.singleton_append], fun n p hp hdecode => ?_⟩
    cases n with
    | zero =>
      cases hp
      have hsame : s.out.res ++ [r] = s.out.res ++ [.denied] := hr.symm.trans (runRequest_denied hu hempty hdecode)
      simpa using hsame
    | succ n => exact hdenied n p hp hdecode

/-! ### The whole step -/

theorem Within.ret {s t : State} (h : Within s t) : t.inp.ret = s.inp.ret :=
  (congrArg TickInput.ret h.inp :)

@[simp] theorem beginTick_res (s : State) : (beginTick s).out.res = [] := by rw [beginTick_eq]; rfl

/-- A step that yields a snapshot: its requests, the phases up to phase 8, phase 8 with the tick's flags, and phase 9. -/
theorem step_credits {s t : State} (hyields : yieldsSnapshot s = true) (h : step s = .next t) :
    ∃ u w, runRequests (nextInput s).req (beginTick (takeInput s)) = .next u ∧ Later u w ∧
      w.inp.ret = (cleanInput (nextInput s)).ret ∧ t = closeTick (creditReturns w) := by
  obtain ⟨u, v, hu, hv, hbu, huv, hva, -, rfl⟩ := step_yields hyields h
  have hlater : Later u (lifecycleStep (arbiter v)) :=
    (router_later u).trans ((sequencer_later hv).trans ((arbiter_later v).trans (.of_same rfl rfl)))
  have hret : (arbiter v).inp.ret = (beginTick (takeInput s)).inp.ret :=
    (hbu.trans (huv.trans hva)).ret
  rw [beginTick_inp, takeInput_inp] at hret
  exact ⟨u, lifecycleStep (arbiter v), hu, hlater, hret, rfl⟩

theorem Later.keepsCounts {s t : State} (h : Later s t) (k : CreditKind) : KeepsCounts k s t :=
  ⟨(h.pools k).1, (h.pools k).2.1⟩

theorem creditedPool_counts (s : State) (k : CreditKind) :
    (creditedPool s k).initial = (s.pools.get k).initial ∧ (creditedPool s k).negotiated = (s.pools.get k).negotiated := by
  unfold creditedPool
  split <;> exact ⟨rfl, rfl⟩

theorem creditReturns_keepsCounts (k : CreditKind) (s : State) : KeepsCounts k s (creditReturns s) := by
  unfold KeepsCounts
  rw [creditReturns_pool]
  exact creditedPool_counts s k

/-- Settles O27: the requests keep both counts under either condition, the later phases always, and the steps without a snapshot
leave the pools. -/
theorem negotiatedPoolIsImmutable : Obligations.NegotiatedPoolIsImmutable := by
  refine ⟨fun i s t hi h k => exec_keepsCounts h (.inr (hi k)), fun s t hstep hrst k hk => ?_⟩
  obtain ⟨-, ⟨hreset, -⟩ | ⟨-, -, rfl⟩ | ⟨-, -, -, rfl⟩ | ⟨hyields, -⟩⟩ := step_cases hstep
  · simp [hrst] at hreset
  · exact ⟨rfl, rfl⟩
  · exact KeepsCounts.of_pool_eq (by simp)
  · obtain ⟨u, w, hrequests, hlater, -, rfl⟩ := step_credits hyields hstep
    have hbegin : KeepsCounts k s (beginTick (takeInput s)) := .of_pool_eq (by simp)
    have hrun : KeepsCounts k (beginTick (takeInput s)) u := runRequests_keepsCounts hrequests (by simpa using hk)
    exact hbegin.trans (hrun.trans ((hlater.keepsCounts k).trans (creditReturns_keepsCounts k w)))

/-- Settles O28: the pool is empty up to phase 8, which credits it once. -/
theorem returnedCreditIsUsableNextTick : Obligations.ReturnedCreditIsUsableNextTick := by
  intro s t k hyields hstep hempty hinitial hflag hxz hqs
  obtain ⟨u, w, hrequests, hlater, hret, rfl⟩ := step_credits hyields hstep
  obtain ⟨hlast, rs, hrs, hdenied⟩ := runRequests_denied (k := k) hrequests (by simpa using hempty)
    (by simpa [AddsNoCredit] using hqs)
  constructor
  case left =>
    have hres : (creditReturns w).out.res = rs := by
      rw [creditReturns_res, hlater.res, hrs, beginTick_res, List.nil_append]
    intro n q hq hdecode
    change (creditReturns w).out.res[n]? = some .denied
    rw [hres]
    exact hdenied n q hq (by simpa using hdecode)
  case right =>
    obtain ⟨hinit, -, hstays⟩ := hlater.pools k
    obtain ⟨hinit', -⟩ : KeepsCounts k (beginTick (takeInput s)) u :=
      runRequests_keepsCounts hrequests (.inr fun q hq => by simpa using (hqs q hq).2)
    have hroom : (w.pools.get k).initial ≠ 0 := by
      rw [hinit, hinit']
      simpa using hinitial
    have hset : w.inp.ret.get k = true := by simpa [hret, cleanInput, hxz] using hflag
    change ((creditReturns w).pools.get k).avail = 1
    rw [creditReturns_pool, creditedPool_of_empty hset (hstays hlast) hroom]

/-- The valid flags of the interfaces of the four kinds. -/
def validFlags (i : TickInput) : Four Bool := ⟨i.cmd.valid, i.cmdData.valid, i.resp.valid, i.respData.valid⟩

theorem Within.validFlags {s t : State} (h : Within s t) : validFlags t.inp = validFlags s.inp :=
  (congrArg Machine.validFlags h.inp :)

/-- The snapshot's return flags are the valid flags that the X/Z check left (R150, R364). -/
theorem fullTick_ret {s t : State} (h : fullTick s = .next t) :
    ∃ n, t.out.snap = some n ∧ n.ret = validFlags (cleanInput s.inp) := by
  obtain ⟨w, hwithin, rfl⟩ := fullTick_within h
  have hflags : validFlags w.inp = validFlags (beginTick s).inp := hwithin.validFlags
  rw [beginTick_inp] at hflags
  exact ⟨snapshot (lifecycleStep w), rfl, hflags⟩

theorem closeSession_snap (s : State) : (closeSession s).out.snap = s.out.snap := by
  unfold closeSession
  cases s.inp.tfault with
  | none => rfl
  | some f => exact logFault_out_snap (transportKind f) .transport s

/-- Settles O30: of the four ways of a step only a full tick gives a snapshot, and its return flags are the valid flags. -/
theorem consumedUnitsReturnCredits : Obligations.ConsumedUnitsReturnCredits := by
  intro s t n hstep hsnap
  obtain ⟨-, ⟨-, rfl⟩ | ⟨-, -, rfl⟩ | ⟨-, -, -, rfl⟩ | ⟨-, hfull⟩⟩ := step_cases hstep
  · cases hsnap
  · cases hsnap
  · rw [closeSession_snap] at hsnap
    cases hsnap
  · obtain ⟨m, hm, hret⟩ := fullTick_ret hfull
    cases hm.symm.trans hsnap
    rw [hret]
    exact ⟨rfl, rfl, rfl, rfl⟩

end Sys2Proof.Machine

/-! O31 to O35: the tag registry. Each request is first an equation per case of the registry, so that the statements only read off
what those states are. -/

namespace Sys2Proof.Machine

/-! ### Requests, case by case (R170, R172, R173) -/

theorem exec_tgAllocate_illegal {r : BitVec 8} {s : State} (h : ¬ (r.toNat < s.cfg.nCtx ∨ 0xF0 ≤ r.toNat)) :
    exec (.tgAllocate r) s = raiseIllegal s :=
  if_neg (mt legalRequester_iff.1 h)

theorem exec_tgAllocate_exhausted {r : BitVec 8} {s : State} (hlegal : r.toNat < s.cfg.nCtx ∨ 0xF0 ≤ r.toNat)
    (h : allocate r s = none) : exec (.tgAllocate r) s = raiseFault .tagPoolExhausted .tgAllocate s := by
  simp only [exec, execTgAllocate, legalRequester_iff.2 hlegal, h, if_true]

theorem exec_tgAllocate_allocated {r : BitVec 8} {s u : State} {n : Nat} (hlegal : r.toNat < s.cfg.nCtx ∨ 0xF0 ≤ r.toNat)
    (h : allocate r s = some (n, u)) : exec (.tgAllocate r) s = finish (.value n) u := by
  simp only [exec, execTgAllocate, legalRequester_iff.2 hlegal, h, if_true]

theorem exec_tgResolve_bound {g : BitVec 16} {r : BitVec 8} {s : State} (h : lookup s.tags g.toNat = some r) :
    exec (.tgResolve g) s = finish (.value r.toNat) s := by
  simp only [exec, execTgResolve, h]

theorem exec_tgResolve_free {g : BitVec 16} {s : State} (h : lookup s.tags g.toNat = none) :
    exec (.tgResolve g) s = raiseFault .unknownTag .tgResolve s := by
  simp only [exec, execTgResolve, h]

theorem exec_tgRelease_bound {g : BitVec 16} {r : BitVec 8} {s : State} (h : lookup s.tags g.toNat = some r) :
    exec (.tgRelease g) s = finish .ok (unbindTag g.toNat s) := by
  simp only [exec, execTgRelease, h]

theorem exec_tgRelease_free {g : BitVec 16} {s : State} (h : lookup s.tags g.toNat = none) :
    exec (.tgRelease g) s = raiseFault .unknownTag .tgRelease s := by
  simp only [exec, execTgRelease, h]

/-! ### What a request leaves as it was -/

/-- `t` is `s` but for the bindings, the draws left and the draw counter. -/
def ChangesTags (s t : State) : Prop :=
  ∃ tags draws ctr, t = { s with tags := tags, inp := { s.inp with draw := draws }, freeCtr := ctr }

theorem unbindTag_changesTags (n : Nat) (s : State) : ChangesTags s (unbindTag n s) := ⟨_, _, _, rfl⟩

theorem allocate_changesTags {r : BitVec 8} {s t : State} {n : Nat} (h : allocate r s = some (n, t)) : ChangesTags s t := by
  obtain ⟨-, -, rfl | rfl⟩ := allocate_eq_some h
  · exact ⟨_, _, _, rfl⟩
  · rcases nextDraw_cases s with ⟨draws, hdraw⟩ | hdraw <;> rw [hdraw] <;> exact ⟨_, _, _, rfl⟩

/-- A request that changes tags and gives a result touches nothing else. -/
theorem ChangesTags.frame {s t : State} (h : ChangesTags s t) (r : Result) :
    RequestFrame s (giveResult r t) ∧ KeepsPools s (giveResult r t) ∧ KeepsQueues s (giveResult r t) ∧
    KeepsSignals s (giveResult r t) ∧ NotLogged s (giveResult r t) ∧ Answered r s (giveResult r t) := by
  obtain ⟨tags, draws, ctr, rfl⟩ := h
  obtain ⟨⟨hsession, hmachines, hstorage⟩, hpools, -, hqueues, hsignals, hlogged, hanswered⟩ := answer_frame (s := s) r rfl
  exact ⟨⟨hsession, hmachines, hstorage⟩, hpools, hqueues, hsignals, hlogged, hanswered⟩

/-- An allocation binds the tag it gives and keeps every other binding. -/
theorem allocate_tags {r : BitVec 8} {s t : State} {n : Nat} (h : allocate r s = some (n, t)) : t.tags = insertAt n r s.tags := by
  obtain ⟨-, -, rfl | rfl⟩ := allocate_eq_some h
  · rfl
  · rcases nextDraw_cases s with ⟨draws, hdraw⟩ | hdraw <;> rw [bindTag_tags, hdraw]

/-! ### `TG.RESOLVE`, `TG.RELEASE` and `TG.ALLOCATE` -/

/-- Settles O32: a bound tag is answered with its requester, a free one raises a fault. -/
theorem resolveGivesTheRequester : Obligations.ResolveGivesTheRequester := by
  intro g o s
  refine ⟨decodeRequest_of_spells ⟨rfl, rfl, trivial⟩, ?_⟩
  cases hbound : lookup s.tags g.toNat with
  | some r =>
    obtain ⟨hframe, hpools, htags, hqueues, hsignals, hlogged, hanswered⟩ := answer_frame (s := s) (.value r.toNat) rfl
    refine ⟨_, exec_tgResolve_bound hbound, hframe, hpools, hqueues, hsignals, htags, fun r' hr' => ?_, nofun⟩
    cases hr'
    exact ⟨hanswered, hlogged⟩
  | none =>
    obtain ⟨hframe, hpools, htags, hqueues, hsignals, hlogged, hanswered⟩ :=
      raise_frame (s := s) (.fault .unknownTag) .unknownTag .tgResolve rfl
    exact ⟨_, exec_tgResolve_free hbound, hframe, hpools, hqueues, hsignals, htags, nofun, fun _ => ⟨hanswered, hlogged⟩⟩

/-- Settles O33: a bound tag is unbound, a free one raises a fault. -/
theorem releaseFreesTheTag : Obligations.ReleaseFreesTheTag := by
  intro g o s hsorted
  refine ⟨decodeRequest_of_spells ⟨rfl, rfl, trivial⟩, ?_⟩
  cases hbound : lookup s.tags g.toNat with
  | some r =>
    obtain ⟨hframe, hpools, hqueues, hsignals, hlogged, hanswered⟩ := (unbindTag_changesTags g.toNat s).frame .ok
    exact ⟨_, exec_tgRelease_bound hbound, hframe, hpools, hqueues, hsignals,
      fun _ _ => ⟨hanswered, hlogged, lookup_removeAt_self hsorted, fun m hm => lookup_removeAt_ne hm s.tags⟩, nofun⟩
  | none =>
    obtain ⟨hframe, hpools, htags, hqueues, hsignals, hlogged, hanswered⟩ :=
      raise_frame (s := s) (.fault .unknownTag) .unknownTag .tgRelease rfl
    exact ⟨_, exec_tgRelease_free hbound, hframe, hpools, hqueues, hsignals, nofun, fun _ => ⟨hanswered, hlogged, htags⟩⟩

theorem freeTags_eq_nil_iff {s : State} : freeTags s = [] ↔ ∀ n < tagPool s, lookup s.tags n ≠ none := by
  simp only [List.eq_nil_iff_forall_not_mem, mem_freeTags, not_and]

/-- Settles O31: an illegal requester, an exhausted pool, and an allocation of a free tag. -/
theorem allocateBindsAFreeTag : Obligations.AllocateBindsAFreeTag := by
  intro r o s
  refine ⟨fun hlegal => decodeRequest_of_spells ⟨legalRequester_iff.2 hlegal, rfl, trivial⟩, ?_⟩
  by_cases hlegal : r.toNat < s.cfg.nCtx ∨ 0xF0 ≤ r.toNat
  case neg =>
    obtain ⟨t, ht, hanswered, hlogged, hframe, hpools, htags, hqueues, hsignals⟩ := raiseIllegal_frame s
    exact ⟨t, (exec_tgAllocate_illegal hlegal).trans ht, hframe, hpools, hqueues, hsignals, fun h => absurd h hlegal,
      fun h => absurd h hlegal, fun _ => ⟨hanswered, hlogged, htags⟩⟩
  by_cases hfree : freeTags s = []
  · obtain ⟨hframe, hpools, htags, hqueues, hsignals, hlogged, hanswered⟩ :=
      raise_frame (s := s) (.fault .tagPoolExhausted) .tagPoolExhausted .tgAllocate rfl
    refine ⟨_, exec_tgAllocate_exhausted hlegal (allocate_eq_none.2 hfree), hframe, hpools, hqueues, hsignals, ?_,
      fun _ _ => ⟨hanswered, hlogged, htags⟩, fun h => absurd hlegal h⟩
    rintro - ⟨n, hn, hnone⟩
    exact absurd hnone (freeTags_eq_nil_iff.1 hfree n hn)
  · obtain ⟨n, u, ha, hn, hnone, hleast, -⟩ := allocate_spec (r := r) hfree
    obtain ⟨hframe, hpools, hqueues, hsignals, hlogged, hanswered⟩ := (allocate_changesTags ha).frame (.value n)
    refine ⟨_, exec_tgAllocate_allocated hlegal ha, hframe, hpools, hqueues, hsignals, fun _ _ =>
      ⟨n, hn, hnone, hleast, hanswered, hlogged, ?_⟩, fun _ hall => absurd (freeTags_eq_nil_iff.2 hall) hfree,
      fun h => absurd hlegal h⟩
    rw [giveResult_tags, allocate_tags ha]
    exact ⟨lookup_insertAt_self n r s.tags, fun m hm => lookup_insertAt_ne hm r s.tags⟩

/-! ### `resolve` after `release` (R180) -/

/-- What an instruction can make of the registry of `s`: leave it, bind a tag that was free, or free one that was bound. -/
inductive TagChange (s : State) : Instr → Store (BitVec 8) → Prop
  | keep (i : Instr) : TagChange s i s.tags
  | bind (r : BitVec 8) (n : Nat) (h : lookup s.tags n = none) : TagChange s (.tgAllocate r) (insertAt n r s.tags)
  | unbind (g : BitVec 16) (r : BitVec 8) (h : lookup s.tags g.toNat = some r) :
      TagChange s (.tgRelease g) (removeAt g.toNat s.tags)

theorem TagChange.of_eq {s t : State} {i : Instr} (h : t.tags = s.tags) : TagChange s i t.tags := h ▸ .keep i

@[simp] theorem dequeue_tags (x : BitVec 8) (m : Nat) (s : State) : (dequeue x m s).tags = s.tags := by
  obtain ⟨f, d, h⟩ := dequeue_fields x m s
  rw [h]

theorem exec_tagChange {i : Instr} {s t : State} (h : exec i s = .next t) : TagChange s i t.tags := by
  cases i with
  | tgAllocate r =>
    simp only [exec, execTgAllocate] at h
    (repeat' split at h) <;> cases h
    next n u ha =>
      rw [giveResult_tags, allocate_tags ha]
      exact .bind r n (allocate_eq_some ha).2.1
    all_goals exact .keep _
  | tgRelease g =>
    simp only [exec, execTgRelease] at h
    split at h <;> cases h
    next r hbound => exact .unbind g r hbound
    next => exact .keep _
  | dfDrain x n =>
    simp only [exec, execDfDrain] at h
    split at h <;> cases h
    next => exact .of_eq (by rw [giveResult_tags]; split <;> simp)
    next => exact .keep _
  | dfStream k x =>
    simp only [exec, execDfStream] at h
    (repeat' split at h) <;> cases h <;> exact .of_eq (by simp)
  | btDrive p =>
    simp only [exec, execBtDrive] at h
    split at h <;> cases h
    next => exact .of_eq (drive_tags p s)
    next => exact .keep _
  | dfEnqueue x n data =>
    simp only [exec, execDfEnqueue] at h
    (repeat' split at h) <;> cases h <;> exact .keep _
  | nop | crRead k | btRead g => cases h; exact .keep _
  | crNegotiate k l p | crTryIssue k | crReturn k | tgResolve g | dfCount x =>
    simp only [exec, execCrNegotiate, execCrTryIssue, execCrReturn, execTgResolve, execDfCount] at h
    split at h <;> cases h <;> exact .keep _
  | prRdMem ea tag pl | prWrMem ea tag pl | configRead ea tag pl | configWrite ea tag pl =>
    simp only [exec, execPrRdMem, execPrWrMem, execConfigRead, execConfigWrite] at h
    split at h <;> cases h <;> exact .keep _

/-- A free tag stays free through an instruction that does not allocate. -/
theorem exec_keepsFree {i : Instr} {s t : State} {n : Nat} (h : exec i s = .next t) (hi : ∀ r, i ≠ .tgAllocate r)
    (hfree : lookup s.tags n = none) : lookup t.tags n = none := by
  generalize htags : t.tags = tags
  cases htags ▸ exec_tagChange h with
  | keep => exact hfree
  | bind r => exact absurd rfl (hi r)
  | unbind g r hbound =>
    have hn : n ≠ g.toNat := by
      rintro rfl
      cases hfree.symm.trans hbound
    rw [lookup_removeAt_ne hn, hfree]

theorem runInstrs_keepsFree {is : List Instr} {s t : State} {n : Nat} (h : runInstrs is s = .next t)
    (his : ∀ i ∈ is, ∀ r, i ≠ .tgAllocate r) (hfree : lookup s.tags n = none) : lookup t.tags n = none := by
  induction is generalizing s with
  | nil => cases h; exact hfree
  | cons i is ih =>
    obtain ⟨u, hi, his'⟩ := andThen_eq_next h
    rw [List.forall_mem_cons] at his
    exact ih his' his.2 (exec_keepsFree hi his.1 hfree)

/-- Settles O34: the release frees the tag, and it stays free up to the resolution. -/
theorem resolveAfterReleaseFails : Obligations.ResolveAfterReleaseFails := by
  rintro g s t u is hsorted ⟨r, hbound⟩ hrelease his hrun
  rw [exec_tgRelease_bound hbound] at hrelease
  cases hrelease
  have hfree : lookup u.tags g.toNat = none := runInstrs_keepsFree hrun his (lookup_removeAt_self hsorted)
  obtain ⟨-, -, -, -, -, hlogged, hanswered⟩ := raise_frame (s := u) (.fault .unknownTag) .unknownTag .tgResolve rfl
  exact ⟨_, exec_tgResolve_free hfree, hanswered, hlogged⟩

/-! ### The router (R175, R177) -/

theorem routeResponse_absent {s : State} (h : s.inp.resp.valid = false) : routeResponse s = s := if_neg (by simp [h])

theorem routeResponse_unknown {s : State} (hvalid : s.inp.resp.valid = true)
    (h : lookup s.tags s.inp.resp.body.tag.toNat = none) : routeResponse s = logFault .unknownTag .route s := by
  simp only [routeResponse, hvalid, h, if_true]

theorem routeResponse_bound {r : BitVec 8} {s : State} (hvalid : s.inp.resp.valid = true)
    (h : lookup s.tags s.inp.resp.body.tag.toNat = some r) :
    routeResponse s = { s with
      tags := if isTerminal s.cfg s.inp.resp.body then removeAt s.inp.resp.body.tag.toNat s.tags else s.tags
      out := { s.out with respOut := some (routedResp r s.inp.resp.body) } } := by
  simp only [routeResponse, hvalid, h, if_true]
  split <;> rfl

theorem passResponseData_eq (s : State) : passResponseData s = { s with out := { s.out with
    respDataOut := if s.inp.respData.valid then some s.inp.respData.body else s.out.respDataOut } } := by
  unfold passResponseData
  split <;> rfl

@[simp] theorem router_tags (s : State) : (router s).tags = (routeResponse s).tags := by
  rw [router, passResponseData_eq]

@[simp] theorem router_diag (s : State) : (router s).diag = (routeResponse s).diag := by
  rw [router, passResponseData_eq]

@[simp] theorem router_out_diag (s : State) : (router s).out.diag = (routeResponse s).out.diag := by
  rw [router, passResponseData_eq]

@[simp] theorem router_out_respOut (s : State) : (router s).out.respOut = (routeResponse s).out.respOut := by
  rw [router, passResponseData_eq]

/-- The router writes the bindings, the records and the two routed outputs. -/
theorem routeResponse_fields (s : State) : ∃ tags diag outDiag resp, routeResponse s =
    { s with tags := tags, diag := diag, out := { s.out with diag := outDiag, respOut := resp } } := by
  cases hvalid : s.inp.resp.valid with
  | false => exact ⟨_, _, _, _, routeResponse_absent hvalid⟩
  | true =>
    cases hbound : lookup s.tags s.inp.resp.body.tag.toNat with
    | none => exact ⟨_, _, _, _, routeResponse_unknown hvalid hbound⟩
    | some r => exact ⟨_, _, _, _, routeResponse_bound hvalid hbound⟩

theorem router_frame (s : State) :
    (router s).out.respDataOut = (if s.inp.respData.valid then some s.inp.respData.body else s.out.respDataOut) ∧
    (router s).out.res = s.out.res ∧ KeepsPools s (router s) ∧ KeepsQueues s (router s) ∧ KeepsSignals s (router s) ∧
    KeepsMachines s (router s) ∧ KeepsStorage s (router s) ∧ (router s).lc = s.lc ∧ (router s).rot = s.rot ∧
    (router s).cycle = s.cycle ∧ (router s).closed = s.closed ∧ (router s).inp = s.inp := by
  obtain ⟨tags, diag, outDiag, resp, h⟩ := routeResponse_fields s
  rw [router, passResponseData_eq, h]
  exact ⟨rfl, rfl, fun _ => rfl, ⟨fun _ => rfl, fun _ => rfl⟩, ⟨rfl, rfl⟩, ⟨rfl, rfl, rfl, rfl⟩,
    ⟨fun _ => rfl, fun _ => rfl, rfl⟩, rfl, rfl, rfl, rfl, rfl⟩

/-- A tag is freed where a condition holds, and the other bindings are kept. -/
theorem lookup_removeAt_if {β : Type} {m : Store β} (hsorted : Store.sorted m = true) (c : Bool) (n : Nat) :
    lookup (if c then removeAt n m else m) n = (if c then none else lookup m n) ∧
    ∀ j, j ≠ n → lookup (if c then removeAt n m else m) j = lookup m j := by
  cases c with
  | false => exact ⟨rfl, fun _ _ => rfl⟩
  | true => exact ⟨lookup_removeAt_self hsorted, fun j hj => lookup_removeAt_ne hj m⟩

/-- Settles O35: a bound tag, a free one, and no response. -/
theorem routerDeliversByTag : Obligations.RouterDeliversByTag := by
  intro s hsorted hrespOut hrespDataOut p t
  obtain ⟨hdata, hframe⟩ := router_frame s
  rw [hrespDataOut] at hdata
  refine ⟨fun r hvalid hbound => ?_, fun hvalid hfree => ?_, fun hvalid => ?_, hdata, hframe⟩
  · have hroute := routeResponse_bound hvalid hbound
    have htags := lookup_removeAt_if hsorted (isTerminal s.cfg p) p.tag.toNat
    rw [hbound] at htags
    exact ⟨by simp [t, p, hroute, routedResp], by simp [t, NotLogged, hroute], by simpa [t, hroute] using htags⟩
  · have hroute := routeResponse_unknown hvalid hfree
    exact ⟨by simp [t, hroute, hrespOut], by simp [t, Logged, hroute], by simp [t, hroute]⟩
  · have hroute := routeResponse_absent hvalid
    exact ⟨by simp [t, hroute, hrespOut], by simp [t, NotLogged, hroute], by simp [t, hroute]⟩

end Sys2Proof.Machine

/-! O36, O37, O38 and O40: the queues. An append and a removal are each said once as what they make of the store of queues; a request
that changes nothing else then has the frame of `ChangesQueues`. -/

namespace Sys2Proof.Machine

/-! ### What a queue request leaves as it was -/

/-- `t` is `s` but for the queues and the drained marks. -/
def ChangesQueues (s t : State) : Prop :=
  ∃ fifo drained, t = { s with fifo := fifo, drained := drained }

theorem ChangesQueues.refl (s : State) : ChangesQueues s s := ⟨_, _, rfl⟩

theorem setQueue_changesQueues (x : BitVec 8) (q : List Beat) (s : State) : ChangesQueues s (setQueue x q s) := ⟨_, _, rfl⟩

theorem dequeue_changesQueues (x : BitVec 8) (m : Nat) (s : State) : ChangesQueues s (dequeue x m s) := dequeue_fields x m s

/-- A request that changes queues and gives a result touches nothing else. -/
theorem ChangesQueues.frame {s t : State} (h : ChangesQueues s t) (r : Result) :
    RequestFrame s (giveResult r t) ∧ KeepsPools s (giveResult r t) ∧ KeepsTags s (giveResult r t) ∧
    KeepsSignals s (giveResult r t) ∧ NotLogged s (giveResult r t) ∧ Answered r s (giveResult r t) := by
  obtain ⟨fifo, drained, rfl⟩ := h
  obtain ⟨⟨hsession, hmachines, hstorage⟩, hpools, htags, -, hsignals, hlogged, hanswered⟩ :=
    answer_frame (s := s) r rfl
  exact ⟨⟨hsession, hmachines, hstorage⟩, hpools, htags, hsignals, hlogged, hanswered⟩

/-- A request that changes queues, logs one record and gives a result touches nothing else. -/
theorem ChangesQueues.logged_frame {s t : State} (h : ChangesQueues s t) (r : Result) (k : FaultKind) (op : OpName) :
    RequestFrame s (giveResult r (logFault k op t)) ∧ KeepsPools s (giveResult r (logFault k op t)) ∧
    KeepsTags s (giveResult r (logFault k op t)) ∧ KeepsSignals s (giveResult r (logFault k op t)) ∧
    Logged k op s (giveResult r (logFault k op t)) ∧ Answered r s (giveResult r (logFault k op t)) := by
  obtain ⟨fifo, drained, rfl⟩ := h
  obtain ⟨⟨hsession, hmachines, hstorage⟩, hpools, htags, -, hsignals, hlogged, hanswered⟩ :=
    raise_frame (s := s) r k op rfl
  exact ⟨⟨hsession, hmachines, hstorage⟩, hpools, htags, hsignals, hlogged, hanswered⟩

/-! ### The store of queues -/

@[simp] theorem queueOf_giveResult (r : Result) (s : State) (x : BitVec 8) : queueOf (giveResult r s) x = queueOf s x := rfl

theorem sorted_setQueue {s : State} (h : Store.sorted s.fifo = true) (x : BitVec 8) (q : List Beat) :
    Store.sorted (setQueue x q s).fifo = true := by
  rw [setQueue_fifo]
  split
  case isTrue => exact sorted_removeAt h
  case isFalse => exact sorted_insertAt h

theorem sorted_dequeue {s : State} (h : Store.sorted s.fifo = true) (x : BitVec 8) (m : Nat) :
    Store.sorted (dequeue x m s).fifo = true := by
  unfold dequeue
  split
  case isTrue => exact sorted_setQueue h x _
  case isFalse => exact h

/-- A queue that is set to a list with a packet reads as it, whatever the form of the store. -/
theorem queueOf_setQueue_of_ne_nil {q : List Beat} (hq : q ≠ []) (x : BitVec 8) (s : State) :
    queueOf (setQueue x q s) x = q := by
  rw [queueOf, setQueue_fifo, if_neg (by simpa using hq), lookup_insertAt_self, Option.getD_some]

/-! ### `DF.ENQUEUE` (R201) -/

/-- `t` is `s` with packets appended to the queue `x`, and in canonical form if `s` was. -/
structure Appends (x : BitVec 8) (data : List Beat) (s t : State) : Prop where
  changes : ChangesQueues s t
  queue : queueOf t x = queueOf s x ++ data
  others : ∀ y, y ≠ x → queueOf t y = queueOf s y
  marks : ∀ y, isDrained t y = isDrained s y
  sorted : Store.sorted s.fifo = true → Store.sorted t.fifo = true

section
variable {x : BitVec 8} {n : BitVec 16} {data : List Beat} {s : State}

theorem exec_dfEnqueue_conflict (hx : x.toNat < s.cfg.nXfer) (hdrained : isDrained s x = true) :
    exec (.dfEnqueue x n data) s = raiseFault .concurrentFragmentConflict .dfEnqueue s := by
  simp only [exec, execDfEnqueue, legalXfer_iff.2 hx, hdrained, if_true]

theorem exec_dfEnqueue_overflow (hx : x.toNat < s.cfg.nXfer) (hdrained : isDrained s x = false) (hn : n ≠ 0)
    (hfull : s.cfg.fifoDepth < (queueOf s x).length + n.toNat) :
    exec (.dfEnqueue x n data) s = raiseFault .fifoOverflow .dfEnqueue s := by
  simp only [exec, execDfEnqueue, legalXfer_iff.2 hx, hdrained, hn, hfull, if_true, if_false, Bool.false_eq_true]

/-- Without a drain in flight, no packets or packets that fit are appended. -/
theorem exec_dfEnqueue_appends (hlength : data.length = n.toNat) (hx : x.toNat < s.cfg.nXfer) (hdrained : isDrained s x = false)
    (hfits : n = 0 ∨ (queueOf s x).length + n.toNat ≤ s.cfg.fifoDepth) :
    ∃ t, exec (.dfEnqueue x n data) s = finish .ok t ∧ Appends x data s t := by
  by_cases hn : n = 0
  · subst hn
    obtain rfl : data = [] := List.eq_nil_of_length_eq_zero hlength
    refine ⟨s, ?_, .refl s, (List.append_nil _).symm, fun _ _ => rfl, fun _ => rfl, id⟩
    simp only [exec, execDfEnqueue, legalXfer_iff.2 hx, hdrained, if_true, if_false, Bool.false_eq_true]
  · have hroom : ¬ s.cfg.fifoDepth < (queueOf s x).length + n.toNat := Nat.not_lt.2 (hfits.resolve_left hn)
    have hdata : data ≠ [] := by
      rintro rfl
      exact hn (BitVec.eq_of_toNat_eq hlength.symm)
    refine ⟨setQueue x (queueOf s x ++ data) s, ?_, setQueue_changesQueues _ _ _,
      queueOf_setQueue_of_ne_nil (by simp [hdata]) x s, fun y hy => lookup_setQueue_ne hy _ s, fun _ => rfl,
      fun hsorted => sorted_setQueue hsorted x _⟩
    simp only [exec, execDfEnqueue, legalXfer_iff.2 hx, hdrained, hn, hroom, takeBeats_of_length hlength, if_true, if_false,
      Bool.false_eq_true]

end

/-- Settles O36: the conflict, the overflow, and an append, which is of no packets for a zero count. -/
theorem enqueueAppendsAllOrNothing : Obligations.EnqueueAppendsAllOrNothing := by
  intro x n data o s hlength hx
  refine ⟨decodeRequest_of_spells ⟨Bool.and_eq_true_iff.2 ⟨legalXfer_iff.2 hx, decide_eq_true hlength⟩, rfl,
    takeBeats_of_length hlength⟩, ?_⟩
  cases hdrained : isDrained s x with
  | true =>
    obtain ⟨hframe, hpools, htags, ⟨hqueues, hmarks⟩, hsignals, hlogged, hanswered⟩ :=
      raise_frame (s := s) (.fault .concurrentFragmentConflict) .concurrentFragmentConflict .dfEnqueue rfl
    exact ⟨_, exec_dfEnqueue_conflict hx hdrained, hframe, hpools, htags, hsignals, fun y _ => hqueues y, hmarks,
      fun _ => ⟨hanswered, hlogged, hqueues x⟩, nofun, nofun, nofun⟩
  | false =>
    by_cases hfits : n = 0 ∨ (queueOf s x).length + n.toNat ≤ s.cfg.fifoDepth
    · obtain ⟨t, hexec, happends⟩ := exec_dfEnqueue_appends hlength hx hdrained hfits
      obtain ⟨hframe, hpools, htags, hsignals, hlogged, hanswered⟩ := happends.changes.frame .ok
      refine ⟨_, hexec, hframe, hpools, htags, hsignals, happends.others, happends.marks, nofun, fun _ hn => ?_,
        fun _ hn hfull => ?_, fun _ _ _ => ⟨hanswered, hlogged, happends.queue⟩⟩
      · subst hn
        obtain rfl : data = [] := List.eq_nil_of_length_eq_zero hlength
        exact ⟨hanswered, hlogged, happends.queue.trans (List.append_nil _)⟩
      · have := hfits.resolve_left hn
        omega
    · rw [not_or, Nat.not_le] at hfits
      obtain ⟨hn, hfull⟩ := hfits
      obtain ⟨hframe, hpools, htags, ⟨hqueues, hmarks⟩, hsignals, hlogged, hanswered⟩ :=
        raise_frame (s := s) (.fault .fifoOverflow) .fifoOverflow .dfEnqueue rfl
      exact ⟨_, exec_dfEnqueue_overflow hx hdrained hn hfull, hframe, hpools, htags, hsignals, fun y _ => hqueues y, hmarks,
        nofun, fun _ hzero => absurd hzero hn, fun _ _ _ => ⟨hanswered, hlogged, hqueues x⟩,
        fun _ _ hroom => absurd hroom (Nat.not_le.2 hfull)⟩

/-! ### `DF.DRAIN` (R202) -/

section
variable {x : BitVec 8} {n : BitVec 16} {s : State}

theorem exec_dfDrain_full (hx : x.toNat < s.cfg.nXfer) (hn : n.toNat ≤ (queueOf s x).length) :
    exec (.dfDrain x n) s = finish (.packets ((queueOf s x).take n.toNat)) (dequeue x n.toNat s) := by
  simp only [exec, execDfDrain, legalXfer_iff.2 hx, Nat.min_eq_left hn, Nat.lt_irrefl, if_true, if_false]

theorem exec_dfDrain_short (hx : x.toNat < s.cfg.nXfer) (hn : (queueOf s x).length < n.toNat) :
    exec (.dfDrain x n) s =
      finish (.packets (queueOf s x)) (logFault .underrunWarning .dfDrain (dequeue x (queueOf s x).length s)) := by
  simp only [exec, execDfDrain, legalXfer_iff.2 hx, Nat.min_eq_right hn.le, hn, List.take_length, if_true]

end

/-- Settles O37: a queue that holds enough packets, and one that gives all it has. -/
theorem drainRemovesFromTheHead : Obligations.DrainRemovesFromTheHead := by
  intro x n o s hsorted hx
  refine ⟨decodeRequest_of_spells ⟨legalXfer_iff.2 hx, rfl, trivial⟩, ?_⟩
  have hzero : n ≠ 0 ↔ 0 < n.toNat := by rw [Nat.pos_iff_ne_zero, ne_eq, ne_eq, ← BitVec.toNat_inj]; rfl
  have hempty : queueOf s x ≠ [] ↔ 0 < (queueOf s x).length := List.length_pos_iff.symm
  rw [hzero, hempty]
  by_cases hn : n.toNat ≤ (queueOf s x).length
  · obtain ⟨hqueue, hothers, hmark⟩ := dequeue_spec (x := x) (m := n.toNat) hsorted
    obtain ⟨hframe, hpools, htags, hsignals, hlogged, hanswered⟩ :=
      (dequeue_changesQueues x n.toNat s).frame (.packets ((queueOf s x).take n.toNat))
    refine ⟨_, exec_dfDrain_full hx hn, hframe, hpools, htags, hsignals, hanswered, hqueue, hothers, hmark.trans ?_,
      fun hshort => absurd hn (Nat.not_le.2 hshort), fun _ => hlogged⟩
    exact or_congr_right (by omega)
  · rw [Nat.not_le] at hn
    obtain ⟨hqueue, hothers, hmark⟩ := dequeue_spec (x := x) (m := (queueOf s x).length) hsorted
    obtain ⟨hframe, hpools, htags, hsignals, hlogged, hanswered⟩ :=
      (dequeue_changesQueues x (queueOf s x).length s).logged_frame (.packets (queueOf s x)) .underrunWarning .dfDrain
    rw [List.drop_length] at hqueue
    rw [List.take_of_length_le hn.le, List.drop_of_length_le hn.le]
    refine ⟨_, exec_dfDrain_short hx hn, hframe, hpools, htags, hsignals, hanswered, hqueue, hothers, hmark.trans ?_,
      fun _ => hlogged, fun hfull => absurd hfull (Nat.not_le.2 hn)⟩
    exact or_congr_right (by omega)

/-! ### `DF.STREAM` (R205) -/

/-- The state after the head packet left: the credit first, then the queue, then the drive. -/
def streamed (k : DataKind) (x : BitVec 8) (p : Beat) (s : State) : State :=
  drive (dataPayload k { bad := false, data := p }) (dequeue x 1 (takeCredit (kindOfData k) s))

section
variable {k : DataKind} {x : BitVec 8} {p : Beat} {ps : List Beat} {s : State}

theorem exec_dfStream_empty (hx : x.toNat < s.cfg.nXfer) (hq : queueOf s x = []) :
    exec (.dfStream k x) s = finish .empty (logFault .underrunWarning .dfStream s) := by
  simp only [exec, execDfStream, legalXfer_iff.2 hx, hq, if_true]

theorem exec_dfStream_busy (hx : x.toNat < s.cfg.nXfer) (hq : queueOf s x = p :: ps)
    (hdrive : canDrive (signalOfData k) s = false) : exec (.dfStream k x) s = finish .busy s := by
  simp only [exec, execDfStream, legalXfer_iff.2 hx, hq, hdrive, if_true, if_false, Bool.false_eq_true]

theorem exec_dfStream_noCredit (hx : x.toNat < s.cfg.nXfer) (hq : queueOf s x = p :: ps)
    (hdrive : canDrive (signalOfData k) s = true) (hcredit : hasCredit (kindOfData k) s = false) :
    exec (.dfStream k x) s = finish .noCredit s := by
  simp only [exec, execDfStream, legalXfer_iff.2 hx, hq, hdrive, hcredit, if_true, if_false, Bool.false_eq_true]

theorem exec_dfStream_sends (hx : x.toNat < s.cfg.nXfer) (hq : queueOf s x = p :: ps)
    (hdrive : canDrive (signalOfData k) s = true) (hcredit : hasCredit (kindOfData k) s = true) :
    exec (.dfStream k x) s = finish .ok (streamed k x p s) := by
  simp only [exec, execDfStream, legalXfer_iff.2 hx, hq, hdrive, hcredit, if_true, streamed]

/-- A streamed packet takes its credit and drives its signal; but for those and the queues nothing else is touched. -/
theorem streamed_frame (x : BitVec 8) (p : Beat) (hcredit : hasCredit (kindOfData k) s = true) :
    RequestFrame s (giveResult .ok (streamed k x p s)) ∧ KeepsTags s (giveResult .ok (streamed k x p s)) ∧
    NotLogged s (giveResult .ok (streamed k x p s)) ∧ Answered .ok s (giveResult .ok (streamed k x p s)) ∧
    TookCredit (kindOfData k) s (giveResult .ok (streamed k x p s)) ∧
    Drove (dataPayload k { bad := false, data := p }) s (giveResult .ok (streamed k x p s)) := by
  have htook := tookCredit_takeCredit hcredit
  obtain ⟨fifo, drained, hdequeue⟩ := dequeue_fields x 1 (takeCredit (kindOfData k) s)
  rw [streamed, hdequeue]
  cases k with
  | cmdData | respData =>
    exact ⟨⟨⟨rfl, rfl, rfl, rfl, rfl, rfl, rfl, rfl, rfl, rfl⟩, ⟨rfl, rfl, rfl, rfl⟩, fun _ => rfl, fun _ => rfl, rfl⟩,
      ⟨fun _ => rfl, rfl, rfl⟩, ⟨rfl, rfl⟩, rfl, htook, rfl, rfl⟩

/-- The queues and the marks after a streamed packet are those of the removal of one packet. -/
theorem streamed_queues (hsorted : Store.sorted s.fifo = true) : queueOf (streamed k x p s) x = (queueOf s x).drop 1 ∧
    isDrained (streamed k x p s) x = true ∧
    ∀ y, y ≠ x → queueOf (streamed k x p s) y = queueOf s y ∧ isDrained (streamed k x p s) y = isDrained s y := by
  obtain ⟨hqueue, hothers, hmark⟩ := dequeue_spec (x := x) (m := 1) (s := takeCredit (kindOfData k) s) hsorted
  cases k with
  | cmdData | respData => exact ⟨hqueue, hmark.2 (.inr Nat.one_pos), hothers⟩

end

/-- Settles O38: the four results in the order of the rule, and what a streamed packet changes. -/
theorem streamSendsTheHeadPacket : Obligations.StreamSendsTheHeadPacket := by
  intro k x o s hsorted hx
  refine ⟨decodeRequest_of_spells ⟨legalXfer_iff.2 hx, rfl, trivial⟩, ?_⟩
  cases hq : queueOf s x with
  | nil =>
    obtain ⟨hframe, hpools, htags, hqueues, hsignals, hlogged, hanswered⟩ :=
      raise_frame (s := s) .empty .underrunWarning .dfStream rfl
    exact ⟨_, exec_dfStream_empty hx hq, hframe, htags, fun _ => ⟨hanswered, hlogged, hpools, hqueues, hsignals⟩,
      fun h => absurd rfl h, fun h => absurd rfl h, nofun⟩
  | cons p ps =>
    cases hdrive : canDrive (signalOfData k) s with
    | false =>
      obtain ⟨hframe, hpools, htags, hqueues, hsignals, hlogged, hanswered⟩ := answer_frame (s := s) .busy rfl
      exact ⟨_, exec_dfStream_busy hx hq hdrive, hframe, htags, nofun,
        fun _ _ => ⟨hanswered, hlogged, hpools, hqueues, hsignals⟩, nofun, nofun⟩
    | true =>
      cases hcredit : hasCredit (kindOfData k) s with
      | false =>
        obtain ⟨hframe, hpools, htags, hqueues, hsignals, hlogged, hanswered⟩ := answer_frame (s := s) .noCredit rfl
        refine ⟨_, exec_dfStream_noCredit hx hq hdrive hcredit, hframe, htags, nofun, nofun,
          fun _ _ _ => ⟨hanswered, hlogged, hpools, hqueues, hsignals⟩, fun _ _ _ _ hpos => ?_⟩
        rw [← hasCredit_iff, hcredit] at hpos
        cases hpos
      | true =>
        obtain ⟨hframe, htags, hlogged, hanswered, htook, hdrove⟩ := streamed_frame x p hcredit
        obtain ⟨hqueue, hmark, hothers⟩ := streamed_queues (k := k) (x := x) (p := p) hsorted
        refine ⟨_, exec_dfStream_sends hx hq hdrive hcredit, hframe, htags, nofun, nofun, fun _ _ hzero => ?_, ?_⟩
        · rw [hasCredit_iff] at hcredit
          omega
        · rintro _ _ ⟨⟩ - -
          exact ⟨hanswered, hlogged, htook, hqueue.trans (by rw [hq, List.drop_one, List.tail_cons]), hmark, hothers, hdrove⟩

/-! ### Order and contents (R207) -/

/-- Drains that total the length of a queue empty it, and their packets, in order, are the queue. -/
theorem runInstrs_dfDrain {x : BitVec 8} {ns : List (BitVec 16)} {s : State} (hsorted : Store.sorted s.fifo = true)
    (hx : x.toNat < s.cfg.nXfer) (hsum : (ns.map BitVec.toNat).sum = (queueOf s x).length) :
    ∃ t rs, runInstrs (ns.map (.dfDrain x)) s = .next t ∧ t.out.res = s.out.res ++ rs ∧ packetsOf rs = queueOf s x ∧
      queueOf t x = [] ∧ t.diag = s.diag := by
  induction ns generalizing s with
  | nil =>
    have hq : queueOf s x = [] := List.eq_nil_of_length_eq_zero hsum.symm
    exact ⟨s, [], rfl, (List.append_nil _).symm, hq.symm, hq, rfl⟩
  | cons n ns ih =>
    rw [List.map_cons, List.sum_cons] at hsum
    obtain ⟨hqueue, -, -⟩ := dequeue_spec (x := x) (m := n.toNat) hsorted
    obtain ⟨⟨⟨hcfg, -⟩, -⟩, -, -, -, ⟨hdiag, -⟩, hanswered⟩ :=
      (dequeue_changesQueues x n.toNat s).frame (.packets ((queueOf s x).take n.toNat))
    obtain ⟨t, rs, hrun, hres, hpackets, hempty, hdiag'⟩ :=
      ih (s := giveResult (.packets ((queueOf s x).take n.toNat)) (dequeue x n.toNat s)) (sorted_dequeue hsorted x n.toNat)
        (hcfg ▸ hx) (by rw [queueOf_giveResult, hqueue, List.length_drop]; omega)
    refine ⟨t, .packets ((queueOf s x).take n.toNat) :: rs, ?_, ?_, ?_, hempty, hdiag'.trans hdiag⟩
    · rw [List.map_cons, runInstrs, exec_dfDrain_full hx (by omega)]
      exact hrun
    · rw [hres, hanswered, List.append_assoc, List.singleton_append]
    · rw [packetsOf, hpackets, queueOf_giveResult, hqueue, List.take_append_drop]

/-- Settles O40: the enqueue puts the packets on the empty queue, and the drains empty it. -/
theorem queueKeepsOrderAndContents : Obligations.QueueKeepsOrderAndContents := by
  intro x n data ns s hsorted hx hlength hdepth hempty hdrained hsum
  obtain ⟨u, hexec, happends⟩ := exec_dfEnqueue_appends hlength hx hdrained (.inr (by simpa [hempty] using hdepth))
  obtain ⟨⟨⟨hcfg, -⟩, -⟩, -, -, -, ⟨hdiag, -⟩, hanswered⟩ := happends.changes.frame .ok
  have hqueue : queueOf (giveResult .ok u) x = data := by
    rw [queueOf_giveResult, happends.queue, hempty, List.nil_append]
  obtain ⟨t, rs, hrun, hres, hpackets, hleft, hdiag'⟩ :=
    runInstrs_dfDrain (s := giveResult .ok u) (happends.sorted hsorted) (hcfg ▸ hx) (by rw [hqueue, hsum, hlength])
  refine ⟨t, ?_, ?_, hleft, hdiag'.trans hdiag⟩
  · rw [runInstrs, hexec]
    exact hrun
  · rw [hres, hanswered, List.append_assoc, List.drop_left]
    exact hpackets.trans hqueue

end Sys2Proof.Machine

/-! O44 to O47: the four inbound commands. Each is first an equation in the answer of its checks, and the answers are said once for
the two partial commands and once for the two configuration commands. -/

namespace Sys2Proof.Machine

/-! ### The answers of the checks (R231, R232, R235, R245, R246, R253) -/

section
variable {ea : BitVec 64} {pl : BitVec 3} {n : Nat} {s : State}

theorem partialCheck_busy (h : s.pm.state ≠ .idle) : partialCheck ea pl s = .error .sequencerOverrun := by
  cases hstate : s.pm.state with
  | idle => exact absurd hstate h
  | awaitingData => simp only [partialCheck, hstate]
  | responsePending => simp only [partialCheck, hstate]

theorem partialCheck_length (hidle : s.pm.state = .idle)
    (hlen : ∀ n, plBytes s.cfg pl = some n → ¬ (n = 1 ∨ n = 2 ∨ n = 4 ∨ n = 8)) : partialCheck ea pl s = .error .badLength := by
  simp only [partialCheck, hidle, partialLen_of_not hlen]

theorem partialCheck_boundary (hidle : s.pm.state = .idle) (hbytes : plBytes s.cfg pl = some n)
    (hlen : n = 1 ∨ n = 2 ∨ n = 4 ∨ n = 8) (hcross : 64 < ea.toNat % 64 + n) :
    partialCheck ea pl s = .error .beatBoundaryCross := by
  simp only [partialCheck, hidle, partialLen_of_bytes hbytes hlen, beatOffset_toNat, if_neg (Nat.not_le_of_lt hcross)]

theorem partialCheck_accepts (hidle : s.pm.state = .idle) (hbytes : plBytes s.cfg pl = some n)
    (hlen : n = 1 ∨ n = 2 ∨ n = 4 ∨ n = 8) (hfits : ea.toNat % 64 + n ≤ 64) : partialCheck ea pl s = .ok n := by
  simp only [partialCheck, hidle, partialLen_of_bytes hbytes hlen, beatOffset_toNat, if_pos hfits]

end

section
variable {pa : BitVec 64} {pl : BitVec 3} {n : Nat} {s : State}

theorem configCheck_busy (h : ¬ (s.cm.state = .idle ∧ s.cm.resp = none)) :
    configCheck pa pl s = .error .sequencerOverrun := by
  cases hstate : s.cm.state with
  | awaitingConfigData => simp only [configCheck, hstate]
  | idle =>
    cases hresp : s.cm.resp with
    | none => exact absurd ⟨hstate, hresp⟩ h
    | some r => simp only [configCheck, hstate, hresp]

theorem configCheck_length (hidle : s.cm.state = .idle) (hnone : s.cm.resp = none)
    (hlen : ∀ n, plBytes s.cfg pl = some n → ¬ (n = 1 ∨ n = 2 ∨ n = 4)) : configCheck pa pl s = .error .badLength := by
  simp only [configCheck, hidle, hnone, configLen_of_not hlen]

theorem configCheck_boundary (hidle : s.cm.state = .idle) (hnone : s.cm.resp = none) (hbytes : plBytes s.cfg pl = some n)
    (hlen : n = 1 ∨ n = 2 ∨ n = 4) (hcross : 4 < pa.toNat % 4 + n) : configCheck pa pl s = .error .beatBoundaryCross := by
  simp only [configCheck, hidle, hnone, configLen_of_bytes hbytes hlen, regLane_eq, if_neg (Nat.not_le_of_lt hcross)]

theorem configCheck_accepts (hidle : s.cm.state = .idle) (hnone : s.cm.resp = none) (hbytes : plBytes s.cfg pl = some n)
    (hlen : n = 1 ∨ n = 2 ∨ n = 4) (hfits : pa.toNat % 4 + n ≤ 4) : configCheck pa pl s = .ok n := by
  simp only [configCheck, hidle, hnone, configLen_of_bytes hbytes hlen, regLane_eq, if_pos hfits]

end

/-! ### The bytes of a read beat (R233, R248) -/

@[simp] theorem length_bytesAt (m : List Host.Cell) (addr : BitVec 64) (n : Nat) : (bytesAt m addr n).length = n := by
  simp [bytesAt]

theorem getD_bytesAt (m : List Host.Cell) (addr : BitVec 64) {n i : Nat} (h : i < n) :
    (bytesAt m addr n).getD i 0 = byteAt m (addr + BitVec.ofNat 64 i) := by
  simp [bytesAt, List.getD, h]

/-- The window of the beat holds the bytes of the memory, lowest address first, and the rest is the filler. -/
theorem beatByte_insert_bytesAt (b : Beat) (off n : Nat) (m : List Host.Cell) (addr : BitVec 64) {i : Nat} (hi : i < 64) :
    beatByte (insertBytes b off (bytesAt m addr n)) i =
      if off ≤ i ∧ i < off + n then byteAt m (addr + BitVec.ofNat 64 (i - off)) else beatByte b i := by
  rw [beatByte_insertBytes _ _ _ hi, length_bytesAt]
  split
  case isTrue hwindow => exact getD_bytesAt m addr (by omega)
  case isFalse => rfl

theorem length_laneBytes {v : Word} {lane n : Nat} (h : lane + n ≤ 4) : (laneBytes v lane n).length = n := by
  simp only [laneBytes, List.length_take, List.length_drop, length_leBytes]
  omega

theorem getD_laneBytes {v : Word} {lane n i : Nat} (h : lane + n ≤ 4) (hi : i < n) :
    ((laneBytes v lane n).getD i 0).toNat = v.toNat / 256 ^ (lane + i) % 256 := by
  rw [← getD_leBytes 4 v.toNat (lane + i) (by omega)]
  simp [laneBytes, List.getD, hi]

/-- The window of the beat holds the bytes of the register's lane, and the rest is the filler. -/
theorem beatByte_insert_laneBytes (b : Beat) (off : Nat) (v : Word) {lane n i : Nat} (h : lane + n ≤ 4) (hi : i < 64) :
    (beatByte (insertBytes b off (laneBytes v lane n)) i).toNat =
      if off ≤ i ∧ i < off + n then v.toNat / 256 ^ (lane + (i - off)) % 256 else (beatByte b i).toNat := by
  rw [beatByte_insertBytes _ _ _ hi, length_laneBytes h, apply_ite BitVec.toNat]
  split
  case isTrue hwindow => exact getD_laneBytes h (by omega)
  case isFalse => rfl

/-! ### `pr_rd_mem` (R233) -/

/-- The state after `pr_rd_mem`, by the answer of its checks. -/
def partialReadState (ea : BitVec 64) (tag : BitVec 16) (pl : BitVec 3) (s : State) : Except FaultKind Nat → State
  | .error f => logFault f .prRdMem s
  | .ok n => { memRead ea n s with pm := { s.pm with
      state := .responsePending, cmd := partialCmd .read ea tag pl n,
      beat := insertBytes s.inp.pad (beatOffset ea).toNat (bytesAt s.mem ea n), retry := 0 } }

theorem exec_prRdMem (ea : BitVec 64) (tag : BitVec 16) (pl : BitVec 3) (s : State) :
    exec (.prRdMem ea tag pl) s = .next (partialReadState ea tag pl s (partialCheck ea pl s)) := by
  simp only [exec, execPrRdMem]
  cases partialCheck ea pl s <;> rfl

theorem partialReadState_frame (ea : BitVec 64) (tag : BitVec 16) (pl : BitVec 3) (s : State) (c : Except FaultKind Nat) :
    CommandFrame s (partialReadState ea tag pl s c) ∧ (partialReadState ea tag pl s c).cm = s.cm ∧
    (partialReadState ea tag pl s c).rdq = s.rdq ∧ (partialReadState ea tag pl s c).out.rdReqCount = s.out.rdReqCount := by
  cases c with
  | error f => exact ⟨commandFrame_of ⟨_, _, _, _, _, _, _, rfl⟩, rfl, rfl, rfl⟩
  | ok n => exact ⟨commandFrame_of ⟨_, _, _, _, _, _, _, rfl⟩, rfl, rfl, rfl⟩

/-- Settles O44: the three refusals only log, and the beat of an accepted command is the memory's bytes over the filler. -/
theorem partialReadFillsTheBeat : Obligations.PartialReadFillsTheBeat := by
  intro u s
  refine ⟨fun hclass => by simp only [decodeCommand, hclass], ?_⟩
  obtain ⟨hframe, hcm, hrdq, hcount⟩ := partialReadState_frame u.ea u.tag u.pl s (partialCheck u.ea u.pl s)
  refine ⟨_, exec_prRdMem u.ea u.tag u.pl s, hframe, hcm, hrdq, hcount, fun hbusy => ?busy, fun hidle hlen => ?length,
    fun n hidle hbytes hlen hcross => ?boundary, fun n hidle hbytes hlen hfits => ?accepted⟩
  case busy => rw [partialCheck_busy hbusy]; exact ⟨rfl, rfl, rfl, rfl⟩
  case length => rw [partialCheck_length hidle hlen]; exact ⟨rfl, rfl, rfl, rfl⟩
  case boundary => rw [partialCheck_boundary hidle hbytes hlen hcross]; exact ⟨rfl, rfl, rfl, rfl⟩
  case accepted =>
    rw [partialCheck_accepts hidle hbytes hlen hfits]
    refine ⟨⟨rfl, rfl⟩, rfl, rfl, rfl, rfl, rfl, rfl, rfl, beatOffset_toNat u.ea, rfl, rfl, fun i hi => ?_⟩
    rw [← beatOffset_toNat]
    exact beatByte_insert_bytesAt _ _ _ _ _ hi

/-! ### `pr_wr_mem` (R234) -/

/-- The state after `pr_wr_mem`, by the answer of its checks. -/
def partialWriteState (ea : BitVec 64) (tag : BitVec 16) (pl : BitVec 3) (s : State) : Except FaultKind Nat → State
  | .error f => logFault f .prWrMem s
  | .ok n => { requestData .pm s with pm := { s.pm with
      state := .awaitingData, cmd := partialCmd .write ea tag pl n, wait := 0, retry := 0 } }

theorem exec_prWrMem (ea : BitVec 64) (tag : BitVec 16) (pl : BitVec 3) (s : State) :
    exec (.prWrMem ea tag pl) s = .next (partialWriteState ea tag pl s (partialCheck ea pl s)) := by
  simp only [exec, execPrWrMem]
  cases partialCheck ea pl s <;> rfl

theorem partialWriteState_frame (ea : BitVec 64) (tag : BitVec 16) (pl : BitVec 3) (s : State) (c : Except FaultKind Nat) :
    CommandFrame s (partialWriteState ea tag pl s c) ∧ (partialWriteState ea tag pl s c).cm = s.cm ∧
    (partialWriteState ea tag pl s c).out.accesses = s.out.accesses := by
  cases c with
  | error f => exact ⟨commandFrame_of ⟨_, _, _, _, _, _, _, rfl⟩, rfl, rfl⟩
  | ok n => exact ⟨commandFrame_of ⟨_, _, _, _, _, _, _, rfl⟩, rfl, rfl⟩

/-- Settles O45: the three refusals only log, and an accepted command latches itself and requests its data. -/
theorem partialWriteAwaitsData : Obligations.PartialWriteAwaitsData := by
  intro u s
  refine ⟨fun hclass => by simp only [decodeCommand, hclass], ?_⟩
  obtain ⟨hframe, hcm, haccesses⟩ := partialWriteState_frame u.ea u.tag u.pl s (partialCheck u.ea u.pl s)
  refine ⟨_, exec_prWrMem u.ea u.tag u.pl s, hframe, hcm, haccesses, fun hbusy => ?busy, fun hidle hlen => ?length,
    fun n hidle hbytes hlen hcross => ?boundary, fun n hidle hbytes hlen hfits => ?accepted⟩
  case busy => rw [partialCheck_busy hbusy]; exact ⟨⟨rfl, rfl, rfl, rfl⟩, rfl, rfl⟩
  case length => rw [partialCheck_length hidle hlen]; exact ⟨⟨rfl, rfl, rfl, rfl⟩, rfl, rfl⟩
  case boundary => rw [partialCheck_boundary hidle hbytes hlen hcross]; exact ⟨⟨rfl, rfl, rfl, rfl⟩, rfl, rfl⟩
  case accepted =>
    rw [partialCheck_accepts hidle hbytes hlen hfits]
    exact ⟨⟨rfl, rfl⟩, rfl, rfl, rfl, rfl, rfl, rfl, rfl, rfl, beatOffset_toNat u.ea, rfl, rfl, rfl⟩

/-! ### `config_read` (R248) -/

/-- The state after `config_read`, by the answer of its checks. -/
def configReadState (pa : BitVec 64) (tag : BitVec 16) (s : State) : Except FaultKind Nat → State
  | .error f => logFault f .configRead s
  | .ok n => { regRead (regOffset pa) s with cm := { s.cm with
      resp := some {
        record := readRecord s.cfg tag
        beat := some (insertBytes s.inp.pad (beatOffset pa).toNat (laneBytes (wordAt s.regs (regOffset pa)) (regLane pa) n)) }
      retry := 0 } }

theorem exec_configRead (pa : BitVec 64) (tag : BitVec 16) (pl : BitVec 3) (s : State) :
    exec (.configRead pa tag pl) s = .next (configReadState pa tag s (configCheck pa pl s)) := by
  simp only [exec, execConfigRead]
  cases configCheck pa pl s <;> rfl

theorem configReadState_frame (pa : BitVec 64) (tag : BitVec 16) (s : State) (c : Except FaultKind Nat) :
    CommandFrame s (configReadState pa tag s c) ∧ (configReadState pa tag s c).pm = s.pm ∧
    (configReadState pa tag s c).rdq = s.rdq ∧ (configReadState pa tag s c).out.rdReqCount = s.out.rdReqCount ∧
    (configReadState pa tag s c).cm.state = s.cm.state ∧ (configReadState pa tag s c).cm.cmd = s.cm.cmd ∧
    (configReadState pa tag s c).cm.wait = s.cm.wait := by
  cases c with
  | error f => exact ⟨commandFrame_of ⟨_, _, _, _, _, _, _, rfl⟩, rfl, rfl, rfl, rfl, rfl, rfl⟩
  | ok n => exact ⟨commandFrame_of ⟨_, _, _, _, _, _, _, rfl⟩, rfl, rfl, rfl, rfl, rfl, rfl⟩

/-- Settles O46: the three refusals only log, and the beat of an accepted command is the register's lane over the filler. -/
theorem configReadHoldsTheResponse : Obligations.ConfigReadHoldsTheResponse := by
  intro g s
  refine ⟨fun hclass => by simp only [decodeConfig, hclass], ?_⟩
  obtain ⟨hframe, hpm, hrdq, hcount, hstate, hcmd, hwait⟩ :=
    configReadState_frame g.pa g.tag s (configCheck g.pa g.pl s)
  refine ⟨_, exec_configRead g.pa g.tag g.pl s, hframe, hpm, hrdq, hcount, hstate, hcmd, hwait, fun hbusy => ?busy,
    fun hidle hnone hlen => ?length, fun n hidle hnone hbytes hlen hcross => ?boundary,
    fun n hidle hnone hbytes hlen hfits => ?accepted⟩
  case busy => rw [configCheck_busy hbusy]; exact ⟨rfl, rfl, rfl, rfl⟩
  case length => rw [configCheck_length hidle hnone hlen]; exact ⟨rfl, rfl, rfl, rfl⟩
  case boundary => rw [configCheck_boundary hidle hnone hbytes hlen hcross]; exact ⟨rfl, rfl, rfl, rfl⟩
  case accepted =>
    rw [configCheck_accepts hidle hnone hbytes hlen hfits]
    refine ⟨⟨rfl, rfl⟩, rfl, rfl, regOffset_toNat g.pa, _, rfl, fun i hi => ?_⟩
    rw [← beatOffset_toNat, ← regLane_eq]
    exact beatByte_insert_laneBytes _ _ _ (by rwa [regLane_eq]) hi

/-! ### `config_write` (R249) -/

/-- The state after `config_write`, by the answer of its checks. -/
def configWriteState (pa : BitVec 64) (tag : BitVec 16) (pl : BitVec 3) (s : State) : Except FaultKind Nat → State
  | .error f => logFault f .configWrite s
  | .ok n => { requestData .cm s with cm := { s.cm with
      state := .awaitingConfigData, cmd := { dir := .write, pa := pa, tag := tag, pl := pl, len := n }, wait := 0 } }

theorem exec_configWrite (pa : BitVec 64) (tag : BitVec 16) (pl : BitVec 3) (s : State) :
    exec (.configWrite pa tag pl) s = .next (configWriteState pa tag pl s (configCheck pa pl s)) := by
  simp only [exec, execConfigWrite]
  cases configCheck pa pl s <;> rfl

theorem configWriteState_frame (pa : BitVec 64) (tag : BitVec 16) (pl : BitVec 3) (s : State) (c : Except FaultKind Nat) :
    CommandFrame s (configWriteState pa tag pl s c) ∧ (configWriteState pa tag pl s c).pm = s.pm ∧
    (configWriteState pa tag pl s c).out.accesses = s.out.accesses ∧
    (configWriteState pa tag pl s c).cm.resp = s.cm.resp ∧ (configWriteState pa tag pl s c).cm.retry = s.cm.retry := by
  cases c with
  | error f => exact ⟨commandFrame_of ⟨_, _, _, _, _, _, _, rfl⟩, rfl, rfl, rfl, rfl⟩
  | ok n => exact ⟨commandFrame_of ⟨_, _, _, _, _, _, _, rfl⟩, rfl, rfl, rfl, rfl⟩

/-- Settles O47: the three refusals only log, and an accepted command latches itself and requests its beat. -/
theorem configWriteAwaitsData : Obligations.ConfigWriteAwaitsData := by
  intro g s
  refine ⟨fun hclass => by simp only [decodeConfig, hclass], ?_⟩
  obtain ⟨hframe, hpm, haccesses, hresp, hretry⟩ :=
    configWriteState_frame g.pa g.tag g.pl s (configCheck g.pa g.pl s)
  refine ⟨_, exec_configWrite g.pa g.tag g.pl s, hframe, hpm, haccesses, hresp, hretry, fun hbusy => ?busy,
    fun hidle hnone hlen => ?length, fun n hidle hnone hbytes hlen hcross => ?boundary,
    fun n hidle hnone hbytes hlen hfits => ?accepted⟩
  case busy => rw [configCheck_busy hbusy]; exact ⟨⟨rfl, rfl, rfl, rfl⟩, rfl, rfl⟩
  case length => rw [configCheck_length hidle hnone hlen]; exact ⟨⟨rfl, rfl, rfl, rfl⟩, rfl, rfl⟩
  case boundary => rw [configCheck_boundary hidle hnone hbytes hlen hcross]; exact ⟨⟨rfl, rfl, rfl, rfl⟩, rfl, rfl⟩
  case accepted =>
    rw [configCheck_accepts hidle hnone hbytes hlen hfits]
    exact ⟨⟨rfl, rfl⟩, rfl, rfl, rfl, rfl, rfl⟩

end Sys2Proof.Machine

/-! O48 and O49: emission. A response leaves with its credits, or the attempt is counted; each machine's attempt is one of the two. -/

namespace Sys2Proof.Machine

/-! ### What an emission leaves as it was -/

/-- `t` is `s` but for the machines, the pools, the signals and the records. -/
def ChangesByEmission (s t : State) : Prop :=
  ∃ pm cm pools sigs ev diag outDiag, t = { s with
    pm := pm, cm := cm, pools := pools, sigs := sigs, diag := diag, out := { s.out with ev := ev, diag := outDiag } }

theorem ChangesByEmission.frame {s t : State} (h : ChangesByEmission s t) : KeepsSession s t ∧ KeepsTags s t ∧
    KeepsQueues s t ∧ KeepsStorage s t ∧ t.out.res = s.out.res ∧ t.rdq = s.rdq ∧ t.out.rdReqCount = s.out.rdReqCount := by
  obtain ⟨pm, cm, pools, sigs, ev, diag, outDiag, rfl⟩ := h
  exact ⟨⟨rfl, rfl, rfl, rfl, rfl, rfl, rfl, rfl, rfl, rfl⟩, ⟨fun _ => rfl, rfl, rfl⟩, ⟨fun _ => rfl, fun _ => rfl⟩,
    ⟨fun _ => rfl, fun _ => rfl, rfl⟩, rfl, rfl, rfl⟩

/-! ### Sending a response (R241) -/

/-- A sent response changes pools and signals alone. -/
theorem sendResponse_fields (p : RespRec) (beat : Option Beat) (s : State) : ∃ pools sigs ev,
    sendResponse p beat s = { s with pools := pools, sigs := sigs, out := { s.out with ev := ev } } := by
  cases beat with
  | none => exact ⟨_, _, _, rfl⟩
  | some b => exact ⟨_, _, _, rfl⟩

@[simp] theorem sendResponse_pm (p : RespRec) (beat : Option Beat) (s : State) : (sendResponse p beat s).pm = s.pm := by
  cases beat <;> rfl

@[simp] theorem sendResponse_cm (p : RespRec) (beat : Option Beat) (s : State) : (sendResponse p beat s).cm = s.cm := by
  cases beat <;> rfl

theorem sendResponse_notLogged (p : RespRec) (beat : Option Beat) (s : State) : NotLogged s (sendResponse p beat s) := by
  cases beat <;> exact ⟨rfl, rfl⟩

/-- A response without a beat takes one credit and drives one signal. -/
theorem sendResponse_none {s : State} (h : hasCredit .resp s = true) (p : RespRec) :
    TookCredit .resp s (sendResponse p none s) ∧ Drove (.resp p) s (sendResponse p none s) :=
  ⟨tookCredit_takeCredit h, rfl, rfl⟩

/-- A response with a beat takes a credit and drives a signal for each, the response first. -/
theorem sendResponse_some {s : State} (h : hasCredit .resp s = true) (hdata : hasCredit .respData s = true) (p : RespRec)
    (b : Beat) : ∃ m, TookCredit .resp s m ∧ TookCredit .respData m (sendResponse p (some b) s) ∧ m.cfg = s.cfg ∧
      Drove (.resp p) s m ∧ Drove (.respData { bad := false, data := b }) m (sendResponse p (some b) s) :=
  ⟨drive (.resp p) (takeCredit .resp s), tookCredit_takeCredit h,
    tookCredit_takeCredit (k := .respData) (s := drive (.resp p) (takeCredit .resp s)) hdata, rfl, ⟨rfl, rfl⟩, rfl, rfl⟩

/-! ### The partial machine (R241, R242) -/

theorem pmOp_eq (d : AccessDir) : pmOp d = if d = .read then .prRdMem else .prWrMem := by cases d <;> rfl

theorem pmBeat_isSome_iff (s : State) : (pmBeat s).isSome = true ↔ s.pm.cmd.dir = .read := by
  cases h : s.pm.cmd.dir <;> simp [pmBeat, h]

/-- The resources of the partial machine's response: a read needs those of its beat too. -/
theorem canEmit_pm_iff (s : State) : canEmit (pmBeat s).isSome s = true ↔
    canDrive .respV s = true ∧ 0 < (s.pools.get .resp).avail.toNat ∧
    (s.pm.cmd.dir = .read → canDrive .respDataV s = true ∧ 0 < (s.pools.get .respData).avail.toNat) := by
  rw [canEmit_iff, hasCredit_iff, hasCredit_iff, pmBeat_isSome_iff]

theorem emitPm_absent {s : State} (h : s.pm.state ≠ .responsePending) : emitPm s = s := by
  cases hstate : s.pm.state with
  | responsePending => exact absurd hstate h
  | idle => simp only [emitPm, hstate]
  | awaitingData => simp only [emitPm, hstate]

theorem emitPm_sends {s : State} (hpending : s.pm.state = .responsePending) (h : canEmit (pmBeat s).isSome s = true) :
    emitPm s = { sendResponse (pmRecord s) (pmBeat s) s with pm := { s.pm with state := .idle } } := by
  simp only [emitPm, hpending, if_pos h, sendResponse_pm]

theorem emitPm_retries {s : State} (hpending : s.pm.state = .responsePending) (h : ¬ canEmit (pmBeat s).isSome s = true) :
    emitPm s = retryPm s := by
  simp only [emitPm, hpending, if_neg h]

/-- Below the bound the attempt is only counted. -/
theorem retryPm_counts {s : State} (h : s.pm.retry + 1 ≤ s.cfg.maxCreditRetry) :
    retryPm s = { s with pm := { s.pm with retry := s.pm.retry + 1 } } :=
  if_neg (Nat.not_lt_of_le h)

/-- Past the bound the transfer is aborted. -/
theorem retryPm_starves {s : State} (h : s.cfg.maxCreditRetry < s.pm.retry + 1) :
    retryPm s = { logFault .creditStarvation (pmOp s.pm.cmd.dir) s with
      pm := { s.pm with state := .idle, retry := s.pm.retry + 1 } } :=
  if_pos h

/-- A failed attempt of the partial machine touches no pool and no signal and counts one retry. -/
theorem retryPm_fields (s : State) : ∃ state diag outDiag, retryPm s = { s with
    pm := { s.pm with state := state, retry := s.pm.retry + 1 }, diag := diag, out := { s.out with diag := outDiag } } := by
  by_cases h : s.pm.retry + 1 ≤ s.cfg.maxCreditRetry
  · exact ⟨_, _, _, retryPm_counts h⟩
  · exact ⟨_, _, _, retryPm_starves (Nat.lt_of_not_le h)⟩

/-- Of the machines an emission of the partial machine changes its own state and retry count alone. -/
theorem emitPm_fields (s : State) : ChangesByEmission s (emitPm s) ∧ (emitPm s).cm = s.cm ∧ ∃ state retry,
    (emitPm s).pm = { s.pm with state := state, retry := retry } := by
  by_cases hpending : s.pm.state = .responsePending
  · by_cases h : canEmit (pmBeat s).isSome s = true
    · obtain ⟨pools, sigs, ev, hsend⟩ := sendResponse_fields (pmRecord s) (pmBeat s) s
      rw [emitPm_sends hpending h, hsend]
      exact ⟨⟨_, _, _, _, _, _, _, rfl⟩, rfl, _, _, rfl⟩
    · obtain ⟨state, diag, outDiag, hretry⟩ := retryPm_fields s
      rw [emitPm_retries hpending h, hretry]
      exact ⟨⟨_, _, _, _, _, _, _, rfl⟩, rfl, _, _, rfl⟩
  · rw [emitPm_absent hpending]
    exact ⟨⟨_, _, _, _, _, _, _, rfl⟩, rfl, _, _, rfl⟩

/-- Settles O48: with every resource the response is sent, with one missing the attempt is counted. -/
theorem partialResponseLeavesWholeOrNotAtAll : Obligations.PartialResponseLeavesWholeOrNotAtAll := by
  intro s hpending t ok
  have hok : canEmit (pmBeat s).isSome s = true ↔ ok := canEmit_pm_iff s
  have hsends : ok → t = { sendResponse (pmRecord s) (pmBeat s) s with pm := { s.pm with state := .idle } } :=
    fun h => emitPm_sends hpending (hok.2 h)
  obtain ⟨hchanges, hcm, state, retry, hpm⟩ := emitPm_fields s
  obtain ⟨hsession, htags, hqueues, hstorage, hres, hrdq, hcount⟩ := hchanges.frame
  refine ⟨hsession, htags, hqueues, hstorage, hres, hcm, hrdq, hcount, by rw [hpm], by rw [hpm], by rw [hpm],
    fun h => by rw [hsends h], fun h hdir => ?write, fun h hdir => ?read, fun h => ?retry⟩
  case write =>
    have hrecord : pmRecord s = writeRecord s.cfg s.pm.cmd.tag := by simp only [pmRecord, hdir]
    have hbeat : pmBeat s = none := by simp only [pmBeat, hdir]
    rw [hsends h, hrecord, hbeat]
    exact ⟨sendResponse_notLogged _ none s, rfl, sendResponse_none ((hasCredit_iff _ s).2 h.2.1) _⟩
  case read =>
    have hrecord : pmRecord s = readRecord s.cfg s.pm.cmd.tag := by simp only [pmRecord, hdir]
    have hbeat : pmBeat s = some s.pm.beat := by simp only [pmBeat, hdir]
    rw [hsends h, hrecord, hbeat]
    obtain ⟨-, hcredit, hdata⟩ := h
    exact ⟨sendResponse_notLogged _ (some s.pm.beat) s, rfl,
      sendResponse_some ((hasCredit_iff _ s).2 hcredit) ((hasCredit_iff _ s).2 (hdata hdir).2) _ _⟩
  case retry =>
    have ht : t = retryPm s := emitPm_retries hpending fun hemit => h (hok.1 hemit)
    obtain ⟨state, diag, outDiag, hretry⟩ := retryPm_fields s
    refine ⟨?_, ?_, ?_, fun hbound => ?_, fun hpast => ?_⟩
    · rw [ht, hretry]; exact fun _ => rfl
    · rw [ht, hretry]; exact ⟨rfl, rfl⟩
    · rw [ht, hretry]
    · rw [ht, retryPm_counts hbound]; exact ⟨hpending, rfl, rfl⟩
    · rw [ht, retryPm_starves hpast, ← pmOp_eq]; exact ⟨rfl, rfl, rfl⟩

/-! ### The configuration machine (R241, R242) -/

/-- The command a starvation record names is told from the held response (log 15). -/
theorem cmOp_respDir (r : CmResp) : cmOp (respDir r) = if r.beat ≠ none then .configRead else .configWrite := by
  cases h : r.beat <;> simp [respDir, cmOp, h]

/-- The resources of a held response: one with a beat needs those of its beat too. -/
theorem canEmit_cm_iff (r : CmResp) (s : State) : canEmit r.beat.isSome s = true ↔
    canDrive .respV s = true ∧ 0 < (s.pools.get .resp).avail.toNat ∧
    (r.beat ≠ none → canDrive .respDataV s = true ∧ 0 < (s.pools.get .respData).avail.toNat) := by
  rw [canEmit_iff, hasCredit_iff, hasCredit_iff, Option.isSome_iff_ne_none]

theorem emitCm_absent {s : State} (h : s.cm.resp = none) : emitCm s = s := by simp only [emitCm, h]

theorem emitCm_sends {s : State} {r : CmResp} (hresp : s.cm.resp = some r) (h : canEmit r.beat.isSome s = true) :
    emitCm s = { sendResponse r.record r.beat s with cm := { s.cm with resp := none } } := by
  simp only [emitCm, hresp, if_pos h, sendResponse_cm]

theorem emitCm_retries {s : State} {r : CmResp} (hresp : s.cm.resp = some r) (h : ¬ canEmit r.beat.isSome s = true) :
    emitCm s = retryCm r s := by
  simp only [emitCm, hresp, if_neg h]

/-- Below the bound the attempt is only counted. -/
theorem retryCm_counts {s : State} (r : CmResp) (h : s.cm.retry + 1 ≤ s.cfg.maxCreditRetry) :
    retryCm r s = { s with cm := { s.cm with retry := s.cm.retry + 1 } } :=
  if_neg (Nat.not_lt_of_le h)

/-- Past the bound the held response is dropped. -/
theorem retryCm_starves {s : State} (r : CmResp) (h : s.cfg.maxCreditRetry < s.cm.retry + 1) :
    retryCm r s = { logFault .creditStarvation (cmOp (respDir r)) s with
      cm := { s.cm with resp := none, retry := s.cm.retry + 1 } } :=
  if_pos h

/-- A failed attempt of the configuration machine touches no pool and no signal and counts one retry. -/
theorem retryCm_fields (r : CmResp) (s : State) : ∃ resp diag outDiag, retryCm r s = { s with
    cm := { s.cm with resp := resp, retry := s.cm.retry + 1 }, diag := diag, out := { s.out with diag := outDiag } } := by
  by_cases h : s.cm.retry + 1 ≤ s.cfg.maxCreditRetry
  · exact ⟨_, _, _, retryCm_counts r h⟩
  · exact ⟨_, _, _, retryCm_starves r (Nat.lt_of_not_le h)⟩

/-- Of the machines an emission of the configuration machine changes its own held response and retry count alone. -/
theorem emitCm_fields (s : State) : ChangesByEmission s (emitCm s) ∧ (emitCm s).pm = s.pm ∧ ∃ resp retry,
    (emitCm s).cm = { s.cm with resp := resp, retry := retry } := by
  cases hresp : s.cm.resp with
  | none =>
    rw [emitCm_absent hresp]
    exact ⟨⟨_, _, _, _, _, _, _, rfl⟩, rfl, _, _, rfl⟩
  | some r =>
    by_cases h : canEmit r.beat.isSome s = true
    · obtain ⟨pools, sigs, ev, hsend⟩ := sendResponse_fields r.record r.beat s
      rw [emitCm_sends hresp h, hsend]
      exact ⟨⟨_, _, _, _, _, _, _, rfl⟩, rfl, _, _, rfl⟩
    · obtain ⟨resp, diag, outDiag, hretry⟩ := retryCm_fields r s
      rw [emitCm_retries hresp h, hretry]
      exact ⟨⟨_, _, _, _, _, _, _, rfl⟩, rfl, _, _, rfl⟩

/-- Settles O49: with every resource the held response is sent, with one missing the attempt is counted. -/
theorem configResponseLeavesWholeOrNotAtAll : Obligations.ConfigResponseLeavesWholeOrNotAtAll := by
  intro s r hresp t ok
  have hok : canEmit r.beat.isSome s = true ↔ ok := canEmit_cm_iff r s
  have hsends : ok → t = { sendResponse r.record r.beat s with cm := { s.cm with resp := none } } :=
    fun h => emitCm_sends hresp (hok.2 h)
  obtain ⟨hchanges, hpm, resp, retry, hcm⟩ := emitCm_fields s
  obtain ⟨hsession, htags, hqueues, hstorage, hres, hrdq, hcount⟩ := hchanges.frame
  refine ⟨hsession, htags, hqueues, hstorage, hres, hpm, hrdq, hcount, by rw [hcm], by rw [hcm], by rw [hcm],
    fun h => by rw [hsends h], fun h hbeat => ?write, fun b h hbeat => ?read, fun h => ?retry⟩
  case write =>
    rw [hsends h, hbeat]
    exact ⟨sendResponse_notLogged _ none s, rfl, sendResponse_none ((hasCredit_iff _ s).2 h.2.1) _⟩
  case read =>
    rw [hsends h, hbeat]
    obtain ⟨-, hcredit, hdata⟩ := h
    obtain ⟨-, hcreditData⟩ := hdata (by simp [hbeat])
    exact ⟨sendResponse_notLogged _ (some b) s, rfl,
      sendResponse_some ((hasCredit_iff _ s).2 hcredit) ((hasCredit_iff _ s).2 hcreditData) _ _⟩
  case retry =>
    have ht : t = retryCm r s := emitCm_retries hresp fun hemit => h (hok.1 hemit)
    obtain ⟨resp, diag, outDiag, hretry⟩ := retryCm_fields r s
    refine ⟨?_, ?_, ?_, fun hbound => ?_, fun hpast => ?_⟩
    · rw [ht, hretry]; exact fun _ => rfl
    · rw [ht, hretry]; exact ⟨rfl, rfl⟩
    · rw [ht, hretry]
    · rw [ht, retryCm_counts r hbound]; exact ⟨hresp, rfl, rfl⟩
    · rw [ht, retryCm_starves r hpast, ← cmOp_respDir]; exact ⟨rfl, rfl, rfl⟩

end Sys2Proof.Machine

/-! O50 to O54: the data dispatch, the data phases and timeouts of both machines, and the bytes a configuration read finds after a
configuration write. -/

namespace Sys2Proof.Machine

/-! ### Data dispatch (R238) -/

theorem dispatchData_served {s : State} {m : MachineId} {ms : List MachineId} (hvalid : s.inp.cmdData.valid = true)
    (hrdq : s.rdq = m :: ms) : dispatchData s = { s with rdq := ms } := by
  simp only [dispatchData, if_pos hvalid, hrdq]

theorem dispatchData_unexpected {s : State} (hvalid : s.inp.cmdData.valid = true) (hrdq : s.rdq = []) :
    dispatchData s = logFault .unexpectedData .seq s := by
  simp only [dispatchData, if_pos hvalid, hrdq]

theorem dispatchData_absent {s : State} (h : s.inp.cmdData.valid = false) : dispatchData s = s := if_neg (by simp [h])

/-- The dispatch changes the order queue and the records alone. -/
theorem dispatchData_fields (s : State) : ∃ rdq diag outDiag,
    dispatchData s = { s with rdq := rdq, diag := diag, out := { s.out with diag := outDiag } } := by
  cases hvalid : s.inp.cmdData.valid with
  | false => exact ⟨_, _, _, dispatchData_absent hvalid⟩
  | true =>
    cases hrdq : s.rdq with
    | nil => exact ⟨_, _, _, dispatchData_unexpected hvalid hrdq⟩
    | cons m ms => exact ⟨_, _, _, dispatchData_served hvalid hrdq⟩

/-- Settles O50: a beat that is served, one that is unexpected, and no beat. -/
theorem beatGoesToTheOldestRequest : Obligations.BeatGoesToTheOldestRequest := by
  intro s
  obtain ⟨rdq, diag, outDiag, hfields⟩ := dispatchData_fields s
  refine ⟨fun m ms hvalid hrdq => ?served, fun hvalid hrdq => ?unexpected, fun hvalid => ?absent, ?_⟩
  case served =>
    rw [dispatchData_served hvalid hrdq]
    exact ⟨by simp [delivery, hvalid, hrdq], rfl, rfl, rfl⟩
  case unexpected =>
    rw [dispatchData_unexpected hvalid hrdq]
    exact ⟨by simp [delivery, hrdq], hrdq, rfl, rfl⟩
  case absent => exact ⟨by simp [delivery, hvalid], dispatchData_absent hvalid⟩
  rw [hfields]
  exact ⟨commandFrame_of ⟨_, _, _, _, _, _, _, rfl⟩, rfl, rfl, rfl, rfl⟩

/-! ### What a data phase or a timeout leaves as it was -/

/-- `t` is `s` but for the machines, the order queue, the storage with its accesses, and the records. -/
def ChangesByDataPhase (s t : State) : Prop :=
  ∃ pm cm rdq mem regs diag outDiag accesses, t = { s with
    pm := pm, cm := cm, rdq := rdq, mem := mem, regs := regs, diag := diag,
    out := { s.out with diag := outDiag, accesses := accesses } }

theorem ChangesByDataPhase.frame {s t : State} (h : ChangesByDataPhase s t) : KeepsSession s t ∧ KeepsPools s t ∧
    KeepsTags s t ∧ KeepsQueues s t ∧ KeepsSignals s t ∧ t.out.res = s.out.res ∧ t.out.rdReqCount = s.out.rdReqCount := by
  obtain ⟨pm, cm, rdq, mem, regs, diag, outDiag, accesses, rfl⟩ := h
  exact ⟨⟨rfl, rfl, rfl, rfl, rfl, rfl, rfl, rfl, rfl, rfl⟩, fun _ => rfl, ⟨fun _ => rfl, rfl, rfl⟩,
    ⟨fun _ => rfl, fun _ => rfl⟩, ⟨rfl, rfl⟩, rfl, rfl⟩

/-! ### The partial machine's data phase (R236, R239) -/

theorem stepPm_delivered {s : State} (h : s.pm.state = .awaitingData) :
    stepPm (some .pm) s = pmData s.inp.cmdData.body s := by
  simp only [stepPm, h, if_true]

theorem pmData_good {d : DataRec} (h : d.bad = false) (s : State) :
    pmData d s = { memWrite s.pm.cmd.addr (extractBytes d.data s.pm.cmd.off.toNat s.pm.cmd.len) s with
      pm := { s.pm with state := .responsePending, retry := 0 } } :=
  if_neg (by simp [h])

theorem pmData_bad {d : DataRec} (h : d.bad = true) (s : State) :
    pmData d s = { logFault .badDataIndicator (pmOp s.pm.cmd.dir) s with pm := { s.pm with state := .idle } } :=
  if_pos h

/-- Beside the memory and the records a beat changes the partial machine's state and retry count alone. -/
theorem pmData_fields (d : DataRec) (s : State) : ∃ state retry mem diag outDiag accesses, pmData d s = { s with
    pm := { s.pm with state := state, retry := retry }, mem := mem, diag := diag,
    out := { s.out with diag := outDiag, accesses := accesses } } := by
  cases h : d.bad with
  | false => exact ⟨_, _, _, _, _, _, pmData_good h s⟩
  | true => exact ⟨_, _, _, _, _, _, pmData_bad h s⟩

/-- Settles O51: a good beat writes its window, a bad one only logs. -/
theorem partialWriteStoresTheWindow : Obligations.PartialWriteStoresTheWindow := by
  intro s hwaits hwindow d t
  have ht : t = pmData d s := stepPm_delivered hwaits
  obtain ⟨state, retry, mem, diag, outDiag, accesses, hfields⟩ := pmData_fields d s
  have hchanges : ChangesByDataPhase s t := ⟨_, _, _, _, _, _, _, _, ht.trans hfields⟩
  obtain ⟨hsession, hpools, htags, hqueues, hsignals, hres, hcount⟩ := hchanges.frame
  have hmachine : t.cm = s.cm ∧ t.rdq = s.rdq ∧ t.regs = s.regs ∧ t.pm.cmd = s.pm.cmd ∧ t.pm.beat = s.pm.beat ∧
      t.pm.wait = s.pm.wait := by rw [ht, hfields]; exact ⟨rfl, rfl, rfl, rfl, rfl, rfl⟩
  obtain ⟨hcm, hrdq, hregs, hcmd, hbeat, hwait⟩ := hmachine
  refine ⟨hsession, hpools, htags, hqueues, hsignals, hres, hcm, hrdq, hcount, fun o => by rw [hregs], hcmd, hbeat, hwait,
    fun hgood => ?good, fun hbad => ?bad⟩
  case good =>
    rw [ht, pmData_good hgood]
    refine ⟨⟨rfl, rfl⟩, rfl, rfl, fun i hi => ?_, fun a ha => ?_, _, length_extractBytes _ _ _, rfl⟩
    · exact (byteAt_writeBytes_inside _ _ _ (by rw [length_extractBytes]; omega) (by rwa [length_extractBytes])).trans
        (getD_extractBytes _ _ hi)
    · exact byteAt_writeBytes_outside _ _ _ _ (by rwa [length_extractBytes])
  case bad =>
    rw [ht, pmData_bad hbad, ← pmOp_eq]
    exact ⟨⟨rfl, rfl⟩, rfl, rfl, fun _ => rfl, fun _ => rfl, rfl⟩

/-! ### The configuration machine's data phase (R236, R251) -/

theorem stepCm_delivered {s : State} (h : s.cm.state = .awaitingConfigData) :
    stepCm (some .cm) s = cmData s.inp.cmdData.body s := by
  simp only [stepCm, h, if_true]

/-- The word a good beat leaves in the addressed register. -/
def deliveredWord (d : DataRec) (s : State) : Word :=
  mergedWord (wordAt s.regs (regOffset s.cm.cmd.pa)) (regLane s.cm.cmd.pa)
    (extractBytes d.data (beatOffset s.cm.cmd.pa).toNat s.cm.cmd.len)

/-- The window's bytes are the beat's, the others the register's. -/
theorem deliveredWord_byte (d : DataRec) {s : State} (hlane : s.cm.cmd.pa.toNat % 4 + s.cm.cmd.len ≤ 4) {j : Nat} (hj : j < 4) :
    (deliveredWord d s).toNat / 256 ^ j % 256 =
      if s.cm.cmd.pa.toNat % 4 ≤ j ∧ j < s.cm.cmd.pa.toNat % 4 + s.cm.cmd.len
      then (beatByte d.data (s.cm.cmd.pa.toNat % 64 + (j - s.cm.cmd.pa.toNat % 4))).toNat
      else (wordAt s.regs (regOffset s.cm.cmd.pa)).toNat / 256 ^ j % 256 := by
  rw [deliveredWord, regLane_eq, beatOffset_toNat, mergedWord_byte _ _ _ (by rwa [length_extractBytes]) j hj,
    length_extractBytes]
  split
  case isTrue hwindow => rw [getD_extractBytes _ _ (by omega)]
  case isFalse => rfl

/-- A narrow write reads the register before it writes it, a full one only writes it. -/
theorem cmData_good {d : DataRec} (h : d.bad = false) (s : State) :
    cmData d s = { s with
      regs := insertAt (regOffset s.cm.cmd.pa).toNat (deliveredWord d s) s.regs
      cm := { s.cm with
        state := .idle, resp := some { record := writeRecord s.cfg s.cm.cmd.tag, beat := none }, retry := 0 }
      out := { s.out with accesses := s.out.accesses ++
        (if s.cm.cmd.len = 4 then [] else [.regRead (regOffset s.cm.cmd.pa)]) ++
        [.regWrite (regOffset s.cm.cmd.pa) (deliveredWord d s)] } } := by
  by_cases hlen : s.cm.cmd.len = 4
  · simp [cmData, h, hlen, regWrite, noteAccess, deliveredWord]
  · simp [cmData, h, hlen, regWrite, regRead, noteAccess, deliveredWord]

theorem cmData_bad {d : DataRec} (h : d.bad = true) (s : State) :
    cmData d s = { logFault .badDataIndicator (cmOp s.cm.cmd.dir) s with cm := { s.cm with state := .idle } } :=
  if_pos h

theorem cmOp_eq (d : AccessDir) : cmOp d = if d = .read then .configRead else .configWrite := by cases d <;> rfl

/-- Beside the registers and the records a beat ends the configuration machine's wait and changes its held response and retry count
alone. -/
theorem cmData_fields (d : DataRec) (s : State) : ∃ resp retry regs diag outDiag accesses, cmData d s = { s with
    cm := { s.cm with state := .idle, resp := resp, retry := retry }, regs := regs, diag := diag,
    out := { s.out with diag := outDiag, accesses := accesses } } := by
  cases h : d.bad with
  | false => exact ⟨_, _, _, _, _, _, cmData_good h s⟩
  | true => exact ⟨_, _, _, _, _, _, cmData_bad h s⟩

/-- Settles O52: a good beat writes the addressed register, a bad one only logs. -/
theorem configWriteMergesTheLane : Obligations.ConfigWriteMergesTheLane := by
  intro s hwaits hlane d g t
  have ht : t = cmData d s := stepCm_delivered hwaits
  obtain ⟨resp, retry, regs, diag, outDiag, accesses, hfields⟩ := cmData_fields d s
  have hchanges : ChangesByDataPhase s t := ⟨_, _, _, _, _, _, _, _, ht.trans hfields⟩
  obtain ⟨hsession, hpools, htags, hqueues, hsignals, hres, hcount⟩ := hchanges.frame
  have hmachine : t.pm = s.pm ∧ t.rdq = s.rdq ∧ t.mem = s.mem ∧ t.cm.state = .idle ∧ t.cm.cmd = s.cm.cmd ∧
      t.cm.wait = s.cm.wait := by rw [ht, hfields]; exact ⟨rfl, rfl, rfl, rfl, rfl, rfl⟩
  obtain ⟨hpm, hrdq, hmem, hidle, hcmd, hwait⟩ := hmachine
  refine ⟨hsession, hpools, htags, hqueues, hsignals, hres, hpm, hrdq, hcount, fun a => by rw [hmem], hidle, hcmd, hwait,
    fun hgood => ?good, fun hbad => ?bad⟩
  case good =>
    rw [ht, cmData_good hgood]
    dsimp only
    rw [wordAt_insertAt_self]
    exact ⟨⟨rfl, rfl⟩, rfl, rfl, fun j hj => deliveredWord_byte d hlane hj, fun o ho => wordAt_insertAt_ne ho _ _, rfl⟩
  case bad =>
    rw [ht, cmData_bad hbad, ← cmOp_eq]
    exact ⟨⟨rfl, rfl⟩, rfl, rfl, fun _ => rfl, fun _ => rfl, rfl⟩

/-- Settles O54: the read's beat is made of the register's lane, and the lane is what the write's beat left there. -/
theorem configWriteThenReadReturnsTheBytes : Obligations.ConfigWriteThenReadReturnsTheBytes := by
  intro pa wtag rtag pl n s hidle hnone hbytes hlen hlane
  have hwrite : exec (.configWrite pa wtag pl) s = .next (configWriteState pa wtag pl s (.ok n)) := by
    rw [exec_configWrite, configCheck_accepts hidle hnone hbytes hlen hlane]
  refine ⟨_, hwrite, fun v hwaits hcmd _ hgood u hregs hcfg huidle hunone => ?_⟩
  have hread : exec (.configRead pa rtag pl) u = .next (configReadState pa rtag u (.ok n)) := by
    rw [exec_configRead, configCheck_accepts huidle hunone (hcfg ▸ hbytes) hlen hlane]
  refine ⟨_, _, _, hread, rfl, rfl, fun i hi => BitVec.eq_of_toNat_eq ?_⟩
  have hpa : v.cm.cmd.pa = pa := congrArg CmCmd.pa hcmd
  have hvlen : v.cm.cmd.len = n := congrArg CmCmd.len hcmd
  have hword : wordAt u.regs (regOffset pa) = deliveredWord v.inp.cmdData.body v := by
    rw [hregs, stepCm_delivered hwaits, cmData_good hgood, ← hpa]
    exact wordAt_insertAt_self _ _ _
  have hbyte := deliveredWord_byte v.inp.cmdData.body (s := v) (j := pa.toNat % 4 + i)
    (by rwa [hpa, hvlen]) (by omega)
  rw [hpa, hvlen, if_pos (by omega), Nat.add_sub_cancel_left] at hbyte
  rw [beatByte_insert_laneBytes _ _ _ (by rwa [regLane_eq]) (by omega), beatOffset_toNat, regLane_eq, if_pos (by omega),
    Nat.add_sub_cancel_left, hword, hbyte]

/-! ### The timeouts (R240) -/

section
variable {s : State} {d : Option MachineId}

theorem stepPm_waits (hwaits : s.pm.state = .awaitingData) (hd : d ≠ some .pm) : stepPm d s = pmWait s := by
  simp only [stepPm, hwaits, if_neg hd]

theorem pmWait_below (h : s.pm.wait + 1 < s.cfg.dataTimeout) :
    pmWait s = { s with pm := { s.pm with wait := s.pm.wait + 1 } } :=
  if_neg (Nat.not_le_of_lt h)

theorem pmWait_timeout (h : s.cfg.dataTimeout ≤ s.pm.wait + 1) :
    pmWait s = { cancelRequest .pm (logFault .dataPhaseTimeout (pmOp s.pm.cmd.dir) s) with
      pm := { s.pm with state := .idle, wait := s.pm.wait + 1 } } :=
  if_pos h

theorem stepCm_waits (hwaits : s.cm.state = .awaitingConfigData) (hd : d ≠ some .cm) : stepCm d s = cmWait s := by
  simp only [stepCm, hwaits, if_neg hd]

theorem cmWait_below (h : s.cm.wait + 1 < s.cfg.dataTimeout) :
    cmWait s = { s with cm := { s.cm with wait := s.cm.wait + 1 } } :=
  if_neg (Nat.not_le_of_lt h)

theorem cmWait_timeout (h : s.cfg.dataTimeout ≤ s.cm.wait + 1) :
    cmWait s = { cancelRequest .cm (logFault .dataPhaseTimeout (cmOp s.cm.cmd.dir) s) with
      cm := { s.cm with state := .idle, wait := s.cm.wait + 1 } } :=
  if_pos h

end

/-- A tick without a beat counts the partial machine's wait; beside it, only its state, the order queue and the records can change. -/
theorem pmWait_fields (s : State) : ∃ state rdq diag outDiag, pmWait s = { s with
    pm := { s.pm with state := state, wait := s.pm.wait + 1 }, rdq := rdq, diag := diag,
    out := { s.out with diag := outDiag } } := by
  by_cases h : s.cfg.dataTimeout ≤ s.pm.wait + 1
  · exact ⟨_, _, _, _, pmWait_timeout h⟩
  · exact ⟨_, _, _, _, pmWait_below (Nat.lt_of_not_le h)⟩

/-- A tick without a beat counts the configuration machine's wait; beside it, only its state, the order queue and the records can
change. -/
theorem cmWait_fields (s : State) : ∃ state rdq diag outDiag, cmWait s = { s with
    cm := { s.cm with state := state, wait := s.cm.wait + 1 }, rdq := rdq, diag := diag,
    out := { s.out with diag := outDiag } } := by
  by_cases h : s.cfg.dataTimeout ≤ s.cm.wait + 1
  · exact ⟨_, _, _, _, cmWait_timeout h⟩
  · exact ⟨_, _, _, _, cmWait_below (Nat.lt_of_not_le h)⟩

/-- Settles O53: for each machine, what its wait can change, and the two sides of the timeout. -/
theorem waitingEndsAtTheTimeout : Obligations.WaitingEndsAtTheTimeout := by
  intro s d
  refine ⟨fun hwaits hd => ?pm, fun hwaits hd => ?cm⟩
  case pm =>
    intro t
    have ht : t = pmWait s := stepPm_waits hwaits hd
    obtain ⟨state, rdq, diag, outDiag, hfields⟩ := pmWait_fields s
    have hchanges : ChangesByDataPhase s t := ⟨_, _, _, _, _, _, _, _, ht.trans hfields⟩
    obtain ⟨hsession, hpools, htags, hqueues, hsignals, hres, hcount⟩ := hchanges.frame
    have hmachine : t.pm.wait = s.pm.wait + 1 ∧ t.pm.cmd = s.pm.cmd ∧ t.pm.beat = s.pm.beat ∧ t.pm.retry = s.pm.retry ∧
        t.cm = s.cm ∧ KeepsStorage s t := by
      rw [ht, hfields]; exact ⟨rfl, rfl, rfl, rfl, rfl, fun _ => rfl, fun _ => rfl, rfl⟩
    obtain ⟨hwait, hcmd, hbeat, hretry, hcm, hstorage⟩ := hmachine
    refine ⟨hwait, hcmd, hbeat, hretry, hcm, hcount, hres, hsession, hpools, htags, hqueues, hsignals, hstorage,
      fun hbelow => ?_, fun htimeout => ?_⟩
    · rw [ht, pmWait_below hbelow]; exact ⟨hwaits, rfl, rfl, rfl⟩
    · rw [ht, pmWait_timeout htimeout, ← pmOp_eq]; exact ⟨rfl, rfl, rfl, rfl⟩
  case cm =>
    intro t
    have ht : t = cmWait s := stepCm_waits hwaits hd
    obtain ⟨state, rdq, diag, outDiag, hfields⟩ := cmWait_fields s
    have hchanges : ChangesByDataPhase s t := ⟨_, _, _, _, _, _, _, _, ht.trans hfields⟩
    obtain ⟨hsession, hpools, htags, hqueues, hsignals, hres, hcount⟩ := hchanges.frame
    have hmachine : t.cm.wait = s.cm.wait + 1 ∧ t.cm.cmd = s.cm.cmd ∧ t.cm.resp = s.cm.resp ∧ t.cm.retry = s.cm.retry ∧
        t.pm = s.pm ∧ KeepsStorage s t := by
      rw [ht, hfields]; exact ⟨rfl, rfl, rfl, rfl, rfl, fun _ => rfl, fun _ => rfl, rfl⟩
    obtain ⟨hwait, hcmd, hresp, hretry, hpm, hstorage⟩ := hmachine
    refine ⟨hwait, hcmd, hresp, hretry, hpm, hcount, hres, hsession, hpools, htags, hqueues, hsignals, hstorage,
      fun hbelow => ?_, fun htimeout => ?_⟩
    · rw [ht, cmWait_below hbelow]; exact ⟨hwaits, rfl, rfl, rfl⟩
    · rw [ht, cmWait_timeout htimeout, ← cmOp_eq]; exact ⟨rfl, rfl, rfl, rfl⟩

end Sys2Proof.Machine

/-! O13 and O14: phase 5 as a whole. What each inbound unit runs depends on the inputs and the configuration alone, which the steps
before it keep. -/

namespace Sys2Proof.Machine

/-! ### The inbound units (R230, R256) -/

theorem commandUnit_eq {s : State} {f : State → Host.Outcome State Fault Refusal}
    (h : RunsUnit (decodeCommand s.cfg) s.inp.cmd f) : commandUnit s = f s := by
  obtain ⟨hvalid, rfl⟩ | ⟨hvalid, i, hdecode, rfl⟩ | ⟨hvalid, e, hdecode, rfl⟩ := h
  · exact if_neg (by simp [hvalid])
  · simp only [commandUnit, if_pos hvalid, hdecode]
  · simp only [commandUnit, if_pos hvalid, hdecode]

theorem configUnit_eq {s : State} {g : State → Host.Outcome State Fault Refusal}
    (h : RunsUnit (decodeConfig s.cfg) s.inp.cfg g) : configUnit s = g s := by
  obtain ⟨hvalid, rfl⟩ | ⟨hvalid, i, hdecode, rfl⟩ | ⟨hvalid, e, hdecode, rfl⟩ := h
  · exact if_neg (by simp [hvalid])
  · simp only [configUnit, if_pos hvalid, hdecode]
  · simp only [configUnit, if_pos hvalid, hdecode]

theorem decodeCommand_unsupported {c : Config} {u : CmdRec} (hread : classify c u.opcode ≠ .partialRead)
    (hwrite : classify c u.opcode ≠ .partialWrite) : decodeCommand c u = .error .unsupportedClass := by
  cases hclass : classify c u.opcode with
  | partialRead => exact absurd hclass hread
  | partialWrite => exact absurd hclass hwrite
  | cfgRead | cfgWrite | other => simp only [decodeCommand, hclass]

theorem decodeConfig_unsupported {c : Config} {g : CfgRec} (hread : classify c g.opcode ≠ .cfgRead)
    (hwrite : classify c g.opcode ≠ .cfgWrite) : decodeConfig c g = .error .unsupportedClass := by
  cases hclass : classify c g.opcode with
  | cfgRead => exact absurd hclass hread
  | cfgWrite => exact absurd hclass hwrite
  | partialRead | partialWrite | other => simp only [decodeConfig, hclass]

/-- A command that only logs a record touches nothing else. -/
theorem logFault_commandFrame (k : FaultKind) (op : OpName) (s : State) :
    Logged k op s (logFault k op s) ∧ CommandFrame s (logFault k op s) ∧ KeepsMachines s (logFault k op s) :=
  ⟨⟨rfl, rfl⟩, commandFrame_of ⟨_, _, _, _, _, _, _, rfl⟩, rfl, rfl, rfl, rfl⟩

/-- Settles O14: a unit of another class decodes to nothing, and its interface runs the record alone. -/
theorem otherClassesAreDropped : Obligations.OtherClassesAreDropped := by
  refine fun s => ⟨fun hvalid hread hwrite => ?_, fun hvalid hread hwrite => ?_⟩
  · have hruns : RunsUnit (decodeCommand s.cfg) s.inp.cmd fun u => .next (logFault .unsupportedCommand .seq u) :=
      .inr (.inr ⟨hvalid, _, decodeCommand_unsupported hread hwrite, rfl⟩)
    rw [commandUnit_eq hruns]
    exact ⟨_, rfl, logFault_commandFrame .unsupportedCommand .seq s⟩
  · have hruns : RunsUnit (decodeConfig s.cfg) s.inp.cfg fun u => .next (logFault .unsupportedCommand .seq u) :=
      .inr (.inr ⟨hvalid, _, decodeConfig_unsupported hread hwrite, rfl⟩)
    rw [configUnit_eq hruns]
    exact ⟨_, rfl, logFault_commandFrame .unsupportedCommand .seq s⟩

theorem Within.cmdUnit {s t : State} (h : Within s t) : t.inp.cmd = s.inp.cmd := (congrArg TickInput.cmd h.inp :)

theorem Within.cfgUnit {s t : State} (h : Within s t) : t.inp.cfg = s.inp.cfg := (congrArg TickInput.cfg h.inp :)

/-- Phase 5 with what each unit runs put in its place. -/
theorem sequencer_eq {s : State} {f g : State → Host.Outcome State Fault Refusal}
    (hf : RunsUnit (decodeCommand s.cfg) s.inp.cmd f) (hg : RunsUnit (decodeConfig s.cfg) s.inp.cfg g) :
    sequencer s = andThen (f (beforeCommand s)) fun u => g (stepCm (tickDelivery s) u) := by
  have hbefore := beforeCommand_within s
  obtain ⟨u, hu, hcommand⟩ := commandUnit_next (beforeCommand s)
  have hstep : Within s (stepCm (tickDelivery s) u) := (hbefore.trans hcommand).trans (stepCm_within _ u)
  have hfu : f (beforeCommand s) = .next u := by
    rw [← hu]
    exact (commandUnit_eq (by rwa [hbefore.cfg, hbefore.cmdUnit])).symm
  rw [sequencer, hu, hfu, andThen_next, andThen_next]
  exact configUnit_eq (by rwa [hstep.cfg, hstep.cfgUnit])

/-! ### The order of the emissions (R243) -/

theorem emitResponses_partialFirst {s : State} (h : s.cfg.respPriority = .partialFirst) :
    emitResponses s = emitCm (emitPm s) := by
  simp only [emitResponses, h]

theorem emitResponses_configFirst {s : State} (h : s.cfg.respPriority = .configFirst) :
    emitResponses s = emitPm (emitCm s) := by
  simp only [emitResponses, h]

/-- Once the response signal is driven in a tick, no other response can leave in it. -/
theorem not_canEmit_of_driven {s : State} (h : s.out.ev.resp ≠ none) (data : Bool) : ¬ canEmit data s = true := by
  rw [canEmit_iff]
  rintro ⟨hdrive, -, -⟩
  simp [canDrive, notDriven, h] at hdrive

/-! ### Machines with nothing to do -/

theorem stepPm_absent {s : State} (h : s.pm.state ≠ .awaitingData) (d : Option MachineId) : stepPm d s = s := by
  cases hstate : s.pm.state with
  | awaitingData => exact absurd hstate h
  | idle => simp only [stepPm, hstate]
  | responsePending => simp only [stepPm, hstate]

theorem stepCm_absent {s : State} (h : s.cm.state ≠ .awaitingConfigData) (d : Option MachineId) : stepCm d s = s := by
  cases hstate : s.cm.state with
  | awaitingConfigData => exact absurd hstate h
  | idle => simp only [stepCm, hstate]

/-- Settles O13: the second emission of a tick finds the other machine as the first left it, which is as it was. -/
theorem sequencerRunsDecodedCommands : Obligations.SequencerRunsDecodedCommands := by
  refine ⟨fun s f g => sequencer_eq, fun s => ⟨emitResponses_partialFirst, emitResponses_configFirst⟩,
    fun s r hpriority hresp hdriven => ?configSecond, fun s hpriority hpending hdriven => ?partialSecond,
    fun s => ⟨emitPm_absent, emitCm_absent⟩, fun s d => ⟨fun h => stepPm_absent h d, fun h => stepCm_absent h d⟩⟩
  case configSecond =>
    obtain ⟨-, hcm, -⟩ := emitPm_fields s
    obtain ⟨resp, diag, outDiag, hretry⟩ := retryCm_fields r (emitPm s)
    rw [emitResponses_partialFirst hpriority, emitCm_retries (by rw [hcm, hresp]) (not_canEmit_of_driven hdriven _), hretry,
      ← hcm]
    exact ⟨rfl, fun _ => rfl, rfl, rfl⟩
  case partialSecond =>
    obtain ⟨-, hpm, -⟩ := emitCm_fields s
    obtain ⟨state, diag, outDiag, hretry⟩ := retryPm_fields (emitCm s)
    rw [emitResponses_configFirst hpriority, emitPm_retries (by rw [hpm, hpending]) (not_canEmit_of_driven hdriven _), hretry,
      ← hpm]
    exact ⟨rfl, fun _ => rfl, rfl, rfl⟩

end Sys2Proof.Machine

/-! O56: the lifecycle step of a whole tick. The phases around phase 7 leave everything it reads, so the next lifecycle state is
`nextLifecycle` of the state and the inputs the tick began with; what is left is to read its conditions on the active set. -/

namespace Sys2Proof.Machine

/-! ### The conditions on the active set (R283, R287) -/

theorem activeSet_isEmpty_iff (c : Config) (i : TickInput) :
    (activeSet c i).isEmpty = true ↔ ∀ n < c.nCtx, i.ctxActive.getLsbD n = false := by
  simp [activeSet]

theorem allDone_iff (c : Config) (i : TickInput) :
    allDone c i = true ↔ ∀ n < c.nCtx, i.ctxActive.getLsbD n = true → i.ctxDone.getLsbD n = true := by
  simp [allDone, mem_activeSet]

theorem nextLifecycle_ready_of_active {c : Config} {i : TickInput}
    (h : ∃ n < c.nCtx, i.ctxActive.getLsbD n = true) : nextLifecycle c i .ready = .running := by
  obtain ⟨n, hn, hactive⟩ := h
  exact if_neg fun hempty => by simp [(activeSet_isEmpty_iff c i).1 hempty n hn] at hactive

theorem nextLifecycle_ready_of_noneActive {c : Config} {i : TickInput}
    (h : ∀ n < c.nCtx, i.ctxActive.getLsbD n = false) : nextLifecycle c i .ready = .ready :=
  if_pos ((activeSet_isEmpty_iff c i).2 h)

theorem nextLifecycle_draining_of_allDone {c : Config} {i : TickInput}
    (h : ∀ n < c.nCtx, i.ctxActive.getLsbD n = true → i.ctxDone.getLsbD n = true) :
    nextLifecycle c i .drainingResponses = .halted :=
  if_pos ((allDone_iff c i).2 h)

theorem nextLifecycle_draining_of_notDone {c : Config} {i : TickInput}
    (h : ∃ n < c.nCtx, i.ctxActive.getLsbD n = true ∧ i.ctxDone.getLsbD n = false) :
    nextLifecycle c i .drainingResponses = .drainingResponses := by
  obtain ⟨n, hn, hactive, hdone⟩ := h
  exact if_neg fun hall => by simp [(allDone_iff c i).1 hall n hn hactive] at hdone

/-! ### The whole step -/

/-- The X/Z check masks no input that the lifecycle reads (R364). -/
theorem nextLifecycle_cleanInput (c : Config) (i : TickInput) : nextLifecycle c (cleanInput i) = nextLifecycle c i := rfl

/-- Within a tick only the tag draws are used up, and the lifecycle reads none of them. -/
theorem Within.nextLifecycle {s t : State} (h : Within s t) (c : Config) :
    nextLifecycle c t.inp = nextLifecycle c s.inp :=
  (congrArg (Machine.nextLifecycle c) h.inp :)

@[simp] theorem beginTick_lc (s : State) : (beginTick s).lc = s.lc := by rw [beginTick_eq]

/-- One lifecycle step for each full tick, from what the tick began with (R281). -/
theorem fullTick_lc {s t : State} (h : fullTick s = .next t) : t.lc = nextLifecycle s.cfg s.inp s.lc := by
  obtain ⟨w, hwithin, rfl⟩ := fullTick_within h
  calc (closeTick (lifecycleStep w)).lc = nextLifecycle w.cfg w.inp w.lc := rfl
    _ = nextLifecycle (beginTick s).cfg (beginTick s).inp (beginTick s).lc := by
      rw [hwithin.nextLifecycle, hwithin.cfg, hwithin.lc]
    _ = nextLifecycle s.cfg s.inp s.lc := by
      rw [beginTick_cfg, beginTick_inp, beginTick_lc, nextLifecycle_cleanInput]

/-- A step that yields a snapshot takes one lifecycle step on the inputs it takes (R281). -/
theorem step_lc {s t : State} (hyields : yieldsSnapshot s = true) (h : step s = .next t) :
    t.lc = nextLifecycle s.cfg (nextInput s) s.lc := by
  rw [step_of_yields hyields] at h
  simpa using fullTick_lc h

/-- Settles O56: `step_lc` at each of the six states. -/
theorem lifecycleTransitions : Obligations.LifecycleTransitions := by
  intro s t hyields hstep
  have hlc := step_lc hyields hstep
  refine ⟨fun hs => ?idle, fun hs => ?ready, fun hs => ?running, fun hs => ?resetting, fun hs => ?draining, fun hs => ?halted⟩ <;>
    rw [hs] at hlc
  case idle => exact hlc
  case ready =>
    exact ⟨fun hactive => hlc.trans (nextLifecycle_ready_of_active hactive),
      fun hnone => hlc.trans (nextLifecycle_ready_of_noneActive hnone)⟩
  case running => exact hlc
  case resetting => exact hlc
  case draining =>
    exact ⟨fun hall => hlc.trans (nextLifecycle_draining_of_allDone hall),
      fun hnotDone => hlc.trans (nextLifecycle_draining_of_notDone hnotDone)⟩
  case halted => exact hlc

end Sys2Proof.Machine

/-! O57 to O60: the command arbiter. The membership update is said once on lists, the grant once as the state it leaves; each
statement is then read off these two. -/

namespace Sys2Proof.Machine

/-! ### The membership update (R310) -/

theorem mem_updatedRotation {active rot : List Nat} {c : Nat} : c ∈ updatedRotation active rot ↔ c ∈ active := by
  by_cases hrot : c ∈ rot <;> simp [updatedRotation, hrot]

theorem updatedRotation_nodup {active rot : List Nat} (hactive : active.Nodup) (hrot : rot.Nodup) :
    (updatedRotation active rot).Nodup := by
  refine List.nodup_append'.2 ⟨hrot.filter _, hactive.filter _, fun c hkept hjoined => ?_⟩
  have hnew : c ∉ rot := by simpa using (List.mem_filter.1 hjoined).2
  exact hnew (List.mem_filter.1 hkept).1

/-- A rotation that already holds exactly the active contexts is left as it is. -/
theorem updatedRotation_eq_self {active rot : List Nat} (h : ∀ c, c ∈ rot ↔ c ∈ active) : updatedRotation active rot = rot := by
  have hkept : rot.filter (fun c => decide (c ∈ active)) = rot := List.filter_eq_self.2 fun c hc => by simpa using (h c).1 hc
  have hjoined : active.filter (fun c => decide (c ∉ rot)) = [] := List.filter_eq_nil_iff.2 fun c hc => by simpa using (h c).2 hc
  rw [updatedRotation, hkept, hjoined, List.append_nil]

theorem activeSet_pairwise_lt (c : Config) (i : TickInput) : (activeSet c i).Pairwise (· < ·) :=
  List.pairwise_lt_range.filter _

theorem updateMembership_eq_self {s : State} (h : ∀ c, c ∈ s.rot ↔ c < s.cfg.nCtx ∧ s.inp.ctxActive.getLsbD c = true) :
    updateMembership s = s := by
  rw [updateMembership, updatedRotation_eq_self fun c => (h c).trans mem_activeSet.symm]

/-- Settles O58: the contexts kept are a filter of the rotation, the newcomers a filter of the ascending active set. -/
theorem membershipKeepsOrder : Obligations.MembershipKeepsOrder := by
  intro s hnodup active
  refine ⟨rfl, updatedRotation_nodup (activeSet_nodup s.cfg s.inp) hnodup, fun c => mem_updatedRotation.trans mem_activeSet,
    _, _, rfl, List.filter_sublist, fun c hc hactive => ?_, (activeSet_pairwise_lt s.cfg s.inp).filter _, fun c hc => ?_⟩
  · exact List.mem_filter.2 ⟨hc, decide_eq_true (mem_activeSet.2 hactive)⟩
  · simpa using (List.mem_filter.1 hc).2

/-! ### Outside `Running` (R313) -/

theorem grantStep_of_not_running {s : State} (h : s.lc ≠ .running) : grantStep s = s := by
  cases hlc : s.lc with
  | running => exact absurd hlc h
  | idle | ready | resetting | drainingResponses | halted => simp only [grantStep, hlc]

/-- Settles O57: the phases before the arbiter are `Within` the tick, which keeps the lifecycle; the update keeps it too. -/
theorem noGrantOutsideRunning : Obligations.NoGrantOutsideRunning := by
  refine ⟨fun s u v hu hv => ?_, fun s h => grantStep_of_not_running (s := updateMembership s) h⟩
  obtain ⟨u', hu', hrequests⟩ := runRequests_next s.inp.req (beginTick s)
  obtain ⟨-, v', -, -, hv', hsequencer⟩ := sequencer_next (router u)
  cases hu.symm.trans hu'
  cases hv.symm.trans hv'
  calc v.lc = (router u).lc := hsequencer.lc
    _ = u.lc := (router_within u).lc
    _ = (beginTick s).lc := hrequests.lc
    _ = s.lc := beginTick_lc s

/-! ### The candidate (R314) -/

theorem candidate_eq_none {s : State} (h : ∀ c ∈ s.rot, s.inp.ready.getLsbD c = false) : candidate s = none :=
  List.find?_eq_none.2 fun c hc => by simp [h c hc]

theorem candidate_eq_some {s : State} {pre post : List Nat} {c : Nat} (hrot : s.rot = pre ++ c :: post)
    (hpre : ∀ p ∈ pre, s.inp.ready.getLsbD p = false) (hready : s.inp.ready.getLsbD c = true) : candidate s = some c :=
  List.find?_eq_some_iff_append.2 ⟨hready, pre, post, hrot, fun p hp => by simp [hpre p hp]⟩

theorem grantStep_of_noCandidate {s : State} (h : candidate s = none) : grantStep s = s := by
  unfold grantStep
  cases s.lc <;> simp only [h]

theorem grantStep_of_candidate {s : State} {c : Nat} (hrunning : s.lc = .running) (h : candidate s = some c) :
    grantStep s = grant c s := by
  simp only [grantStep, hrunning, h]

/-! ### The grant (R315 to R317) -/

theorem canGrant_iff {s : State} : canGrant s = true ↔
    0 < (s.pools.get .cmd).avail.toNat ∧ canDrive .cmdV s = true ∧ liveTags s < tagPool s := by
  simp only [canGrant, Bool.and_eq_true, decide_eq_true_eq, hasCredit_iff, and_assoc]

theorem grant_missing {c : Nat} {s : State} (h : ¬ canGrant s = true) : grant c s = s := if_neg h

/-- The state after context `c` was granted tag `n`: the credit first, then the tag with what its draw used up, then the drive and
the rotation. -/
def granted (c n : Nat) (draws : List Nat) (ctr : Nat) (s : State) : State :=
  drive (.cmd (outboundCmd (offeredParams s.inp c) n))
    { takeCredit .cmd s with
      tags := insertAt n (BitVec.ofNat 8 c) s.tags
      inp := { s.inp with draw := draws }
      freeCtr := ctr
      rot := moveToBack c s.rot }

/-- With every resource there the allocation cannot fail, so the grant is whole. -/
theorem grant_eq_granted {s : State} (h : canGrant s = true) (c : Nat) : ∃ n draws ctr,
    n < tagPool s ∧ lookup s.tags n = none ∧ (s.cfg.allocPolicy = .lowest → ∀ m < n, lookup s.tags m ≠ none) ∧
    grant c s = granted c n draws ctr s := by
  have hfree : freeTags (takeCredit .cmd s) ≠ [] := freeTags_ne_nil (canGrant_iff.1 h).2.2
  obtain ⟨n, u, halloc, hn, hnone, hleast, -⟩ := allocate_spec (r := BitVec.ofNat 8 c) hfree
  obtain ⟨tags, draws, ctr, rfl⟩ := allocate_changesTags halloc
  obtain rfl : tags = insertAt n (BitVec.ofNat 8 c) s.tags := allocate_tags halloc
  refine ⟨n, draws, ctr, hn, hnone, hleast, ?_⟩
  simp only [grant, if_pos h, halloc]
  rfl

@[simp] theorem granted_rot (c n : Nat) (draws : List Nat) (ctr : Nat) (s : State) :
    (granted c n draws ctr s).rot = moveToBack c s.rot := rfl

theorem granted_drove (c n : Nat) (draws : List Nat) (ctr : Nat) (s : State) :
    Drove (.cmd (outboundCmd (offeredParams s.inp c) n)) s (granted c n draws ctr s) := ⟨rfl, rfl⟩

theorem granted_tookCredit {s : State} (h : hasCredit .cmd s = true) (c n : Nat) (draws : List Nat) (ctr : Nat) :
    TookCredit .cmd s (granted c n draws ctr s) :=
  tookCredit_takeCredit h

theorem granted_frame (c n : Nat) (draws : List Nat) (ctr : Nat) (s : State) :
    NotLogged s (granted c n draws ctr s) ∧ KeepsMachines s (granted c n draws ctr s) ∧
    KeepsStorage s (granted c n draws ctr s) ∧ KeepsQueues s (granted c n draws ctr s) ∧
    (granted c n draws ctr s).lc = s.lc ∧ (granted c n draws ctr s).out.res = s.out.res :=
  ⟨⟨rfl, rfl⟩, ⟨rfl, rfl, rfl, rfl⟩, ⟨fun _ => rfl, fun _ => rfl, rfl⟩, ⟨fun _ => rfl, fun _ => rfl⟩, rfl, rfl⟩

/-- Settles O59: without a candidate, with a candidate and every resource, and with a candidate and a resource missing. -/
theorem grantIsAllOrNothing : Obligations.GrantIsAllOrNothing := by
  intro s hrunning hnodup
  refine ⟨fun hnone => grantStep_of_noCandidate (candidate_eq_none hnone), fun pre c post hrot hpre hready => ?_⟩
  rw [grantStep_of_candidate hrunning (candidate_eq_some hrot hpre hready), ← canGrant_iff]
  refine ⟨fun hcan => ?_, grant_missing⟩
  obtain ⟨n, draws, ctr, hn, hnone, hleast, hgrant⟩ := grant_eq_granted hcan c
  rw [hgrant]
  have hcredit : hasCredit .cmd s = true := (hasCredit_iff .cmd s).2 (canGrant_iff.1 hcan).1
  have hback : moveToBack c s.rot = pre ++ post ++ [c] := by
    rw [hrot] at hnodup ⊢
    exact moveToBack_append pre post c hnodup
  exact ⟨n, hn, hnone, hleast, lookup_insertAt_self n _ s.tags, fun m hm => lookup_insertAt_ne hm _ s.tags,
    granted_tookCredit hcredit c n draws ctr, granted_drove c n draws ctr s, hback, granted_frame c n draws ctr s⟩

/-! ### Fairness (R322) -/

/-- Every context of the rotation is ready: the candidate is the one at the front. -/
theorem candidate_of_allReady {s : State} (h : ∀ c ∈ s.rot, s.inp.ready.getLsbD c = true) : candidate s = s.rot.head? := by
  cases hrot : s.rot with
  | nil => simp [candidate, hrot]
  | cons c rest => exact candidate_eq_some (pre := []) hrot (by simp) (h c (by simp [hrot]))

/-- A phase 6 that finds its members in the rotation, all of them ready, and every resource of a grant: it grants to the context at
the front, drives a command and turns the rotation by one. -/
theorem arbiter_turns {s : State} (hrunning : s.lc = .running) (hnodup : s.rot.Nodup) (hne : s.rot ≠ [])
    (hactive : ∀ c, c ∈ s.rot ↔ c < s.cfg.nCtx ∧ s.inp.ctxActive.getLsbD c = true)
    (hready : ∀ c ∈ s.rot, s.inp.ready.getLsbD c = true) (hcan : canGrant s = true) :
    candidate (updateMembership s) = s.rot.head? ∧ (arbiter s).out.ev.cmd.isSome = true ∧ (arbiter s).rot = s.rot.rotate 1 := by
  rw [arbiter, updateMembership_eq_self hactive]
  refine ⟨candidate_of_allReady hready, ?_⟩
  obtain ⟨c, rest, hrot⟩ := List.exists_cons_of_ne_nil hne
  have hcandidate : candidate s = some c := by rw [candidate_of_allReady hready, hrot, List.head?_cons]
  obtain ⟨n, draws, ctr, -, -, -, hgrant⟩ := grant_eq_granted hcan c
  rw [grantStep_of_candidate hrunning hcandidate, hgrant, granted_rot]
  refine ⟨rfl, ?_⟩
  rw [hrot] at hnodup ⊢
  simpa using moveToBack_append [] rest c hnodup

/-- Settles O60: as long as the members stay the same each phase turns the rotation by one, so the rotation at phase `i` is the first
one turned `i` times, with the context at place `i mod k` in front. -/
theorem grantsAreRoundRobin : Obligations.GrantsAreRoundRobin := by
  intro ss k hlength hpos hnodup hrunning hactive hready hresources hcarried
  have hturns : ∀ i, (ss i).rot = (ss 0).rot.rotate i → candidate (updateMembership (ss i)) = (ss i).rot.head? ∧
      (arbiter (ss i)).out.ev.cmd.isSome = true ∧ (arbiter (ss i)).rot = (ss i).rot.rotate 1 := by
    intro i hrot
    have hmem : ∀ c, c ∈ (ss i).rot ↔ c ∈ (ss 0).rot := fun c => by rw [hrot, List.mem_rotate]
    have hne : (ss i).rot ≠ [] := List.ne_nil_of_length_pos (by rwa [hrot, List.length_rotate, hlength])
    exact arbiter_turns (hrunning i) (by rwa [hrot, List.nodup_rotate]) hne (fun c => (hmem c).trans (hactive i c))
      (fun c hc => hready i c ((hmem c).1 hc)) (canGrant_iff.2 (hresources i))
  have hrotated : ∀ i, (ss i).rot = (ss 0).rot.rotate i := by
    intro i
    induction i with
    | zero => rw [List.rotate_zero]
    | succ i ih =>
      obtain ⟨-, -, hrot⟩ := hturns i ih
      rw [hcarried, hrot, ih, List.rotate_rotate]
  intro i
  obtain ⟨hfront, hdriven, hrot⟩ := hturns i (hrotated i)
  have hmod : i % k < (ss 0).rot.length := by rw [hlength]; exact Nat.mod_lt i hpos
  refine ⟨?_, hdriven, hrot⟩
  calc candidate (updateMembership (ss i)) = (ss i).rot.head? := hfront
    _ = ((ss 0).rot.rotate (i % k)).head? := by rw [hrotated i, ← hlength, List.rotate_mod]
    _ = (ss 0).rot[i % k]? := List.head?_rotate hmod

end Sys2Proof.Machine

/-! O41 to O43: the signals. A request drives its signal or answers `BUSY`; over a whole tick a signal is untouched or driven from a
state in which it could be (`SignalWithin`), which is all that the levels and the countdown after the tick depend on. -/

namespace Sys2Proof.Machine

/-! ### `BT.DRIVE` (R345) -/

theorem exec_btDrive_drives {p : DrivePayload} {s : State} (h : canDrive p.signal s = true) :
    exec (.btDrive p) s = finish .ok (drive p s) := if_pos h

theorem exec_btDrive_busy {p : DrivePayload} {s : State} (h : canDrive p.signal s = false) :
    exec (.btDrive p) s = finish .busy s := if_neg (by simp [h])

/-- A drive with its answer touches its signal and the results alone: in particular it takes no credit. -/
theorem drive_frame (r : Result) (p : DrivePayload) (s : State) : RequestFrame s (giveResult r (drive p s)) ∧
    KeepsPools s (giveResult r (drive p s)) ∧ KeepsTags s (giveResult r (drive p s)) ∧
    KeepsQueues s (giveResult r (drive p s)) ∧ NotLogged s (giveResult r (drive p s)) ∧
    Answered r s (giveResult r (drive p s)) ∧ Drove p s (giveResult r (drive p s)) := by
  cases p <;>
    exact ⟨⟨⟨rfl, rfl, rfl, rfl, rfl, rfl, rfl, rfl, rfl, rfl⟩, ⟨rfl, rfl, rfl, rfl⟩, fun _ => rfl, fun _ => rfl, rfl⟩,
      fun _ => rfl, ⟨fun _ => rfl, rfl, rfl⟩, ⟨fun _ => rfl, fun _ => rfl⟩, ⟨rfl, rfl⟩, rfl, rfl, rfl⟩

/-- Settles O41: the operand of the word is the one the encoder writes; where the signal can be driven the request is a drive, where
it cannot the request only answers. -/
theorem driveStartsThePulse : Obligations.DriveStartsThePulse := by
  refine ⟨fun sig s => ?_, fun p s => ⟨fun hwf => ?_, ?_⟩⟩
  · rw [canDrive_iff, undriven_iff]
  · have hreads := readsOperand_encodeOperand_btDrive hwf
    refine decodeRequest_of_spells ⟨hwf, rfl, ?_⟩
    cases p <;> exact hreads
  · cases hcan : canDrive p.signal s with
    | true =>
      obtain ⟨hframe, hpools, htags, hqueues, hlogged, hanswered, hdrove⟩ := drive_frame .ok p s
      exact ⟨_, exec_btDrive_drives hcan, hframe, hpools, htags, hqueues, hlogged, fun _ => ⟨hanswered, hdrove⟩, nofun⟩
    | false =>
      obtain ⟨hframe, hpools, htags, hqueues, hsignals, hlogged, hanswered⟩ := answer_frame (s := s) .busy rfl
      exact ⟨_, exec_btDrive_busy hcan, hframe, hpools, htags, hqueues, hlogged, nofun, fun _ => ⟨hanswered, hsignals⟩⟩

/-! ### The start and the end of a tick that yields a snapshot (R362, R372, R374) -/

@[simp] theorem beginTick_sigs (s : State) : (beginTick s).sigs = s.sigs := by rw [beginTick_eq]
@[simp] theorem beginTick_ev (s : State) : (beginTick s).out.ev = ⟨none, none, none, none⟩ := by rw [beginTick_eq]; rfl
@[simp] theorem beginTick_rdReqCount (s : State) : (beginTick s).out.rdReqCount = 0 := by rw [beginTick_eq]; rfl

theorem notDriven_beginTick (s : State) (sig : Signal) : notDriven (beginTick s).out.ev sig = true := by
  rw [beginTick_ev]
  cases sig <;> rfl

@[simp] theorem sendsUnit_snapshot (s : State) (sig : Signal) : sendsUnit (snapshot s) sig = !notDriven s.out.ev sig := by
  cases sig <;> simp only [sendsUnit, snapshot, maskIface, notDriven]
  case cmdV => cases s.out.ev.cmd <;> rfl
  case cmdDataV => cases s.out.ev.cmdData <;> rfl
  case respV => cases s.out.ev.resp <;> rfl
  case respDataV => cases s.out.ev.respData <;> rfl

@[simp] theorem levelOf_snapshot (s : State) (sig : Signal) : levelOf (snapshot s) sig = decide (0 < sigCount s.sigs sig) := by
  cases sig <;> rfl

/-- Of the four ways of a step only a full tick of an accepted configuration gives a snapshot. -/
theorem fullTick_of_snap {s t : State} {n : Snapshot} (h : step s = .next t) (hsnap : t.out.snap = some n) :
    configOk s.cfg = true ∧ fullTick (takeInput s) = .next t := by
  obtain ⟨hconfig, ⟨-, rfl⟩ | ⟨-, -, rfl⟩ | ⟨-, -, -, rfl⟩ | ⟨-, hfull⟩⟩ := step_cases h
  · cases hsnap
  · cases hsnap
  · rw [closeSession_snap] at hsnap
    cases hsnap
  · exact ⟨hconfig, hfull⟩

/-- A step with a snapshot: a part `Within` the tick from its start to a state `w`, whose snapshot it is and whose counts then fall. -/
theorem step_snap {s t : State} {n : Snapshot} (h : step s = .next t) (hsnap : t.out.snap = some n) :
    ∃ w, Within (beginTick (takeInput s)) w ∧ n = snapshot w ∧ t.sigs = countDownAll w.sigs ∧ t.out.ev = w.out.ev ∧
      t.out.rdReqCount = w.out.rdReqCount := by
  obtain ⟨w, hwithin, rfl⟩ := fullTick_within (fullTick_of_snap h hsnap).2
  cases hsnap
  exact ⟨w, hwithin, rfl, rfl, rfl, rfl⟩

/-- Only phase 5 issues data requests, one per machine at most (R237). -/
theorem fullTick_rdReqCount {s t : State} (h : fullTick s = .next t) : t.out.rdReqCount ≤ 2 := by
  obtain ⟨u, v, hrequests, -, hsequencer, -, hfull⟩ := fullTick_next s
  rw [hfull] at h
  cases h
  obtain ⟨-, -, -, -, -, hu⟩ := (runRequests_storage _ _ _ hrequests).trans (router_storage u)
  rw [beginTick_rdReqCount] at hu
  calc (endTick v).out.rdReqCount = v.out.rdReqCount := by
        change (creditReturns (lifecycleStep (arbiter v))).out.rdReqCount = _
        rw [creditReturns_rdReqCount]
        exact arbiter_rdReqCount v
    _ ≤ (router u).out.rdReqCount + 2 := sequencer_rdReqCount hsequencer
    _ = 2 := by rw [hu]

/-! ### One signal over a tick (R341, R344, R374) -/

/-- One signal over a tick with a snapshot: driven, from a pulse that was over or that `RELOAD` restarts, or counting down. -/
theorem step_signal {s t : State} {n : Snapshot} (h : step s = .next t) (hsnap : t.out.snap = some n) (sig : Signal) :
    (sendsUnit n sig = true ∧ (sigCount s.sigs sig = 0 ∨ s.cfg.pulseRedrive = .reload) ∧ levelOf n sig = true ∧
      sigCount t.sigs sig = s.cfg.pulseW - 1) ∨
    (sendsUnit n sig = false ∧ levelOf n sig = decide (0 < sigCount s.sigs sig) ∧
      sigCount t.sigs sig = sigCount s.sigs sig - 1) := by
  obtain ⟨hpulse, -⟩ := (configOk_iff s.cfg).1 (fullTick_of_snap h hsnap).1
  obtain ⟨w, hwithin, rfl, hsigs, -, -⟩ := step_snap h hsnap
  rw [sendsUnit_snapshot, levelOf_snapshot, hsigs, sigCount_countDownAll]
  obtain ⟨hcount, hdriven⟩ | ⟨hcan, hcount, hdriven⟩ := hwithin.sigs sig
  · rw [notDriven_beginTick] at hdriven
    rw [beginTick_sigs, takeInput_sigs] at hcount
    rw [hcount, hdriven]
    exact .inr ⟨rfl, rfl, rfl⟩
  · obtain ⟨-, hover⟩ := (canDrive_iff _ _).1 hcan
    rw [beginTick_sigs, beginTick_cfg, takeInput_sigs, takeInput_cfg] at hover
    rw [beginTick_cfg, takeInput_cfg] at hcount
    rw [hcount, hdriven]
    exact .inl ⟨rfl, hover, decide_eq_true hpulse, rfl⟩

/-- Settles O42: each signal by `step_signal`; each interface by what the tick drove on it, from no unit at the tick's start. -/
theorem levelFollowsTheCountdown : Obligations.LevelFollowsTheCountdown := by
  intro s t n h hsnap masked
  refine ⟨fun sig => ?_, ?_⟩
  · obtain ⟨hsends, hover, hlevel, hcount⟩ | ⟨hsends, hlevel, hcount⟩ := step_signal h hsnap sig
    · refine ⟨fun _ => ⟨hlevel, hcount⟩, fun hnot => (nomatch hsends.symm.trans hnot), fun hhold hpos => ?_⟩
      obtain hzero | hreload := hover
      · omega
      · exact nomatch hhold.symm.trans hreload
    · exact ⟨fun hsent => (nomatch hsends.symm.trans hsent), fun _ => ⟨hlevel, hcount⟩, fun _ _ => hsends⟩
  · have hreads : t.out.rdReqCount ≤ 2 := fullTick_rdReqCount (fullTick_of_snap h hsnap).2
    obtain ⟨w, hwithin, rfl, hsigs, hev, hcount⟩ := step_snap h hsnap
    have hheld := hwithin.held
    simp only [AllHeldWithin, beginTick_ev, beginTick_sigs, takeInput_sigs] at hheld
    obtain ⟨hcmd, hcmdData, hresp, hrespData⟩ := hheld
    have hmasked : masked = maskCmd w.cfg := by
      rw [hwithin.cfg, beginTick_cfg, takeInput_cfg]
      rfl
    have hshown : (BitVec.ofNat 2 w.out.rdReqCount).toNat = t.out.rdReqCount := by
      rw [← hcount, BitVec.toNat_ofNat, Nat.mod_eq_of_lt (by omega)]
    rw [hsigs, hev, hmasked]
    exact ⟨shows_of_held rfl hcmd rfl, shows_of_held rfl hcmdData rfl, shows_of_held rfl hresp rfl,
      shows_of_held rfl hrespData rfl, hreads, hshown, rfl⟩

/-! ### A pulse of two ticks (R350) -/

theorem step_keeps_cfg {s t : State} (h : step s = .next t) : t.cfg = s.cfg := by
  obtain ⟨hconfig, -⟩ := step_cases h
  obtain ⟨t', ht', hcfg⟩ := tick_keeps_cfg (takeInput s)
  rw [step_eq_tick hconfig] at h
  cases h.symm.trans ht'
  exact hcfg

/-- Settles O43: the drive leaves one cycle of its pulse to the second tick, which shows it and leaves none to the third. -/
theorem pulseLastsTwoTicks : Obligations.PulseLastsTwoTicks := by
  intro s t u v a b c sig hwidth hst htu huv ha hb hc hsent
  obtain ⟨hfirst, -, -⟩ := (levelFollowsTheCountdown s t a hst ha).1 sig
  obtain ⟨-, hsecond, hholds⟩ := (levelFollowsTheCountdown t u b htu hb).1 sig
  obtain ⟨-, hthird, -⟩ := (levelFollowsTheCountdown u v c huv hc).1 sig
  obtain ⟨hlevel, hcount⟩ := hfirst hsent
  have hone : sigCount t.sigs sig = 1 := by rw [hcount, hwidth]
  refine ⟨fun hhold => hholds (by rwa [step_keeps_cfg hst]) (by omega), fun hidle hlast => ?_⟩
  obtain ⟨hlevel', hcount'⟩ := hsecond hidle
  obtain ⟨hlevel'', -⟩ := hthird hlast
  rw [hone] at hlevel' hcount'
  rw [hcount'] at hlevel''
  exact ⟨hlevel, hlevel', hlevel''⟩

end Sys2Proof.Machine

/-! O7, O11, O12, O15, O16, O18, O19, O21 and O22: the tick as a whole. What the end of a session and the start of a tick leave is said
once as an equation; a statement about every step then goes by the four ways of a step. -/

namespace Sys2Proof.Machine

/-! ### Reset and closed sessions (R365, R440) -/

/-- Settles O7: the step is a new session, which keeps the configuration and the storage and has every other element of the block from
the reset state. -/
theorem sessionResetStartsAfresh : Obligations.SessionResetStartsAfresh := by
  intro s hconfig hrst
  exact ⟨newSession (takeInput s), step_of_rst hconfig hrst, rfl, rfl, rfl, rfl, rfl, rfl, rfl, rfl, rfl, rfl, rfl, rfl, rfl, rfl,
    fun _ => rfl, fun _ => rfl, rfl, rfl, rfl, rfl, rfl⟩

/-- Settles O15: the step only takes the inputs, which touches no element of the block and clears the outputs. -/
theorem closedSessionTakesNoStep : Obligations.ClosedSessionTakesNoStep := by
  intro s hconfig hclosed hrst
  exact ⟨takeInput s, step_of_closed hconfig hrst hclosed, rfl, rfl, rfl, rfl, rfl, rfl, rfl, rfl, rfl, rfl, rfl, rfl, hclosed, rfl,
    rfl, rfl, rfl⟩

/-! ### The end of a session (R363) -/

theorem losesSession_iff (i : TickInput) : losesSession i = true ↔ i.disconnect = true ∨ i.tfault ≠ none := by
  simp [losesSession, Option.isSome_iff_ne_none]

/-- The record of the reported transport fault; an orderly disconnect has none. -/
def transportRecords (s : State) : List Diag :=
  s.inp.tfault.toList.map fun f => { cycle := s.cycle, op := .transport, kind := transportKind f }

/-- Everything the end of a session does. -/
theorem closeSession_eq (s : State) :
    closeSession s = { s with
      tags := [], fifo := [], rdq := [], closed := true, diag := s.diag ++ transportRecords s,
      out := { s.out with diag := s.out.diag ++ transportRecords s } } := by
  unfold closeSession transportRecords
  cases s.inp.tfault with
  | none => simp
  | some f => rfl

/-- Settles O16: the step ends the session of the state with its inputs taken; the record is read off by the kind of the fault. -/
theorem disconnectReleasesAndCloses : Obligations.DisconnectReleasesAndCloses := by
  intro s hconfig hopen hrst hlost
  have hstep := step_of_lost hconfig hrst hopen ((losesSession_iff _).2 hlost)
  rw [closeSession_eq] at hstep
  refine ⟨_, hstep, fun _ => rfl, fun _ => rfl, rfl, rfl, rfl, rfl, rfl, rfl, rfl, rfl, rfl, rfl, rfl, ?_⟩
  refine congrArg (s.diag ++ ·) ?_
  rw [transportRecords, takeInput_inp, takeInput_cycle]
  cases (nextInput s).tfault with
  | none => rfl
  | some f => cases f <;> rfl

/-! ### The start of a tick (R362, R364) -/

/-- Where the return interface is flagged, all four of its flags read as 0. -/
theorem cleanInput_ret_get (i : TickInput) (k : CreditKind) : (cleanInput i).ret.get k = (i.ret.get k && !i.xz.ret) := by
  unfold cleanInput
  cases i.xz.ret with
  | false => simp
  | true => cases k <;> simp [Four.get]

/-- Settles O19: `beginTick_eq` lists what the start of a tick writes; all the rest it keeps. -/
theorem flaggedInterfacesAreNotRead : Obligations.FlaggedInterfacesAreNotRead := by
  intro s
  dsimp only
  rw [beginTick_eq]
  exact ⟨rfl, rfl, rfl, rfl, rfl, rfl, cleanInput_ret_get s.inp, rfl, rfl, rfl, rfl, rfl, rfl, fun _ => rfl, rfl, rfl, rfl, rfl, rfl,
    fun _ => rfl, ⟨fun _ => rfl, rfl, rfl⟩, ⟨rfl, rfl, rfl, rfl⟩, fun _ => rfl, rfl, fun _ => rfl, fun _ => rfl⟩

/-! ### The phases of a full tick (R360, R366) -/

/-- Settles O11: a full tick on the inputs taken is its phases in that order, by the definitions of its parts. -/
theorem stepRunsPhasesInOrder : Obligations.StepRunsPhasesInOrder := by
  intro s hyields
  rw [step_of_yields hyields, fullTick, takeInput_inp]
  rfl

theorem runRequest_of_decodes {q : Request} {i : Instr} {s : State} (h : decodeRequest s.cfg q = .ok i) :
    runRequest q s = exec i s := by
  rw [runRequest, h]

/-- Settles O12: the start of a tick keeps the configuration, so its first request decodes as it did before the tick. -/
theorem stepRunsDecodedRequest : Obligations.StepRunsDecodedRequest := by
  intro s q qs i hyields hreq hdecode
  have hfirst : runRequest q (beginTick (takeInput s)) = exec i (beginTick (takeInput s)) :=
    runRequest_of_decodes (by simpa using hdecode)
  rw [step_of_yields hyields, fullTick, takeInput_inp, hreq, runRequests, hfirst]

/-- Settles O22: the requests give one result each, from no result at the tick's start, and no later phase gives one. -/
theorem oneResultPerRequest : Obligations.OneResultPerRequest := by
  intro s t hyields hstep
  obtain ⟨u, w, hrequests, hlater, -, rfl⟩ := step_credits hyields hstep
  obtain ⟨rs, hres, hlength⟩ := runRequests_results hrequests
  calc (closeTick (creditReturns w)).out.res.length = (creditReturns w).out.res.length := rfl
    _ = rs.length := by rw [creditReturns_res, hlater.res, hres, beginTick_res, List.nil_append]
    _ = (nextInput s).req.length := hlength

/-! ### The cycle counter and the closed bit (R373, R375, R405) -/

/-- A full tick forms its snapshot, counts one cycle and leaves the session as it is. -/
theorem fullTick_snap_cycle_closed {s t : State} (h : fullTick s = .next t) :
    t.out.snap.isSome = true ∧ t.cycle = s.cycle + 1 ∧ t.closed = s.closed := by
  obtain ⟨w, hwithin, rfl⟩ := fullTick_within h
  have hcycle : w.cycle = s.cycle := hwithin.cycle.trans (beginTick_cycle s)
  have hclosed : w.closed = s.closed := hwithin.closed.trans (beginTick_closed s)
  exact ⟨rfl, congrArg (· + 1) hcycle, hclosed⟩

/-- Settles O18: of the four ways of a step only a full tick counts a cycle; the records are those of `diagnosticsAreAppendOnly`, or
none in a session reset. -/
theorem snapshotAdvancesTheCycle : Obligations.SnapshotAdvancesTheCycle := by
  intro s t hstep
  refine ⟨fun hyields => ?full, fun hshort => ?short, ?records⟩
  case full =>
    rw [step_of_yields hyields] at hstep
    obtain ⟨hsnap, hcycle, -⟩ := fullTick_snap_cycle_closed hstep
    exact ⟨hsnap, hcycle⟩
  case short =>
    obtain ⟨-, ⟨hreset, rfl⟩ | ⟨-, -, rfl⟩ | ⟨-, -, -, rfl⟩ | ⟨hyields, -⟩⟩ := step_cases hstep
    · exact ⟨rfl, fun hrst => (nomatch hrst.symm.trans hreset)⟩
    · exact ⟨rfl, fun _ => rfl⟩
    · rw [closeSession_eq]
      exact ⟨rfl, fun _ => rfl⟩
    · exact nomatch hshort.symm.trans hyields
  case records =>
    cases hrst : (nextInput s).rst with
    | true =>
      obtain ⟨hconfig, -⟩ := step_cases hstep
      cases (step_of_rst hconfig hrst).symm.trans hstep
      exact nofun
    | false => exact (diagnosticsAreAppendOnly s t hstep hrst).2

/-- Settles O21: by the four ways of a step; what tells the last two apart is whether the inputs end the session. -/
theorem onlySessionLossCloses : Obligations.OnlySessionLossCloses := by
  intro s t hstep
  rw [Bool.or_assoc]
  change t.closed = (!(nextInput s).rst && (s.closed || losesSession (nextInput s)))
  obtain ⟨-, ⟨hrst, rfl⟩ | ⟨hrst, hclosed, rfl⟩ | ⟨hrst, hopen, hlost, rfl⟩ | ⟨hyields, hfull⟩⟩ := step_cases hstep
  · rw [hrst]
    rfl
  · rw [hrst, takeInput_closed, hclosed]
    rfl
  · rw [hrst, hopen, hlost, closeSession_eq]
    rfl
  · obtain ⟨-, hrst, hopen, hkept⟩ := (yieldsSnapshot_iff s).1 hyields
    obtain ⟨-, -, hclosed⟩ := fullTick_snap_cycle_closed hfull
    rw [hclosed, takeInput_closed, hrst, hopen, hkept]
    rfl

end Sys2Proof.Machine
